-- ==== Sys2Proof/Word.lean ====
section
/-! DEFINITION. The word type of the hardware: every register and every image cell is one byte (spec/00_scope.md R11, R13, R14). -/

namespace Sys2Proof

/-- A byte. Bit 0 is the least significant bit (R13); arithmetic is modulo 256 (R14). -/
abbrev Byte := BitVec 8

end Sys2Proof
end

