-- ==== Sys2Proof/Syntax.lean ====
section
/-! DEFINITION. The eleven commands (spec/30_encoding.md R91, R110), one constructor per row of the opcode table,
and the names the decoder turns fields into. -/

namespace Sys2Proof

/-- One command byte, decoded. `h`, `v`, `m`, `e`, `i3`, `i2` are the flags of R92 to R96 and `r` the step-rate
selector 0..3. `u` (bit 4 of the step commands) and `x` (the other ignored bits, packed in descending bit order) have no
effect (R100); they are kept because CMD holds the byte as written (R21). -/
inductive Instr where
  /-- Restore, `0000 h v rr` (R181). -/
  | restore (h v : Bool) (r : Nat)
  /-- Seek, `0001 h v rr` (R182). -/
  | seek (h v : Bool) (r : Nat)
  /-- Step, `001 u h v rr` (R183). -/
  | step (u h v : Bool) (r : Nat)
  /-- Step-In, `010 u h v rr` (R184). -/
  | stepin (u h v : Bool) (r : Nat)
  /-- Step-Out, `011 u h v rr` (R185). -/
  | stepout (u h v : Bool) (r : Nat)
  /-- Read Sector, `100 m x e x x` (R201); `x` packs bits 3, 1, 0. -/
  | rdsec (m e : Bool) (x : Nat)
  /-- Write Sector, `101 m x e x x` (R202); `x` packs bits 3, 1, 0. -/
  | wrsec (m e : Bool) (x : Nat)
  /-- Read Address, `1100 xxxx` (R220). -/
  | rdaddr (x : Nat)
  /-- Force Interrupt, `1101 i3 i2 x x` (R250). -/
  | forceint (i3 i2 : Bool) (x : Nat)
  /-- Read Track, `1110 xxxx` (R230). -/
  | rdtrk (x : Nat)
  /-- Write Track, `1111 xxxx` (R240). -/
  | wrtrk (x : Nat)
deriving DecidableEq, Repr

/-- The latched command kind (spec/10_state.md R31): one of the eleven commands. -/
inductive CmdKind where
  | restore | seek | step | stepIn | stepOut | readSector | writeSector | readAddress | forceInterrupt | readTrack | writeTrack
deriving DecidableEq, Repr, Inhabited

/-- The direction of the Step command (spec/10_state.md R32): `inward` towards higher track numbers. -/
inductive StepDirection where
  | inward | outward
deriving DecidableEq, Repr, Inhabited

end Sys2Proof
end

