-- ==== Sys2Proof/Config.lean ====
section
/-! DEFINITION. What an implementation fixes (spec/00_scope.md R7, R8, R10) and the free values the spec leaves open. -/

namespace Sys2Proof

/-- The configuration record of R7, R8 and R10, constant along every run. Times are in host cycles. `CHIP_VARIANT` is
dropped in favour of the step-rate table, as R9 allows. -/
structure Config where
  /-- `SPIN_UP_TIME`. -/
  spinUpTime : Nat
  /-- `stepRateCycles[0]` to `stepRateCycles[3]`. -/
  stepRate0 : Nat
  stepRate1 : Nat
  stepRate2 : Nat
  stepRate3 : Nat
  /-- `VERIFY_TIME`. -/
  verifyTime : Nat
  /-- `SETTLE_TIME`. -/
  settleTime : Nat
  /-- `BYTE_TIME`, at least 1. -/
  byteTime : Nat
  /-- `CONFUSION_TIME`. -/
  confusionTime : Nat
  /-- `SPIN_DOWN_TIME`, at least 1. -/
  spinDownTime : Nat
  /-- `BASE`, the board's address of register offset 0 (R8). -/
  base : Nat
  /-- `TRACK00_INVERT` (R8). -/
  track00Invert : Bool
  /-- `crcPlaceholder.first` and `.second` (R10). -/
  crcFirst : Byte
  crcSecond : Byte
  /-- `DENSITY_CHECK_ON_TRANSFER` (R10). -/
  densityCheckOnTransfer : Bool
deriving DecidableEq, Repr

/-- The instantiation spec/95_test_vectors.md Part 2 fixes; the configuration of `State.reset` only.
DESIGN CHOICE, unsafe (entry 3): the values are OPEN (R7), so no statement rests on them. -/
def Config.testVectors : Config :=
  { spinUpTime := 100, stepRate0 := 6, stepRate1 := 12, stepRate2 := 20, stepRate3 := 30, verifyTime := 30,
    settleTime := 30, byteTime := 4, confusionTime := 50, spinDownTime := 200, base := 0, track00Invert := false,
    crcFirst := 0xC0, crcSecond := 0xC1, densityCheckOnTransfer := false }

/-- Free bytes, one for each draw: `TRACK`, `SECTOR`, `DATA`, `CMD` after a Reset event (93 U2) and the read of an image
offset that holds no value (93 U14, U16). -/
opaque Config.freeByte : Nat → Byte

/-- Free step directions, one for each draw: `stepDirection` after a Reset event (93 U3). -/
opaque Config.freeDirection : Nat → StepDirection

/-- Free command kinds, one for each draw: `cmdKind` after a Reset event (93 U2). -/
opaque Config.freeCmdKind : Nat → CmdKind

/-- `sizeCode(n)` for `n` other than 128, 256, 512 and 1024 (R222, 93 U9): unspecified. -/
opaque Config.sizeCodeOther : Nat → Byte

end Sys2Proof
end

