-- ==== Sys2Proof/WellFormed.lean ====
section
/-! DEFINITION. Well-formed commands (each field within the bits its encoding gives it, spec/30_encoding.md R92 to R96)
and configurations (the constraints of spec/00_scope.md R7). -/

namespace Sys2Proof

/-- Each numeric field fits its bits: the step-rate selector 2 bits (R92, R93), the ignored bits 3 (R94), 4 (R95) or
2 (R96). -/
def Instr.wellFormed : Instr → Bool
  | .restore _ _ r => decide (r < 4)
  | .seek _ _ r => decide (r < 4)
  | .step _ _ _ r => decide (r < 4)
  | .stepin _ _ _ r => decide (r < 4)
  | .stepout _ _ _ r => decide (r < 4)
  | .rdsec _ _ x => decide (x < 8)
  | .wrsec _ _ x => decide (x < 8)
  | .rdaddr x => decide (x < 16)
  | .forceint _ _ x => decide (x < 4)
  | .rdtrk x => decide (x < 16)
  | .wrtrk x => decide (x < 16)

/-- The constraints of R7: `BYTE_TIME` and `SPIN_DOWN_TIME` are at least 1. -/
def Config.wellFormed (c : Config) : Bool :=
  decide (1 ≤ c.byteTime) && decide (1 ≤ c.spinDownTime)

end Sys2Proof
end

