-- ==== Sys2Proof/Decode.lean ====
section
/-! DEFINITION. The command decoder (spec/30_encoding.md R90, R91, R97) and the encoder of R110. -/

namespace Sys2Proof

/-- `v[i]` (spec/00_scope.md R13). -/
def bitAt (v : Byte) (i : Nat) : Bool := v.getLsbD i

/-- `v[hi:lo]` as a natural number (spec/00_scope.md R13). -/
def fieldAt (v : Byte) (hi lo : Nat) : Nat := v.toNat / 2 ^ lo % 2 ^ (hi + 1 - lo)

/-- The ignored bits 3, 1, 0 of a Type II command (R94), packed in that order. -/
def ignoredTypeII (v : Byte) : Nat := 4 * fieldAt v 3 3 + fieldAt v 1 0

/-- `decode(v)`: total on bytes, selected by the high nibble (R91, R97); no byte is illegal (R100). -/
def decode (v : Byte) : Instr :=
  match fieldAt v 7 4 with
  | 0x0 => .restore (bitAt v 3) (bitAt v 2) (fieldAt v 1 0)
  | 0x1 => .seek (bitAt v 3) (bitAt v 2) (fieldAt v 1 0)
  | 0x2 => .step (bitAt v 4) (bitAt v 3) (bitAt v 2) (fieldAt v 1 0)
  | 0x3 => .step (bitAt v 4) (bitAt v 3) (bitAt v 2) (fieldAt v 1 0)
  | 0x4 => .stepin (bitAt v 4) (bitAt v 3) (bitAt v 2) (fieldAt v 1 0)
  | 0x5 => .stepin (bitAt v 4) (bitAt v 3) (bitAt v 2) (fieldAt v 1 0)
  | 0x6 => .stepout (bitAt v 4) (bitAt v 3) (bitAt v 2) (fieldAt v 1 0)
  | 0x7 => .stepout (bitAt v 4) (bitAt v 3) (bitAt v 2) (fieldAt v 1 0)
  | 0x8 => .rdsec (bitAt v 4) (bitAt v 2) (ignoredTypeII v)
  | 0x9 => .rdsec (bitAt v 4) (bitAt v 2) (ignoredTypeII v)
  | 0xA => .wrsec (bitAt v 4) (bitAt v 2) (ignoredTypeII v)
  | 0xB => .wrsec (bitAt v 4) (bitAt v 2) (ignoredTypeII v)
  | 0xC => .rdaddr (fieldAt v 3 0)
  | 0xD => .forceint (bitAt v 3) (bitAt v 2) (fieldAt v 1 0)
  | 0xE => .rdtrk (fieldAt v 3 0)
  | _ => .wrtrk (fieldAt v 3 0)

/-- The command byte of R110; a numeric field takes the bits its format gives it. -/
def encode : Instr → Byte
  | .restore h v r => BitVec.ofNat 8 (0x00 + 8 * h.toNat + 4 * v.toNat + r % 4)
  | .seek h v r => BitVec.ofNat 8 (0x10 + 8 * h.toNat + 4 * v.toNat + r % 4)
  | .step u h v r => BitVec.ofNat 8 (0x20 + 16 * u.toNat + 8 * h.toNat + 4 * v.toNat + r % 4)
  | .stepin u h v r => BitVec.ofNat 8 (0x40 + 16 * u.toNat + 8 * h.toNat + 4 * v.toNat + r % 4)
  | .stepout u h v r => BitVec.ofNat 8 (0x60 + 16 * u.toNat + 8 * h.toNat + 4 * v.toNat + r % 4)
  | .rdsec m e x => BitVec.ofNat 8 (0x80 + 16 * m.toNat + 4 * e.toNat + 8 * (x / 4 % 2) + x % 4)
  | .wrsec m e x => BitVec.ofNat 8 (0xA0 + 16 * m.toNat + 4 * e.toNat + 8 * (x / 4 % 2) + x % 4)
  | .rdaddr x => BitVec.ofNat 8 (0xC0 + x % 16)
  | .forceint i3 i2 x => BitVec.ofNat 8 (0xD0 + 8 * i3.toNat + 4 * i2.toNat + x % 4)
  | .rdtrk x => BitVec.ofNat 8 (0xE0 + x % 16)
  | .wrtrk x => BitVec.ofNat 8 (0xF0 + x % 16)

/-- The command an instruction is, as the latch `cmdKind` names it (R97). -/
def commandKind : Instr → CmdKind
  | .restore _ _ _ => .restore
  | .seek _ _ _ => .seek
  | .step _ _ _ _ => .step
  | .stepin _ _ _ _ => .stepIn
  | .stepout _ _ _ _ => .stepOut
  | .rdsec _ _ _ => .readSector
  | .wrsec _ _ _ => .writeSector
  | .rdaddr _ => .readAddress
  | .forceint _ _ _ => .forceInterrupt
  | .rdtrk _ => .readTrack
  | .wrtrk _ => .writeTrack

/-- Why a byte sequence is no command: a command is exactly one byte (R90), so there must be one. -/
inductive DecodeError where
  | noCommandByte
deriving DecidableEq, Repr

/-- The decoder on a byte sequence: one byte is consumed (R90); an empty sequence is rejected by name. -/
def decodeBytes : List Byte → Except DecodeError (Instr × List Byte)
  | [] => .error .noCommandByte
  | v :: rest => .ok (decode v, rest)

/-- The bytes of an instruction whose bits are `w`, of which the table gives `nbits`: one byte (R90). -/
def tableBytes (nbits w : Nat) : List Byte := [BitVec.ofNat 8 (w % 2 ^ nbits)]

/-- What the decoder reads from an instruction numbered as the opcode table numbers it. No command is longer than one
byte (R90), so more than 8 bits are refused. -/
def decodeTableWord (nbits w : Nat) : Option Instr :=
  if 8 < nbits then none
  else
    match decodeBytes (tableBytes nbits w) with
    | .ok (i, _) => some i
    | .error _ => none

end Sys2Proof
end

