-- ==== Sys2Proof/Machine/State.lean ====
section
/-! DEFINITION. The state of the disc subsystem (spec/10_state.md R20 to R47), the events that drive it
(spec/00_scope.md R12), the reasons a step can stop, and the state after reset (R50). -/

namespace Sys2Proof.Machine

/-- The sequencer phase (R28). `completing` is transient: no state between two events has it. -/
inductive Phase where
  | idle | spinUp | seeking | settling | transferPrepare | transferByte | completing
deriving DecidableEq, Repr, Inhabited

/-- `activeCommandClass` (R29). Read Track has no class of its own; `forceInterrupt` marks a pending deferred interrupt. -/
inductive CommandClass where
  | none | typeI | typeIIRead | typeIIWrite | readAddress | writeTrack | forceInterrupt
deriving DecidableEq, Repr, Inhabited

/-- The states of the Write Track scan (`wtState`, R37). -/
inductive ScanState where
  | scan | id | data
deriving DecidableEq, Repr, Inhabited

/-- A recording density (R46, R47). -/
inductive Density where
  | single | double
deriving DecidableEq, Repr, Inhabited

/-- The number of a drive unit, 0 or 1 (R40). -/
inductive DriveNo where
  | drive0 | drive1
deriving DecidableEq, Repr, Inhabited

/-- The number of a head, 0 or 1 (spec/00_scope.md R11). -/
inductive Head where
  | side0 | side1
deriving DecidableEq, Repr, Inhabited

/-- `tracksPerDisk`: 40 or 80 (R42). -/
inductive TracksPerDisk where
  | forty | eighty
deriving DecidableEq, Repr, Inhabited

/-- One thing for each drive unit. -/
structure PerDrive (α : Type) where
  drive0 : α
  drive1 : α
deriving DecidableEq, Repr

/-- The host-visible registers and the two output lines (R21 to R26). -/
structure Registers where
  /-- `CMD`: the last command byte written (R21). -/
  cmd : Byte
  /-- `STATUS` (R22); its bits are named in Machine/Flags.lean. -/
  status : Byte
  /-- `TRACK` (R23). -/
  track : Byte
  /-- `SECTOR`: a 0-based sector number (R24). -/
  sector : Byte
  /-- `DATA` (R25). -/
  data : Byte
  /-- The interrupt request line (R26). -/
  intrq : Bool
  /-- The data request line (R26). -/
  drq : Bool
deriving DecidableEq, Repr

/-- The sequencer position (R27) with the confusion flag (R33). -/
structure Sequencer where
  phase : Phase
  activeCommandClass : CommandClass
  /-- A mathematical integer; negative just after an overshooting poll (R34). -/
  cyclesRemaining : Int
  confusion : Bool
deriving DecidableEq, Repr

/-- The latched command fields (R31). -/
structure LatchedFields where
  cmdKind : CmdKind
  /-- h, suppress spin-up. -/
  hFlag : Bool
  /-- v, verify. -/
  verifyFlag : Bool
  /-- The step-rate selector, 0..3. -/
  stepRateSel : Nat
  /-- m, multi-sector. -/
  multiSectorFlag : Bool
  /-- e, settle before transfer. -/
  settleFlag : Bool
deriving DecidableEq, Repr

/-- The transfer context (R35): the geometry latched at prepare and the position in the transfer. -/
structure Transfer where
  drive : DriveNo
  head : Head
  sectorCount : Nat
  sectorSize : Nat
  base : Nat
  offset : Nat
  byteCountRemaining : Nat
deriving DecidableEq, Repr

/-- The Write Track sub-state (R37). -/
structure WriteTrackScan where
  state : ScanState
  /-- Bytes of the ID field collected so far, 0..3. -/
  idIndex : Nat
  idSeen : Bool
  sectorSize : Nat
deriving DecidableEq, Repr

/-- A drive unit (R40 to R44). -/
structure DriveUnit where
  trackPosition : Nat
  tracksPerDisk : TracksPerDisk
  headLoaded : Bool
  doorClosed : Bool
  writeProtected : Bool
  available : Bool
  motorSpinDownRemaining : Nat
deriving DecidableEq, Repr

/-- The board-selection inputs (R46). -/
structure BoardSelection where
  selDrive : DriveNo
  selHead : Head
  selDensity : Density
deriving DecidableEq, Repr

/-- Bytes by offset in one canonical form: offsets strictly rising. An unlisted offset holds no value (entry 10). -/
abbrev Memory := List Host.Cell

/-- What `geometry` answers for a track (spec/20_memory.md R66). `sectorCount` is at most 255 by its type (93 U15). -/
structure Geometry where
  sectorCount : Fin 256
  sectorSize : Nat
  baseOffset : Nat
deriving DecidableEq, Repr

/-- One side of an image: its track table (R47), as pairs of track and geometry of which the first match counts, and its
byte space (spec/20_memory.md R60). -/
structure ImageSide where
  tracks : List (Nat × Geometry)
  bytes : Memory
deriving DecidableEq, Repr

/-- The DiskImage collaborator's state for one drive (R47, spec/20_memory.md R66). -/
structure DiskImage where
  isOpen : Bool
  isWriteProtected : Bool
  mediaDensity : Density
  /-- The bias of offset 2: `true` is 1 (spec/20_memory.md R64). -/
  sectorBias : Bool
  side0 : ImageSide
  side1 : ImageSide
deriving DecidableEq, Repr

/-- The four register offsets, 0 to 3 in this order (spec/20_memory.md R60). -/
inductive HostRegister where
  | command | track | sector | data
deriving DecidableEq, Repr

/-- A change of a collaborator input (spec/70_reset_and_hazards.md R313). -/
inductive EnvChange where
  | selectDrive (d : DriveNo)
  | selectHead (h : Head)
  | selectDensity (density : Density)
  | setDoor (d : DriveNo) (closed : Bool)
  | setDriveWriteProtect (d : DriveNo) (on : Bool)
  | setAvailable (d : DriveNo) (on : Bool)
  /-- `position` is where the environment puts the head if the change leaves it out of range (R42). -/
  | setTracksPerDisk (d : DriveNo) (tracks : TracksPerDisk) (position : Nat)
  /-- Media is inserted, or the image's whole contents change. -/
  | insertMedia (d : DriveNo) (image : DiskImage)
  | ejectMedia (d : DriveNo)
  | setImageOpen (d : DriveNo) (on : Bool)
  | setImageWriteProtect (d : DriveNo) (on : Bool)
  | setMediaDensity (d : DriveNo) (density : Density)
  | setSectorBias (d : DriveNo) (one : Bool)
deriving DecidableEq, Repr

/-- One atomic event (spec/00_scope.md R12). -/
inductive Event where
  | hostRead (reg : HostRegister)
  | hostWrite (reg : HostRegister) (v : Byte)
  | poll (n : Nat)
  | indexPulse
  | environment (change : EnvChange)
  | reset
deriving DecidableEq, Repr

/-- The feedback signals of a drive (spec/40_drive_unit.md R132). -/
inductive Signal where
  | motorSpinning | overstep
deriving DecidableEq, Repr

/-- The model's own fields: what the outside world sends and receives. -/
structure Bench where
  /-- The events still to happen, first one first (entry 1). -/
  inputs : List Event
  /-- The byte the latest event returned, if it was a host read (entry 23). -/
  readData : Option Byte
  /-- The feedback signals the latest event sent, first one first (entry 22). -/
  signals : List Signal
  /-- How many free values have been drawn (entry 9). -/
  freeCount : Nat
deriving DecidableEq, Repr

/-- The machine's state. -/
structure State where
  cfg : Config
  regs : Registers
  seq : Sequencer
  latch : LatchedFields
  /-- The current direction of Step (R32). -/
  stepDirection : StepDirection
  /-- The sector number passing under the head (R36). -/
  rotatingSectorCounter : Nat
  xfer : Transfer
  wt : WriteTrackScan
  drives : PerDrive DriveUnit
  board : BoardSelection
  disks : PerDrive DiskImage
  io : Bench
deriving DecidableEq, Repr

/-- Why a step stops with a fault. Every one is a broken precondition of the host or the environment, or a state no run
reaches; the spec gives no effect to any of them. -/
inductive Fault where
  /-- Raised by a command other than Force Interrupt written while busy (R310). Safe: the real effect is undefined. -/
  | commandWriteWhileBusy
  /-- Raised by a write of TRACK while busy (R310). Safe. -/
  | trackWriteWhileBusy
  /-- Raised by a write of SECTOR while busy (R310). Safe. -/
  | sectorWriteWhileBusy
  /-- Raised by an index pulse while the motor is not marked spinning (R254: it cannot occur). Safe. -/
  | indexPulseMotorStopped
  /-- Raised by a change of tracksPerDisk that leaves the head out of range (R42, 93 U18). Safe. -/
  | headOutOfRange
  /-- Raised by a poll or a phase entry whose phase, class and kind do not belong together, which no run reaches
  (R28, R30). Safe. -/
  | impossibleSequencerPosition
deriving DecidableEq, Repr

/-- Why a step is refused. -/
inductive Refusal where
  /-- Raised by an arm of `exec` whose instruction has no meaning yet; no arm does. Safe. -/
  | notModelled (mnemonic : String)
  /-- Raised by `Poll(0)`: n is at least 1 (R146, 93 U25). Safe. -/
  | pollOfNoCycles
deriving DecidableEq, Repr

/-- The outcome of one event. -/
abbrev Result := Host.Outcome State Fault Refusal

/-- A drive unit at power-on: the spec's reset values (R50), and entries 6 and 7 for the position and the sensors. -/
def DriveUnit.powerOn : DriveUnit :=
  { trackPosition := 0, tracksPerDisk := .eighty, headLoaded := false, doorClosed := false, writeProtected := false,
    available := false, motorSpinDownRemaining := 0 }

/-- An empty side: no track, no byte. -/
def ImageSide.empty : ImageSide := { tracks := [], bytes := [] }

/-- No media in the drive (entry 7). -/
def DiskImage.absent : DiskImage :=
  { isOpen := false, isWriteProtected := false, mediaDensity := .single, sectorBias := false, side0 := .empty,
    side1 := .empty }

/-- The machine right after reset, at power-on: the table of R50, with the values the log names where the table says
"unspecified" or "environment input" (entries 3 to 7, 9, 22, 23). -/
def State.reset : State :=
  { cfg := .testVectors
    regs := { cmd := 0, status := 0, track := 0, sector := 0, data := 0, intrq := false, drq := false }
    seq := { phase := .idle, activeCommandClass := .none, cyclesRemaining := 0, confusion := false }
    latch := { cmdKind := .restore, hFlag := false, verifyFlag := false, stepRateSel := 0, multiSectorFlag := false,
               settleFlag := false }
    stepDirection := .inward
    rotatingSectorCounter := 0
    xfer := { drive := .drive0, head := .side0, sectorCount := 0, sectorSize := 0, base := 0, offset := 0,
              byteCountRemaining := 0 }
    wt := { state := .scan, idIndex := 0, idSeen := false, sectorSize := 0 }
    drives := { drive0 := .powerOn, drive1 := .powerOn }
    board := { selDrive := .drive0, selHead := .side0, selDensity := .single }
    disks := { drive0 := .absent, drive1 := .absent }
    io := { inputs := [], readData := none, signals := [], freeCount := 0 } }

end Sys2Proof.Machine
end

