-- ==== Sys2Proof/Machine/Flags.lean ====
section
/-! DEFINITION. The status bits (spec/10_state.md R22), the two output lines (R26) and every rule that sets or clears them
outside the commands themselves. -/

namespace Sys2Proof.Machine

/-- Bit 0: Busy. -/
abbrev busyBit : Nat := 0
/-- Bit 1: the synthetic index pulse during Type I, Data Request during Type II and III. -/
abbrev requestBit : Nat := 1
/-- Bit 2, Type I: Track00. -/
abbrev track00Bit : Nat := 2
/-- Bit 2, Type II and III: Lost Data. -/
abbrev lostDataBit : Nat := 2
/-- Bit 3: CRC Error, always clear. -/
abbrev crcErrorBit : Nat := 3
/-- Bit 4: Seek Error (Type I) or Record Not Found (Type II and III); one bit (R261). -/
abbrev errorBit : Nat := 4
/-- Bit 5, Type I: spin-up complete. -/
abbrev spinUpBit : Nat := 5
/-- Bit 5, Type II and III: record type. -/
abbrev recordTypeBit : Nat := 5
/-- Bit 6: Write Protect. -/
abbrev writeProtectBit : Nat := 6
/-- Bit 7: Motor on. -/
abbrev motorBit : Nat := 7

/-- A byte with bit `i` set to `b`: `v[i] <- b` (spec/00_scope.md R13, R15). -/
def putBit (v : Byte) (i : Nat) (b : Bool) : Byte :=
  if b then v ||| BitVec.twoPow 8 i else v &&& ~~~(BitVec.twoPow 8 i)

/-- `STATUS[i]`. -/
def State.statusBit (s : State) (i : Nat) : Bool := s.regs.status.getLsbD i

/-- `STATUS[i] <- b`. -/
def State.setStatusBit (s : State) (i : Nat) (b : Bool) : State :=
  { s with regs.status := putBit s.regs.status i b }

/-- `raise <Exception>(info)` as this hardware has it: `setError(bit)` sets one status bit and diverts nothing
(spec/00_scope.md R15, spec/60_exceptions.md R260). -/
def State.setError (s : State) (bit : Nat) : State := s.setStatusBit bit true

/-- `StatusInit`: `STATUS[6:1] <- 0; DRQ <- 0` (spec/41_sequencer.md R141). -/
def State.statusInit (s : State) : State :=
  { s with regs.status := s.regs.status &&& 0x81, regs.drq := false }

/-- `SetDRQ` (spec/41_sequencer.md R152). -/
def State.setDrq (s : State) : State :=
  { s with regs.drq := true, regs.status := putBit s.regs.status requestBit true }

/-- `DRQ <- 0; STATUS[1] <- 0`: the request is over, serviced or not (R204, R241). -/
def State.withdrawDrq (s : State) : State :=
  { s with regs.drq := false, regs.status := putBit s.regs.status requestBit false }

/-- `ClearDRQ`: acts only when `DRQ == 1` (spec/41_sequencer.md R153). -/
def State.clearDrq (s : State) : State := if s.regs.drq then s.withdrawDrq else s

/-- `LostDataCheck` (spec/41_sequencer.md R155). -/
def State.lostDataCheck (s : State) : State := if s.regs.drq then s.setError lostDataBit else s

/-- `INTRQ <- b` (spec/60_exceptions.md R270). -/
def State.setIntrq (s : State) (b : Bool) : State := { s with regs.intrq := b }

/-- The toggle of a status read: bit 1 flips while a Type I command is active (spec/20_memory.md R61, R38). -/
def State.toggleIndexBit (s : State) : State :=
  if s.seq.activeCommandClass = .typeI then s.setStatusBit requestBit (!s.statusBit requestBit) else s

end Sys2Proof.Machine
end

