-- ==== Sys2Proof/Machine/Ops.lean ====
section
/-! DEFINITION. The named operations: the image memory, the per-drive accessors, the DiskImage contract
(spec/20_memory.md R66), free values, and `Complete` (spec/41_sequencer.md R150), the one operation by which every command
ends (the counterpart of trap entry, spec/60_exceptions.md R275). -/

namespace Sys2Proof.Machine

/-! ## Image memory -/

/-- The byte at an offset; an unlisted offset holds no value (entry 10). -/
def Memory.read : Memory → Nat → Option Byte
  | [], _ => none
  | (a, b) :: m, x => if a = x then some b else Memory.read m x

/-- Write one byte, keeping the offsets strictly rising. -/
def Memory.write : Memory → Nat → Byte → Memory
  | [], x, v => [(x, v)]
  | (a, b) :: m, x, v =>
    if x < a then (x, v) :: (a, b) :: m
    else if x = a then (x, v) :: m
    else (a, b) :: Memory.write m x v

/-- The canonical form: offsets strictly rising. (No entry can equal what an unlisted offset reads as: no value.) -/
def Memory.wf : Memory → Bool
  | [] => true
  | [_] => true
  | (a, _) :: (b, w) :: m => decide (a < b) && Memory.wf ((b, w) :: m)

/-- The canonical memory holding the cells of a list, a later cell winning over an earlier one at the same offset. -/
def Memory.ofCells (cells : List Host.Cell) : Memory :=
  cells.foldl (fun m c => Memory.write m c.1 c.2) []

/-! ## Accessors by drive and side -/

/-- The entry of drive `d`. -/
def PerDrive.get {α : Type} (p : PerDrive α) : DriveNo → α
  | .drive0 => p.drive0
  | .drive1 => p.drive1

/-- Replace the entry of drive `d`. -/
def PerDrive.set {α : Type} (p : PerDrive α) (d : DriveNo) (a : α) : PerDrive α :=
  match d with
  | .drive0 => { p with drive0 := a }
  | .drive1 => { p with drive1 := a }

/-- The record `drive[d]`. -/
def State.drive (s : State) (d : DriveNo) : DriveUnit := s.drives.get d

/-- The record `drive[selDrive]`, the only one the controller's rules touch (spec/60_exceptions.md R282). -/
def State.selected (s : State) : DriveUnit := s.drive s.board.selDrive

/-- Apply a function to the record `drive[d]`. -/
def State.updateDrive (s : State) (d : DriveNo) (f : DriveUnit → DriveUnit) : State :=
  { s with drives := s.drives.set d (f (s.drives.get d)) }

/-- Run a drive operation on `drive[selDrive]`, recording the feedback signals it sends (entry 22). -/
def State.driveOperation (s : State) (f : DriveUnit → DriveUnit × List Signal) : State :=
  { s with
    drives := s.drives.set s.board.selDrive (f s.selected).1
    io.signals := s.io.signals ++ (f s.selected).2 }

/-- The image in drive `d`. -/
def State.disk (s : State) (d : DriveNo) : DiskImage := s.disks.get d

/-- The side of an image under head `h`. -/
def DiskImage.side (i : DiskImage) : Head → ImageSide
  | .side0 => i.side0
  | .side1 => i.side1

/-- Apply a function to the image in drive `d`. -/
def State.updateDisk (s : State) (d : DriveNo) (f : DiskImage → DiskImage) : State :=
  { s with disks := s.disks.set d (f (s.disks.get d)) }

/-! ## The DiskImage contract -/

/-- The first geometry a track table lists for track `t`. -/
def lookupTrack : List (Nat × Geometry) → Nat → Option Geometry
  | [], _ => none
  | (u, g) :: rest, t => if u = t then some g else lookupTrack rest t

/-- `geometry(d, h, t)`, partial (spec/20_memory.md R66). -/
def State.geometry (s : State) (d : DriveNo) (h : Head) (t : Nat) : Option Geometry :=
  lookupTrack ((s.disk d).side h).tracks t

/-- The byte the image holds at an offset, if it holds one. -/
def State.imageByte (s : State) (d : DriveNo) (h : Head) (offset : Nat) : Option Byte :=
  Memory.read ((s.disk d).side h).bytes offset

/-- Draw a free byte. -/
def State.drawByte (s : State) : Byte × State :=
  (Config.freeByte s.io.freeCount, { s with io.freeCount := s.io.freeCount + 1 })

/-- `readByte(d, h, offset)`: the image's byte, or a free one where the image holds none (R66, 93 U14, U16; entry 10). -/
def State.readByte (s : State) (d : DriveNo) (h : Head) (offset : Nat) : Byte × State :=
  match s.imageByte d h offset with
  | some b => (b, s)
  | none => s.drawByte

/-- A side with one byte written. -/
def ImageSide.writeByte (side : ImageSide) (offset : Nat) (v : Byte) : ImageSide :=
  { side with bytes := Memory.write side.bytes offset v }

/-- An image with one byte written. -/
def DiskImage.writeByte (i : DiskImage) (h : Head) (offset : Nat) (v : Byte) : DiskImage :=
  match h with
  | .side0 => { i with side0 := i.side0.writeByte offset v }
  | .side1 => { i with side1 := i.side1.writeByte offset v }

/-- `writeByte(d, h, offset, v)` (R66). -/
def State.writeByte (s : State) (d : DriveNo) (h : Head) (offset : Nat) (v : Byte) : State :=
  s.updateDisk d (fun i => i.writeByte h offset v)

/-! ## Assignments to one state element (spec/00_scope.md R15) -/

/-- `CMD <- v`. -/
def State.setCommand (s : State) (v : Byte) : State := { s with regs.cmd := v }

/-- `TRACK <- v`. -/
def State.setTrack (s : State) (v : Byte) : State := { s with regs.track := v }

/-- `SECTOR <- v`. -/
def State.setSector (s : State) (v : Byte) : State := { s with regs.sector := v }

/-- `DATA <- v`. -/
def State.setData (s : State) (v : Byte) : State := { s with regs.data := v }

/-- Latch the fields of a command (spec/10_state.md R31). -/
def State.setLatch (s : State) (l : LatchedFields) : State := { s with latch := l }

/-- `stepDirection <- dir`. -/
def State.setDirection (s : State) (dir : StepDirection) : State := { s with stepDirection := dir }

/-- `phase <- p`. -/
def State.setPhase (s : State) (p : Phase) : State := { s with seq.phase := p }

/-- `activeCommandClass <- c`. -/
def State.setClass (s : State) (c : CommandClass) : State := { s with seq.activeCommandClass := c }

/-- `confusion <- b`. -/
def State.setConfusion (s : State) (b : Bool) : State := { s with seq.confusion := b }

/-- `cyclesRemaining <- n`. -/
def State.setCycles (s : State) (n : Int) : State := { s with seq.cyclesRemaining := n }

/-- `byteCountRemaining <- n`. -/
def State.setByteCount (s : State) (n : Nat) : State := { s with xfer.byteCountRemaining := n }

/-- `rotatingSectorCounter <- n`. -/
def State.setRotating (s : State) (n : Nat) : State := { s with rotatingSectorCounter := n }

/-- Replace the Write Track sub-state. -/
def State.setScan (s : State) (w : WriteTrackScan) : State := { s with wt := w }

/-! ## Sequencer position and completion -/

/-- `phase <- p; cyclesRemaining <- n`: enter a timed phase (spec/41_sequencer.md R145). -/
def State.enterPhase (s : State) (p : Phase) (n : Int) : State := (s.setPhase p).setCycles n

/-- `Complete(raise)` (spec/41_sequencer.md R150): every end of a command. `completing` is entered and left inside the event. -/
def State.complete (s : State) (raise : Bool) : State :=
  let s := s.setPhase .completing
  let s := s.setStatusBit busyBit false
  let s := s.setClass .none
  let s := s.updateDrive s.board.selDrive (fun D => { D with motorSpinDownRemaining := s.cfg.spinDownTime })
  let s := if raise then s.setIntrq true else s
  s.setPhase .idle

/-- Take an error (spec/60_exceptions.md R260, R275): set the error's status bit and end the command with `INTRQ` raised. -/
def State.abort (s : State) (bit : Nat) : State := (s.setError bit).complete true

end Sys2Proof.Machine
end

