-- ==== Sys2Proof/Machine/Operands.lean ====
section
/-! DEFINITION. Operands: what a command byte latches (spec/30_encoding.md R97), the step rate (R98), the register operands
as the rules sample them (R99, spec/20_memory.md R76), image addresses (R67), the sector bias (R64) and the size codes
(spec/44_type3_commands.md R222). -/

namespace Sys2Proof.Machine

/-- The fields a Type I command latches (R97). -/
def latchTypeI (k : CmdKind) (h v : Bool) (r : Nat) : LatchedFields :=
  { cmdKind := k, hFlag := h, verifyFlag := v, stepRateSel := r, multiSectorFlag := false, settleFlag := false }

/-- The fields a Type II command latches (R97). -/
def latchTypeII (k : CmdKind) (m e : Bool) : LatchedFields :=
  { cmdKind := k, hFlag := false, verifyFlag := false, stepRateSel := 0, multiSectorFlag := m, settleFlag := e }

/-- The fields a Type III command latches (R97). -/
def latchTypeIII (k : CmdKind) : LatchedFields :=
  { cmdKind := k, hFlag := false, verifyFlag := false, stepRateSel := 0, multiSectorFlag := false, settleFlag := false }

/-- `stepRateCycles[r]` (R98, spec/00_scope.md R7). -/
def stepRateCycles (c : Config) (r : Nat) : Nat :=
  match r % 4 with
  | 0 => c.stepRate0
  | 1 => c.stepRate1
  | 2 => c.stepRate2
  | _ => c.stepRate3

/-- `|a - b|` on naturals (spec/00_scope.md R14). -/
def absDiff (a b : Nat) : Nat := (a - b) + (b - a)

/-- The wait of a move: `tracksPassed * stepRateCycles[stepRateSel] + (VERIFY_TIME if verifyFlag else 0)`
(spec/42_type1_commands.md R180). -/
def seekCycles (s : State) (tracksPassed : Nat) : Nat :=
  tracksPassed * stepRateCycles s.cfg s.latch.stepRateSel + if s.latch.verifyFlag then s.cfg.verifyTime else 0

/-- The image offset of the first byte of sector `sector` for sectors of `size` bytes from `base` (R67). -/
def sectorOffset (base sector size : Nat) : Nat := base + sector * size

/-- `sectorBias(selDrive)` as the byte 0 or 1 (R64). -/
def sectorBias (s : State) : Byte := if (s.disk s.board.selDrive).sectorBias then 1 else 0

/-- The number of a head as a byte (R221). -/
def headByte : Head → Byte
  | .side0 => 0
  | .side1 => 1

/-- `sizeCode(n)` (R222). -/
def sizeCode (n : Nat) : Byte :=
  if n = 128 then 0 else if n = 256 then 1 else if n = 512 then 2 else if n = 1024 then 3 else Config.sizeCodeOther n

/-- `sizeOf(c) = 128 * 2^(c mod 4)` (R222). -/
def sizeOfCode (c : Byte) : Nat := 128 * 2 ^ (c.toNat % 4)

/-- The density check's condition: the selected density differs from the media's (R180, R154). -/
def densityMismatch (s : State) (d : DriveNo) : Bool := decide (s.board.selDensity ≠ (s.disk d).mediaDensity)

/-- The condition under which a Type I command takes the confusion sub-phase: media is present and its density differs
(spec/42_type1_commands.md R180, R187). -/
def seekConfused (s : State) : Bool :=
  (s.disk s.board.selDrive).isOpen && densityMismatch s s.board.selDrive

end Sys2Proof.Machine
end

