-- ==== Sys2Proof/Machine/Drive.lean ====
section
/-! DEFINITION. The drive unit's operations (spec/40_drive_unit.md). An operation answers the new record and the feedback
signals it sends (R132). -/

namespace Sys2Proof.Machine

/-- The value of `tracksPerDisk` (spec/10_state.md R42). -/
def trackCount : TracksPerDisk → Nat
  | .forty => 40
  | .eighty => 80

/-- `tracksPerDisk - 1`: the inner boundary. -/
def DriveUnit.lastTrack (D : DriveUnit) : Nat := trackCount D.tracksPerDisk - 1

/-- `stepSize(D)`: 2 on 40-track media, else 1 (R129). -/
def DriveUnit.stepSize (D : DriveUnit) : Nat :=
  match D.tracksPerDisk with
  | .forty => 2
  | .eighty => 1

/-- `loadHead(D)` (R121): loads the head if the door is closed and it is not loaded; always signals the motor. -/
def DriveUnit.loadHead (D : DriveUnit) : DriveUnit × List Signal :=
  (if D.doorClosed && !D.headLoaded then { D with headLoaded := true } else D, [.motorSpinning])

/-- `unloadHead(D)` (R122). -/
def DriveUnit.unloadHead (D : DriveUnit) : DriveUnit := { D with headLoaded := false }

/-- `stepIn(D)` (R123): one step inward, clamped at the inner boundary; Overstep only when already there. -/
def DriveUnit.stepIn (D : DriveUnit) : DriveUnit × List Signal :=
  let loaded := D.loadHead
  if loaded.1.trackPosition = loaded.1.lastTrack then (loaded.1, loaded.2 ++ [.overstep])
  else
    ({ loaded.1 with trackPosition := min (loaded.1.trackPosition + loaded.1.stepSize) loaded.1.lastTrack }, loaded.2)

/-- `stepOut(D)` (R124): one step outward, clamped at track 0; Overstep only when already there. -/
def DriveUnit.stepOut (D : DriveUnit) : DriveUnit × List Signal :=
  let loaded := D.loadHead
  if loaded.1.trackPosition = 0 then (loaded.1, loaded.2 ++ [.overstep])
  else ({ loaded.1 with trackPosition := loaded.1.trackPosition - loaded.1.stepSize }, loaded.2)

/-- One step in a direction. -/
def DriveUnit.stepOnce (D : DriveUnit) (dir : StepDirection) : DriveUnit × List Signal :=
  match dir with
  | .inward => D.stepIn
  | .outward => D.stepOut

/-- `stepMany(D, dir, n)` (R130). -/
def DriveUnit.stepMany (D : DriveUnit) (dir : StepDirection) : Nat → DriveUnit × List Signal
  | 0 => (D, [])
  | n + 1 =>
    let one := D.stepOnce dir
    let rest := one.1.stepMany dir n
    (rest.1, one.2 ++ rest.2)

/-- Step out while the head is not at track 0, at most `fuel` times. -/
def DriveUnit.stepOutUntilZero (D : DriveUnit) : Nat → DriveUnit × List Signal
  | 0 => (D, [])
  | fuel + 1 =>
    if D.trackPosition = 0 then (D, [])
    else
      let one := D.stepOut
      let rest := one.1.stepOutUntilZero fuel
      (rest.1, one.2 ++ rest.2)

/-- `restoreHead(D)` (R131): step out repeatedly until track 0; each step moves at least one position, so the position
itself bounds the number of steps. -/
def DriveUnit.restoreHead (D : DriveUnit) : DriveUnit × List Signal := D.stepOutUntilZero D.trackPosition

/-- `isTrack00(D)` (R125). -/
def DriveUnit.isTrack00 (D : DriveUnit) : Bool := decide (D.trackPosition = 0)

/-- `isWriteProtected(D)`: the drive's sensor (R126). -/
def DriveUnit.isWriteProtected (D : DriveUnit) : Bool := D.writeProtected

/-- The spin-down countdown after `n` cycles, never below 0 (spec/41_sequencer.md R151). -/
def DriveUnit.spinDown (D : DriveUnit) (n : Nat) : DriveUnit :=
  { D with motorSpinDownRemaining := D.motorSpinDownRemaining - n }

end Sys2Proof.Machine
end

