-- ==== Sys2Proof/Machine/Seeking.lean ====
section
/-! DEFINITION. The phase Seeking: its entry with the five commands' moves, and its expiry
(spec/42_type1_commands.md R180 to R187). -/

namespace Sys2Proof.Machine

/-- What a command's own rule answers inside `EnterSeeking`: the target, the tracks passed, and the state with the head
moved. -/
structure Move where
  target : Byte
  tracksPassed : Nat
  state : State

/-- RESTORE's move (R181): target 0, the head stepped out to position 0 whatever TRACK held. -/
def restoreMove (s : State) : Move :=
  { target := 0, tracksPassed := s.regs.track.toNat, state := s.driveOperation DriveUnit.restoreHead }

/-- SEEK's move (R182): the target is DATA; one step for each track passed. -/
def seekMove (s : State) : Move :=
  let current := s.regs.track.toNat
  let target := s.regs.data.toNat
  let passed := absDiff target current
  { target := s.regs.data
    tracksPassed := passed
    state :=
      if current < target then s.driveOperation (fun D => D.stepMany .inward passed)
      else if target < current then s.driveOperation (fun D => D.stepMany .outward passed)
      else s }

/-- STEP's move (R183): one step in the current direction; TRACK wraps modulo 256. -/
def stepMove (s : State) : Move :=
  match s.stepDirection with
  | .inward => { target := s.regs.track + 1, tracksPassed := 1, state := s.driveOperation DriveUnit.stepIn }
  | .outward => { target := s.regs.track - 1, tracksPassed := 1, state := s.driveOperation DriveUnit.stepOut }

/-- STEPIN's move (R184). -/
def stepInMove (s : State) : Move :=
  { target := s.regs.track + 1, tracksPassed := 1, state := s.driveOperation DriveUnit.stepIn }

/-- STEPOUT's move (R185). -/
def stepOutMove (s : State) : Move :=
  { target := s.regs.track - 1, tracksPassed := 1, state := s.driveOperation DriveUnit.stepOut }

/-- The move of the latched command; none for a command that is not Type I. -/
def latchedMove (s : State) : Option Move :=
  match s.latch.cmdKind with
  | .restore => some (restoreMove s)
  | .seek => some (seekMove s)
  | .step => some (stepMove s)
  | .stepIn => some (stepInMove s)
  | .stepOut => some (stepOutMove s)
  | .readSector | .writeSector | .readAddress | .forceInterrupt | .readTrack | .writeTrack => none

/-- TRACK takes the target and the wait is loaded (R180). -/
def Move.finish (m : Move) : State :=
  (m.state.setTrack m.target).setCycles (seekCycles m.state m.tracksPassed : Int)

/-- `EnterSeeking` (R180): phase Seeking, STATUS[5] set; then the confusion sub-phase on a density mismatch (R187), else
the whole move at once. -/
def enterSeeking (s : State) : Result :=
  let s := (s.setPhase .seeking).setStatusBit spinUpBit true
  if seekConfused s then .next ((s.setConfusion true).setCycles (s.cfg.confusionTime : Int))
  else
    match latchedMove s with
    | some m => .next m.finish
    | none => .fault .impossibleSequencerPosition

/-- `SeekExpiry` (R186). -/
def seekExpiry (s : State) : State :=
  let D := s.selected
  let s := if s.seq.confusion then s.setError errorBit else s
  let s := s.setStatusBit track00Bit (xor D.isTrack00 s.cfg.track00Invert)
  let s := s.setStatusBit writeProtectBit D.isWriteProtected
  s.complete true

end Sys2Proof.Machine
end

