-- ==== Sys2Proof/Machine/SectorTransfer.lean ====
section
/-! DEFINITION. The sector transfers of Read Sector and Write Sector: prepare, byte expiries and end of sector
(spec/43_type2_commands.md R201 to R205). -/

namespace Sys2Proof.Machine

/-- `cyclesRemaining <- BYTE_TIME`: wait for the next byte (spec/41_sequencer.md R156). -/
def State.awaitByte (s : State) : State := s.setCycles (s.cfg.byteTime : Int)

/-- `phase <- TransferByte; cyclesRemaining <- BYTE_TIME`. -/
def State.beginTransfer (s : State) : State := s.enterPhase .transferByte (s.cfg.byteTime : Int)

/-- Point the transfer at the sector SECTOR names, for sectors of `size` bytes, with a whole sector to move (R201, R202, R205;
spec/20_memory.md R67; spec/44_type3_commands.md R242). -/
def State.aimAt (s : State) (size : Nat) : State :=
  { s with xfer.byteCountRemaining := size, xfer.offset := sectorOffset s.xfer.base s.regs.sector.toNat size }

/-- The same for the sector size latched at prepare. -/
def State.aimAtSector (s : State) : State := s.aimAt s.xfer.sectorSize

/-- The byte at `xferOffset` has been moved: `xferOffset + 1`, `byteCountRemaining - 1` (R203, R204, R244). -/
def State.advanceTransfer (s : State) : State :=
  { s with
    xfer.offset := s.xfer.offset + 1
    xfer.byteCountRemaining := s.xfer.byteCountRemaining - 1 }

/-- `SECTOR >= xferSectorCount`: the register is past the track's last sector (R205, R240, R244). -/
def State.sectorPastTrack (s : State) : Bool := decide (s.xfer.sectorCount ≤ s.regs.sector.toNat)

/-- `PrepareReadSector` (R201). -/
def prepareReadSector (s : State) : State := s.aimAtSector.beginTransfer

/-- `PrepareWriteSector` (R202). -/
def prepareWriteSector (s : State) : State := s.aimAtSector.setDrq.beginTransfer

/-- `EndOfSector(isWrite)` (R205): increment, then stop if the register has reached the sector count. -/
def endOfSector (isWrite : Bool) (s : State) : State :=
  if !s.latch.multiSectorFlag then s.complete true
  else
    let s := s.setSector (s.regs.sector + 1)
    if s.sectorPastTrack then s.complete true
    else
      let s := s.aimAtSector
      let s := if isWrite then s.setDrq else s
      s.awaitByte

/-- `ReadSectorByte` (R203). -/
def readSectorByte (s : State) : State :=
  let s := s.lostDataCheck
  let read := s.readByte s.xfer.drive s.xfer.head s.xfer.offset
  let s := (read.2.setData read.1).setDrq.advanceTransfer
  if s.xfer.byteCountRemaining = 0 then endOfSector false s else s.awaitByte

/-- `WriteSectorByte` (R204). -/
def writeSectorByte (s : State) : State :=
  let s := s.lostDataCheck.withdrawDrq
  let s := s.writeByte s.xfer.drive s.xfer.head s.xfer.offset s.regs.data
  let s := s.advanceTransfer
  if s.xfer.byteCountRemaining = 0 then endOfSector true s else s.setDrq.awaitByte

end Sys2Proof.Machine
end

