-- ==== Sys2Proof/Machine/TrackTransfer.lean ====
section
/-! DEFINITION. The Type III transfers: the synthesised header of Read Address and the format stream of Write Track
(spec/44_type3_commands.md R220 to R244). -/

namespace Sys2Proof.Machine

/-- `PrepareReadAddress` (R220): six bytes. -/
def prepareReadAddress (s : State) : State := (s.setByteCount 6).beginTransfer

/-- Byte `i` of the header (R221): track, head, rotating sector counter plus one, size code, two placeholders. -/
def addressByte (s : State) (i : Nat) : Byte :=
  match i with
  | 0 => s.regs.track
  | 1 => headByte s.xfer.head
  | 2 => BitVec.ofNat 8 (s.rotatingSectorCounter + 1)
  | 3 => sizeCode s.xfer.sectorSize
  | 4 => s.cfg.crcFirst
  | _ => s.cfg.crcSecond

/-- `ReadAddressByte` (R221); the counter advances at the end, modulo the track's sector count (R223). -/
def readAddressByte (s : State) : State :=
  let s := s.lostDataCheck
  let s := (s.setData (addressByte s (6 - s.xfer.byteCountRemaining))).setDrq
  let s := s.setByteCount (s.xfer.byteCountRemaining - 1)
  if s.xfer.byteCountRemaining = 0 then
    (s.setRotating ((s.rotatingSectorCounter + 1) % s.xfer.sectorCount)).complete true
  else s.awaitByte

/-- `PrepareWriteTrack` (R240): ends at once, with nothing written and no error, if SECTOR is past the track. -/
def prepareWriteTrack (s : State) : State :=
  if s.sectorPastTrack then s.complete true
  else (s.setScan { state := .scan, idIndex := 0, idSeen := false, sectorSize := 0 }).setDrq.beginTransfer

/-- `ScanByte(b)` (R242): 0xFE opens an ID field; 0xFB after a complete ID field opens a data block. -/
def scanByte (b : Byte) (s : State) : State :=
  if b = 0xFE then s.setScan { s.wt with state := .id, idIndex := 0 }
  else if b = 0xFB ∧ s.wt.idSeen = true then
    (s.setScan { s.wt with state := .data }).aimAt s.wt.sectorSize
  else s

/-- `IdByte(b)` (R243): of the four bytes only the fourth, the size code, is used. -/
def idByte (b : Byte) (s : State) : State :=
  if s.wt.idIndex < 3 then s.setScan { s.wt with idIndex := s.wt.idIndex + 1 }
  else s.setScan { s.wt with sectorSize := sizeOfCode b, idSeen := true, state := .scan }

/-- `DataByte(b)` (R244). -/
def dataByte (b : Byte) (s : State) : State :=
  let s := (s.writeByte s.xfer.drive s.xfer.head s.xfer.offset b).advanceTransfer
  if s.xfer.byteCountRemaining = 0 then
    let s := (s.setSector (s.regs.sector + 1)).setScan { s.wt with idSeen := false, state := .scan }
    if s.sectorPastTrack then s.complete true else s
  else s

/-- `WriteTrackByte` (R241): one stream byte is consumed whether or not the host supplied a new one. -/
def writeTrackByte (s : State) : State :=
  let s := s.lostDataCheck.withdrawDrq
  let b := s.regs.data
  let s :=
    match s.wt.state with
    | .scan => scanByte b s
    | .id => idByte b s
    | .data => dataByte b s
  if s.seq.phase = .transferByte then s.setDrq.awaitByte else s

/-- `ReadTrackNoOp` (R230): a no-op completion with Record Not Found. -/
def readTrackNoOp (s : State) : State := s.abort errorBit

end Sys2Proof.Machine
end

