-- ==== Sys2Proof/Machine/Sequencer.lean ====
section
/-! DEFINITION. The phase sequencer (spec/41_sequencer.md): the command write, the entry of a command's own phase, the
checks of DoTransferPrepare, and the clock event Poll. -/

namespace Sys2Proof.Machine

/-- `BeginCommandPhase` (R143): load the head and enter the phase of the command's class. -/
def beginCommandPhase (s : State) : Result :=
  let s := s.driveOperation DriveUnit.loadHead
  match s.seq.activeCommandClass with
  | .typeI => enterSeeking s
  | .typeIIRead | .typeIIWrite =>
    if s.latch.settleFlag then .next (s.enterPhase .settling (s.cfg.settleTime : Int))
    else .next (s.enterPhase .transferPrepare 0)
  | .readAddress | .writeTrack => .next (s.enterPhase .transferPrepare 0)
  | .none | .forceInterrupt => .fault .impossibleSequencerPosition

/-! ## The command write -/

/-- The first part of a command write (R62, R140): CMD takes the byte, the fields are latched, INTRQ falls, confusion and
the result bits of the previous command are cleared. -/
def acceptCommand (i : Instr) (l : LatchedFields) (s : State) : State :=
  ((((s.setCommand (encode i)).setLatch l).setIntrq false).setConfusion false).statusInit

/-- The rest of `CommandWrite` for a command that starts (R140): busy, motor on, and either spin-up or the command's own
phase. -/
def startCommand (cls : CommandClass) (s : State) : Result :=
  let s := (s.setClass cls).setStatusBit busyBit true
  let motorWasOn := s.statusBit motorBit
  let s := s.setStatusBit motorBit true
  if motorWasOn || (decide (cls = .typeI) && s.latch.hFlag) then beginCommandPhase s
  else .next (s.enterPhase .spinUp (s.cfg.spinUpTime : Int))

/-- A command write has a defined meaning only when Idle (R142, R310). -/
def whenIdle (s : State) (k : State → Result) : Result :=
  if s.seq.phase = .idle then k s else .fault .commandWriteWhileBusy

/-! ## Expiries -/

/-- `SpinUpExpiry` (R147). -/
def spinUpExpiry (s : State) : Result := beginCommandPhase (s.setStatusBit spinUpBit true)

/-- `SettlingExpiry` (R148). -/
def settlingExpiry (s : State) : State := s.enterPhase .transferPrepare 0

/-- The commands check 1 applies to: Write Sector and Write Track (R154). -/
def isWriteClass (c : CommandClass) : Bool := decide (c = .typeIIWrite) || decide (c = .writeTrack)

/-- The commands check 5 applies to: Read Sector and Write Sector (R154). -/
def isSectorClass (c : CommandClass) : Bool := decide (c = .typeIIRead) || decide (c = .typeIIWrite)

/-- What the checks of `DoTransferPrepare` (R154) find, the first failure in their order (R273): the status bit to set, or
the geometry of the track. -/
def transferChecks (s : State) : Except Nat Geometry :=
  let d := s.board.selDrive
  if isWriteClass s.seq.activeCommandClass && (s.disk d).isWriteProtected then .error writeProtectBit
  else if !(s.disk d).isOpen then .error errorBit
  else
    match s.geometry d s.board.selHead s.regs.track.toNat with
    | none => .error errorBit
    | some g =>
      if g.sectorCount.val = 0 ∨ g.sectorSize = 0 then .error errorBit
      else if s.cfg.densityCheckOnTransfer && densityMismatch s d then .error errorBit
      else if isSectorClass s.seq.activeCommandClass && decide (g.sectorCount.val ≤ s.regs.sector.toNat) then
        .error errorBit
      else .ok g

/-- Latch drive, head and geometry for the whole command (R154, spec/10_state.md R35). -/
def latchGeometry (g : Geometry) (s : State) : State :=
  { s with
    xfer.drive := s.board.selDrive
    xfer.head := s.board.selHead
    xfer.sectorCount := g.sectorCount.val
    xfer.sectorSize := g.sectorSize
    xfer.base := g.baseOffset }

/-- The `Prepare...` procedure of the active class (R154). -/
def prepareTransfer (s : State) : Result :=
  match s.seq.activeCommandClass with
  | .typeIIRead => .next (prepareReadSector s)
  | .typeIIWrite => .next (prepareWriteSector s)
  | .readAddress => .next (prepareReadAddress s)
  | .writeTrack => .next (prepareWriteTrack s)
  | .none | .typeI | .forceInterrupt => .fault .impossibleSequencerPosition

/-- `DoTransferPrepare` (R154). -/
def doTransferPrepare (s : State) : Result :=
  let s := s.setStatusBit recordTypeBit false
  match transferChecks s with
  | .error bit => .next (s.abort bit)
  | .ok g => prepareTransfer (latchGeometry g s)

/-- `DoTransferByte` (R156). -/
def doTransferByte (s : State) : Result :=
  match s.seq.activeCommandClass with
  | .typeIIRead => .next (readSectorByte s)
  | .typeIIWrite => .next (writeSectorByte s)
  | .readAddress => .next (readAddressByte s)
  | .writeTrack => .next (writeTrackByte s)
  | .none | .typeI | .forceInterrupt => .fault .impossibleSequencerPosition

/-! ## Time -/

/-- `SpinDownTick(n)` (R151), for the selected drive while Idle. -/
def spinDownTick (n : Nat) (s : State) : State :=
  if 0 < s.selected.motorSpinDownRemaining then
    let s := s.updateDrive s.board.selDrive (fun D => D.spinDown n)
    if s.selected.motorSpinDownRemaining = 0 then
      (s.setStatusBit motorBit false).updateDrive s.board.selDrive DriveUnit.unloadHead
    else s
  else s

/-- The expiry of the phase in force (R146). -/
def phaseExpiry (s : State) : Result :=
  match s.seq.phase with
  | .spinUp => spinUpExpiry s
  | .settling => .next (settlingExpiry s)
  | .seeking => .next (seekExpiry s)
  | .transferPrepare => doTransferPrepare s
  | .transferByte => doTransferByte s
  | .idle | .completing => .fault .impossibleSequencerPosition

/-- `Poll(n)`, n >= 1 (R146): at most one expiry, the overshoot discarded (R145). -/
def poll (n : Nat) (s : State) : Result :=
  if n = 0 then .refused .pollOfNoCycles
  else if s.seq.phase = .idle then .next (spinDownTick n s)
  else
    let s := s.setCycles (s.seq.cyclesRemaining - (n : Int))
    if 0 < s.seq.cyclesRemaining then .next s else phaseExpiry s

end Sys2Proof.Machine
end

