-- ==== Sys2Proof/Machine/TypeI.lean ====
section
/-! DEFINITION. The Type I commands (spec/42_type1_commands.md): the event of writing the command byte. The move each makes
on entry to Seeking is in Machine/Seeking.lean. -/

namespace Sys2Proof.Machine

/-- RESTORE (R181, R140). -/
def execRestore (h v : Bool) (r : Nat) (s : State) : Result :=
  whenIdle s fun s => startCommand .typeI (acceptCommand (.restore h v r) (latchTypeI .restore h v r) s)

/-- SEEK (R182, R140). -/
def execSeek (h v : Bool) (r : Nat) (s : State) : Result :=
  whenIdle s fun s => startCommand .typeI (acceptCommand (.seek h v r) (latchTypeI .seek h v r) s)

/-- STEP (R183, R140); `u` has no effect (R93). -/
def execStep (u h v : Bool) (r : Nat) (s : State) : Result :=
  whenIdle s fun s => startCommand .typeI (acceptCommand (.step u h v r) (latchTypeI .step h v r) s)

/-- STEPIN (R184, R140); decoding it sets the step direction (R97). -/
def execStepin (u h v : Bool) (r : Nat) (s : State) : Result :=
  whenIdle s fun s =>
    startCommand .typeI ((acceptCommand (.stepin u h v r) (latchTypeI .stepIn h v r) s).setDirection .inward)

/-- STEPOUT (R185, R140); decoding it sets the step direction (R97). -/
def execStepout (u h v : Bool) (r : Nat) (s : State) : Result :=
  whenIdle s fun s =>
    startCommand .typeI ((acceptCommand (.stepout u h v r) (latchTypeI .stepOut h v r) s).setDirection .outward)

end Sys2Proof.Machine
end

