-- ==== Sys2Proof/Machine/TypeII.lean ====
section
/-! DEFINITION. The Type II commands (spec/43_type2_commands.md): the event of writing the command byte. The transfer each
makes is in Machine/SectorTransfer.lean. -/

namespace Sys2Proof.Machine

/-- RDSEC (R201, R140); bits 3, 1, 0 have no effect (R94). -/
def execRdsec (m e : Bool) (x : Nat) (s : State) : Result :=
  whenIdle s fun s => startCommand .typeIIRead (acceptCommand (.rdsec m e x) (latchTypeII .readSector m e) s)

/-- WRSEC (R202, R140); bits 3, 1, 0 have no effect (R94). -/
def execWrsec (m e : Bool) (x : Nat) (s : State) : Result :=
  whenIdle s fun s => startCommand .typeIIWrite (acceptCommand (.wrsec m e x) (latchTypeII .writeSector m e) s)

end Sys2Proof.Machine
end

