-- ==== Sys2Proof/Machine/TypeIII.lean ====
section
/-! DEFINITION. The Type III commands (spec/44_type3_commands.md): the event of writing the command byte. The transfers are in
Machine/TrackTransfer.lean. -/

namespace Sys2Proof.Machine

/-- RDADDR (R220, R140); the low nibble has no effect (R95). -/
def execRdaddr (x : Nat) (s : State) : Result :=
  whenIdle s fun s => startCommand .readAddress (acceptCommand (.rdaddr x) (latchTypeIII .readAddress) s)

/-- RDTRK (R230): completes inside the command write, with Record Not Found; the low nibble has no effect (R95). -/
def execRdtrk (x : Nat) (s : State) : Result :=
  whenIdle s fun s => .next (readTrackNoOp (acceptCommand (.rdtrk x) (latchTypeIII .readTrack) s))

/-- WRTRK (R240, R140); the low nibble has no effect (R95). -/
def execWrtrk (x : Nat) (s : State) : Result :=
  whenIdle s fun s => startCommand .writeTrack (acceptCommand (.wrtrk x) (latchTypeIII .writeTrack) s)

end Sys2Proof.Machine
end

