-- ==== Sys2Proof/Machine/TypeIV.lean ====
section
/-! DEFINITION. The Type IV command, Force Interrupt, and the index pulse (spec/45_type4_force_interrupt.md). -/

namespace Sys2Proof.Machine

/-- FORCEINT (R250), valid in every phase: end the outstanding command, raise INTRQ if `i3`, leave a deferred interrupt
pending if `i2`. Like every command write it clears the confusion flag (spec/10_state.md R33). The latched fields keep their
values; bits 1 and 0 have no effect (R96). -/
def execForceint (i3 i2 : Bool) (x : Nat) (s : State) : Result :=
  let s := (((s.setCommand (encode (.forceint i3 i2 x))).setIntrq false).setConfusion false).complete i3
  .next (if i2 then s.setClass .forceInterrupt else s)

/-- `IndexPulse` (R254): fires a pending deferred interrupt. It occurs only while the motor is marked spinning. -/
def indexPulse (s : State) : Result :=
  if s.statusBit motorBit then
    if s.seq.activeCommandClass = .forceInterrupt then
      .next ((s.setIntrq true).setClass .none)
    else .next s
  else .fault .indexPulseMotorStopped

end Sys2Proof.Machine
end

