-- ==== Sys2Proof/Machine/Dispatch.lean ====
section
/-! DEFINITION. One arm per command. -/

namespace Sys2Proof.Machine

def exec (i : Instr) (s : State) : Host.Outcome State Fault Refusal :=
  match i with
  | .restore h v r => Sys2Proof.Machine.execRestore h v r s
  | .seek h v r => Sys2Proof.Machine.execSeek h v r s
  | .step u h v r => Sys2Proof.Machine.execStep u h v r s
  | .stepin u h v r => Sys2Proof.Machine.execStepin u h v r s
  | .stepout u h v r => Sys2Proof.Machine.execStepout u h v r s
  | .rdsec m e x => Sys2Proof.Machine.execRdsec m e x s
  | .wrsec m e x => Sys2Proof.Machine.execWrsec m e x s
  | .rdaddr x => Sys2Proof.Machine.execRdaddr x s
  | .forceint a b x => Sys2Proof.Machine.execForceint a b x s
  | .rdtrk x => Sys2Proof.Machine.execRdtrk x s
  | .wrtrk x => Sys2Proof.Machine.execWrtrk x s

end Sys2Proof.Machine
end

