-- ==== Sys2Proof/Machine/HostBus.lean ====
section
/-! DEFINITION. The register window (spec/20_memory.md R60 to R65): host reads of the four offsets, host writes of offsets 1
to 3, and the board's address decoding (spec/00_scope.md R8). A write of offset 0 is a command (Machine/Step.lean). -/

namespace Sys2Proof.Machine

/-- Leave `b` as the byte the event returns to the host (entry 23). -/
def State.answer (s : State) (b : Byte) : State := { s with io.readData := some b }

/-- `HostRead(0)` (R61): toggle first, answer STATUS, clear INTRQ. -/
def readStatus (s : State) : State :=
  let s := s.toggleIndexBit
  (s.setIntrq false).answer s.regs.status

/-- `HostRead(1)` (R63). -/
def readTrack (s : State) : State := s.answer s.regs.track

/-- `HostRead(2)` (R64). -/
def readSector (s : State) : State := s.answer (s.regs.sector + sectorBias s)

/-- `HostRead(3)` (R65). -/
def readData (s : State) : State := s.clearDrq.answer s.regs.data

/-- `HostRead(off)`. -/
def hostRead (reg : HostRegister) (s : State) : State :=
  match reg with
  | .command => readStatus s
  | .track => readTrack s
  | .sector => readSector s
  | .data => readData s

/-- `HostWrite(1, v)` (R63); undefined while busy (R310). -/
def writeTrackRegister (v : Byte) (s : State) : Result :=
  if s.seq.phase = .idle then .next (s.setTrack v) else .fault .trackWriteWhileBusy

/-- `HostWrite(2, v)` (R64); undefined while busy (R310). -/
def writeSectorRegister (v : Byte) (s : State) : Result :=
  if s.seq.phase = .idle then .next (s.setSector (v - sectorBias s)) else .fault .sectorWriteWhileBusy

/-- `HostWrite(3, v)` (R65), allowed in every phase. -/
def writeDataRegister (v : Byte) (s : State) : State := (s.setData v).clearDrq

/-- The offset of a register (R60). -/
def registerOffset : HostRegister → Nat
  | .command => 0
  | .track => 1
  | .sector => 2
  | .data => 3

/-- The board's address of a register: `BASE + off` (R8). -/
def busAddress (c : Config) (reg : HostRegister) : Nat := c.base + registerOffset reg

/-- The register at a board address, if the address is one of the four (R8, R70). DESIGN CHOICE, unsafe (entry 30): whether
the board mirrors the registers at other addresses is left to the board, and here it does not. -/
def registerAt (c : Config) (address : Nat) : Option HostRegister :=
  if address < c.base then none
  else
    match address - c.base with
    | 0 => some .command
    | 1 => some .track
    | 2 => some .sector
    | 3 => some .data
    | _ => none

end Sys2Proof.Machine
end

