-- ==== Sys2Proof/Machine/Environment.lean ====
section
/-! DEFINITION. The environment: changes of collaborator inputs (spec/70_reset_and_hazards.md R313) and the Reset event
(R300). -/

namespace Sys2Proof.Machine

/-- An image as it is loaded: its byte lists in canonical form. -/
def DiskImage.canonical (i : DiskImage) : DiskImage :=
  { i with
    side0 := { i.side0 with bytes := Memory.ofCells i.side0.bytes }
    side1 := { i.side1 with bytes := Memory.ofCells i.side1.bytes } }

/-- An image after eject: the table, the contents and the two flags are cleared (spec/10_state.md R47; entry 11). -/
def DiskImage.ejected (i : DiskImage) : DiskImage :=
  { i with isOpen := false, isWriteProtected := false, side0 := .empty, side1 := .empty }

/-- The media geometry of drive `d` changes; the environment repositions a head it leaves out of range
(spec/10_state.md R42). -/
def changeTracksPerDisk (d : DriveNo) (tracks : TracksPerDisk) (position : Nat) (s : State) : Result :=
  let D := { s.drive d with tracksPerDisk := tracks }
  if D.trackPosition ≤ D.lastTrack then .next (s.updateDrive d (fun _ => D))
  else if position ≤ D.lastTrack then .next (s.updateDrive d (fun _ => { D with trackPosition := position }))
  else .fault .headOutOfRange

/-- A change of a collaborator input (R313), in any phase: every rule reads its inputs when it names them. -/
def environmentChange (change : EnvChange) (s : State) : Result :=
  match change with
  | .selectDrive d => .next { s with board.selDrive := d }
  | .selectHead h => .next { s with board.selHead := h }
  | .selectDensity density => .next { s with board.selDensity := density }
  | .setDoor d closed => .next (s.updateDrive d fun D => { D with doorClosed := closed })
  | .setDriveWriteProtect d on => .next (s.updateDrive d fun D => { D with writeProtected := on })
  | .setAvailable d on => .next (s.updateDrive d fun D => { D with available := on })
  | .setTracksPerDisk d tracks position => changeTracksPerDisk d tracks position s
  | .insertMedia d image => .next (s.updateDisk d fun _ => image.canonical)
  | .ejectMedia d => .next (s.updateDisk d DiskImage.ejected)
  | .setImageOpen d on => .next (s.updateDisk d fun i => { i with isOpen := on })
  | .setImageWriteProtect d on => .next (s.updateDisk d fun i => { i with isWriteProtected := on })
  | .setMediaDensity d density => .next (s.updateDisk d fun i => { i with mediaDensity := density })
  | .setSectorBias d one => .next (s.updateDisk d fun i => { i with sectorBias := one })

/-- What Reset does to a drive unit (spec/10_state.md R50): head unloaded, countdown 0; the head does not move and the
sensors are the environment's. -/
def DriveUnit.afterReset (D : DriveUnit) : DriveUnit := { D with headLoaded := false, motorSpinDownRemaining := 0 }

/-- The `Reset` event (R300): every element takes the value of the table of spec/10_state.md R50; where the table says
"unspecified" a free value is drawn (entry 8). The heads do not move and the collaborators keep their state. -/
def resetEvent (s : State) : State :=
  let n := s.io.freeCount
  { s with
    regs := { cmd := Config.freeByte n, status := 0, track := Config.freeByte (n + 1), sector := Config.freeByte (n + 2),
              data := Config.freeByte (n + 3), intrq := false, drq := false }
    seq := { phase := .idle, activeCommandClass := .none, cyclesRemaining := 0, confusion := false }
    latch := { cmdKind := Config.freeCmdKind n, hFlag := false, verifyFlag := false, stepRateSel := 0,
               multiSectorFlag := false, settleFlag := false }
    stepDirection := Config.freeDirection n
    rotatingSectorCounter := 0
    xfer := { drive := .drive0, head := .side0, sectorCount := 0, sectorSize := 0, base := 0, offset := 0,
              byteCountRemaining := 0 }
    wt := { state := .scan, idIndex := 0, idSeen := false, sectorSize := 0 }
    drives := { drive0 := s.drives.drive0.afterReset, drive1 := s.drives.drive1.afterReset }
    io.freeCount := n + 4 }

/-- Take the next event from the queue: the event, and the state in which it happens, with the previous event's answer and
feedback gone (entries 1, 22, 23). -/
def takeEvent (s : State) : Option (Event × State) :=
  match s.io.inputs with
  | [] => none
  | e :: rest => some (e, { s with io.inputs := rest, io.readData := none, io.signals := [] })

end Sys2Proof.Machine
end

