-- ==== Sys2Proof/Machine/Step.lean ====
section
/-! DEFINITION. One step: the next event of the queue happens (spec/00_scope.md R12). A write of offset 0 runs the command
its byte decodes to (spec/20_memory.md R62). -/

namespace Sys2Proof.Machine

/-- What an event does (R12). -/
def runEvent (e : Event) (s : State) : Host.Outcome State Fault Refusal :=
  match e with
  | .hostWrite .command v => exec (decode v) s
  | .hostWrite .track v => writeTrackRegister v s
  | .hostWrite .sector v => writeSectorRegister v s
  | .hostWrite .data v => .next (writeDataRegister v s)
  | .hostRead reg => .next (hostRead reg s)
  | .poll n => poll n s
  | .indexPulse => indexPulse s
  | .environment change => environmentChange change s
  | .reset => .next (resetEvent s)

/-- One step. With no event to happen nothing changes (spec/20_memory.md R74). -/
def step (s : State) : Host.Outcome State Fault Refusal :=
  match takeEvent s with
  | none => .next s
  | some (e, t) => runEvent e t

/-- Place the command whose bits are `w` where the next step takes it: as a host write of offset 0 at the front of the
queue (entry 2). -/
def State.withFetchWord (s : State) (nbits w : Nat) : State :=
  { s with io.inputs := .hostWrite .command (BitVec.ofNat 8 (w % 2 ^ nbits)) :: s.io.inputs }

end Sys2Proof.Machine
end

