-- ==== Sys2Proof/Safety.lean ====
section
/-! DEFINITION. What counts as a safe run: the invariant of the reachable states, the legal events, and the shapes in which
statements say what a command leaves changed and unchanged. -/

namespace Sys2Proof.Machine

/-! ## The invariant -/

/-- The classes of the Type II and III commands. -/
def isTransferClass (c : CommandClass) : Bool :=
  decide (c = .typeIIRead) || decide (c = .typeIIWrite) || decide (c = .readAddress) || decide (c = .writeTrack)

/-- The five Type I commands. -/
def isTypeIKind (k : CmdKind) : Bool :=
  decide (k = .restore) || decide (k = .seek) || decide (k = .step) || decide (k = .stepIn) || decide (k = .stepOut)

/-- What the transfer context holds while bytes are moved (spec/41_sequencer.md R154, spec/43_type2_commands.md R205,
spec/44_type3_commands.md R220, R240). -/
structure TransferContextOk (s : State) : Prop where
  count_pos : 1 ≤ s.xfer.sectorCount
  count_le : s.xfer.sectorCount ≤ 255
  size_pos : 1 ≤ s.xfer.sectorSize
  sector_on_track : s.seq.activeCommandClass ≠ .readAddress → s.regs.sector.toNat < s.xfer.sectorCount
  bytes_left : s.seq.activeCommandClass ≠ .writeTrack ∨ s.wt.state = .data → 1 ≤ s.xfer.byteCountRemaining
  header_bytes : s.seq.activeCommandClass = .readAddress → s.xfer.byteCountRemaining ≤ 6

/-- The invariant every legal event keeps. -/
structure Invariant (s : State) : Prop where
  /-- Busy exactly when not Idle (R30). -/
  busy_iff : s.statusBit busyBit = true ↔ s.seq.phase ≠ .idle
  /-- Completing is transient (R28). -/
  not_completing : s.seq.phase ≠ .completing
  /-- A command class is active exactly when not Idle (R30). -/
  active_iff :
    s.seq.phase ≠ .idle ↔ (s.seq.activeCommandClass = .typeI ∨ isTransferClass s.seq.activeCommandClass = true)
  /-- The phases belong to the classes of R144's table. -/
  seeking_class : s.seq.phase = .seeking → s.seq.activeCommandClass = .typeI
  settling_class : s.seq.phase = .settling → isSectorClass s.seq.activeCommandClass = true
  prepare_class : s.seq.phase = .transferPrepare → isTransferClass s.seq.activeCommandClass = true
  transfer_class : s.seq.phase = .transferByte → isTransferClass s.seq.activeCommandClass = true
  typeI_kind : s.seq.activeCommandClass = .typeI → isTypeIKind s.latch.cmdKind = true
  /-- DRQ implies STATUS[1] (R26); no request during Type I; the two agree during Type II and III (R271). -/
  drq_status : s.regs.drq = true → s.statusBit requestBit = true
  typeI_no_drq : s.seq.activeCommandClass = .typeI → s.regs.drq = false
  transfer_drq : isTransferClass s.seq.activeCommandClass = true → s.statusBit requestBit = s.regs.drq
  /-- STATUS[3] is always 0 (R22). -/
  no_crc_error : s.statusBit crcErrorBit = false
  /-- A timed phase holds a countdown that is not negative (R145). -/
  cycles_nonneg : s.seq.phase ≠ .idle → 0 ≤ s.seq.cyclesRemaining
  /-- The confusion sub-phase is phase Seeking (R33). -/
  confusion_phase : s.seq.confusion = true → s.seq.phase ≠ .idle → s.seq.phase = .seeking
  step_rate : s.latch.stepRateSel < 4
  id_index : s.wt.idIndex ≤ 3
  id_size : s.wt.idSeen = true → 1 ≤ s.wt.sectorSize
  context : s.seq.phase = .transferByte → TransferContextOk s
  /-- Heads stay within their media (R41). -/
  head_in_range : ∀ d, (s.drive d).trackPosition ≤ (s.drive d).lastTrack
  /-- The images are canonical memories. -/
  images_canonical : ∀ d h, Memory.wf ((s.disk d).side h).bytes = true

/-! ## Legal events -/

/-- The events whose preconditions hold: no command (but Force Interrupt), TRACK or SECTOR write while busy (R310), no
Poll(0) (R146), no index pulse from a stopped disc (R254), no head left out of range (R42). -/
def Event.legal (s : State) : Event → Bool
  | .hostWrite .command v => decide (s.seq.phase = .idle) || decide (fieldAt v 7 4 = 0xD)
  | .hostWrite .track _ => decide (s.seq.phase = .idle)
  | .hostWrite .sector _ => decide (s.seq.phase = .idle)
  | .hostWrite .data _ => true
  | .hostRead _ => true
  | .poll n => decide (1 ≤ n)
  | .indexPulse => s.statusBit motorBit
  | .environment (.setTracksPerDisk d tracks position) =>
    decide ((s.drive d).trackPosition ≤ trackCount tracks - 1) || decide (position ≤ trackCount tracks - 1)
  | .environment _ => true
  | .reset => true

/-! ## Shapes of statements -/

/-- No byte of any image changes. -/
def imagesUnchanged (s t : State) : Prop := ∀ d h offset, t.imageByte d h offset = s.imageByte d h offset

/-- Everything but the registers, the sequencer position, the latched fields, the direction and the drives is unchanged:
configuration, rotating counter, transfer context, Write Track sub-state, board, images, pending events and draws. -/
structure RestUnchanged (s t : State) : Prop where
  cfg : t.cfg = s.cfg
  rotating : t.rotatingSectorCounter = s.rotatingSectorCounter
  xfer : t.xfer = s.xfer
  wt : t.wt = s.wt
  board : t.board = s.board
  disks : t.disks = s.disks
  images : imagesUnchanged s t
  inputs : t.io.inputs = s.io.inputs
  answer : t.io.readData = s.io.readData
  draws : t.io.freeCount = s.io.freeCount

/-- The drives after the selected head has been loaded (R121) and stands at `position`; everything else of both drives is
unchanged. -/
def drivesWithHeadAt (s : State) (position : Nat) : PerDrive DriveUnit :=
  s.drives.set s.board.selDrive
    { s.selected with headLoaded := s.selected.headLoaded || s.selected.doorClosed, trackPosition := position }

/-- A Type I command has moved and waits in Seeking (R140, R180): STATUS is 0xA1, TRACK is the target, the head is at
`position`, the wait is that of `passed` tracks, INTRQ and DRQ are low; the rest is unchanged. -/
structure EnteredSeeking (i : Instr) (latch : LatchedFields) (target : Byte) (passed position : Nat)
    (direction : StepDirection) (s t : State) : Prop where
  regs : t.regs = { s.regs with cmd := encode i, status := 0xA1, track := target, intrq := false, drq := false }
  seq : t.seq = { phase := .seeking, activeCommandClass := .typeI, confusion := false,
                  cyclesRemaining := ((passed * stepRateCycles s.cfg latch.stepRateSel
                    + (if latch.verifyFlag then s.cfg.verifyTime else 0) : Nat) : Int) }
  latch : t.latch = latch
  direction : t.stepDirection = direction
  drives : t.drives = drivesWithHeadAt s position
  rest : RestUnchanged s t

/-- A command has been accepted and waits in a phase before any of its own work (R140, R143): STATUS is 0x81, INTRQ and DRQ
are low, the fields are latched; the rest but the drives is unchanged. -/
structure Started (i : Instr) (latch : LatchedFields) (cls : CommandClass) (phase : Phase) (wait : Nat)
    (direction : StepDirection) (drives : PerDrive DriveUnit) (s t : State) : Prop where
  regs : t.regs = { s.regs with cmd := encode i, status := 0x81, intrq := false, drq := false }
  seq : t.seq = { phase := phase, activeCommandClass := cls, cyclesRemaining := (wait : Int), confusion := false }
  latch : t.latch = latch
  direction : t.stepDirection = direction
  drives : t.drives = drives
  rest : RestUnchanged s t

/-- What a command latches (R97), by constructor. -/
def latchedFields : Instr → LatchedFields
  | .restore h v r => latchTypeI .restore h v r
  | .seek h v r => latchTypeI .seek h v r
  | .step _ h v r => latchTypeI .step h v r
  | .stepin _ h v r => latchTypeI .stepIn h v r
  | .stepout _ h v r => latchTypeI .stepOut h v r
  | .rdsec m e _ => latchTypeII .readSector m e
  | .wrsec m e _ => latchTypeII .writeSector m e
  | .rdaddr _ => latchTypeIII .readAddress
  | .forceint _ _ _ => latchTypeIII .forceInterrupt
  | .rdtrk _ => latchTypeIII .readTrack
  | .wrtrk _ => latchTypeIII .writeTrack

/-- The class a command starts (R97); none for Read Track and Force Interrupt, which start no phase. -/
def startedClass : Instr → CommandClass
  | .restore _ _ _ | .seek _ _ _ | .step _ _ _ _ | .stepin _ _ _ _ | .stepout _ _ _ _ => .typeI
  | .rdsec _ _ _ => .typeIIRead
  | .wrsec _ _ _ => .typeIIWrite
  | .rdaddr _ => .readAddress
  | .wrtrk _ => .writeTrack
  | .forceint _ _ _ | .rdtrk _ => .none

/-- The step direction after decoding a command (R97): written only by Step-In and Step-Out. -/
def directionAfter : Instr → StepDirection → StepDirection
  | .stepin _ _ _ _, _ => .inward
  | .stepout _ _ _ _, _ => .outward
  | .restore _ _ _, d | .seek _ _ _, d | .step _ _ _ _, d | .rdsec _ _ _, d | .wrsec _ _ _, d | .rdaddr _, d
  | .forceint _ _ _, d | .rdtrk _, d | .wrtrk _, d => d

/-- The head position after `n` steps inward (R130). -/
def positionInward (D : DriveUnit) (n : Nat) : Nat := min (D.trackPosition + n * D.stepSize) D.lastTrack

/-- The head position after `n` steps outward (R130). -/
def positionOutward (D : DriveUnit) (n : Nat) : Nat := D.trackPosition - n * D.stepSize

/-- A state with the parts of the drives that no register depends on erased: the head-loaded flag, the door and the
unread `available` flag (R43, R121). -/
def DriveUnit.eraseHeadLoad (D : DriveUnit) : DriveUnit :=
  { D with headLoaded := false, doorClosed := false, available := false }

/-- The same for a whole state. -/
def State.eraseHeadLoad (s : State) : State :=
  { s with drives := { drive0 := s.drives.drive0.eraseHeadLoad, drive1 := s.drives.drive1.eraseHeadLoad } }

/-- An outcome with its next state mapped. -/
def mapNext (f : State → State) : Result → Result
  | .next s => .next (f s)
  | .fault r => .fault r
  | .refused r => .refused r

/-! ## Phases and moves by class and kind -/

/-- The phase `BeginCommandPhase` enters for a class (R143): `settle` is the latched e flag. Idle for the classes that start
no phase. -/
def classEntry : CommandClass → Bool → Phase
  | .typeI, _ => .seeking
  | .typeIIRead, settle | .typeIIWrite, settle => if settle then .settling else .transferPrepare
  | .readAddress, _ | .writeTrack, _ => .transferPrepare
  | .none, _ | .forceInterrupt, _ => .idle

/-- The wait that phase is entered with: `SETTLE_TIME` for Settling, 0 for TransferPrepare (R143). -/
def entryWait (c : Config) (p : Phase) : Nat := if p = .settling then c.settleTime else 0

/-- The condition under which a command skips SpinUp (R140): the motor is marked spinning, or it is Type I with h = 1. -/
def skipsSpinUp (s : State) (i : Instr) : Bool :=
  s.statusBit motorBit || (decide (startedClass i = .typeI) && (latchedFields i).hFlag)

/-- The value TRACK takes on entry to Seeking (R181 to R185). -/
def moveTarget (s : State) : CmdKind → Byte
  | .restore => 0
  | .seek => s.regs.data
  | .step =>
    match s.stepDirection with
    | .inward => s.regs.track + 1
    | .outward => s.regs.track - 1
  | .stepIn => s.regs.track + 1
  | .stepOut => s.regs.track - 1
  | .readSector | .writeSector | .readAddress | .forceInterrupt | .readTrack | .writeTrack => s.regs.track

/-- The tracks the move passes (R181 to R185). -/
def movePassed (s : State) : CmdKind → Nat
  | .restore => s.regs.track.toNat
  | .seek => absDiff s.regs.data.toNat s.regs.track.toNat
  | .step | .stepIn | .stepOut => 1
  | .readSector | .writeSector | .readAddress | .forceInterrupt | .readTrack | .writeTrack => 0

/-- Where the move leaves the selected head (R181 to R185, R130, R131). -/
def movePosition (s : State) : CmdKind → Nat
  | .restore => 0
  | .seek =>
    if s.regs.track.toNat < s.regs.data.toNat then positionInward s.selected (movePassed s .seek)
    else if s.regs.data.toNat < s.regs.track.toNat then positionOutward s.selected (movePassed s .seek)
    else s.selected.trackPosition
  | .step =>
    match s.stepDirection with
    | .inward => positionInward s.selected 1
    | .outward => positionOutward s.selected 1
  | .stepIn => positionInward s.selected 1
  | .stepOut => positionOutward s.selected 1
  | .readSector | .writeSector | .readAddress | .forceInterrupt | .readTrack | .writeTrack => s.selected.trackPosition

/-- The status a Type I command ends with (R186): motor on, spin-up complete, the sensors of `D`, nothing else. -/
def typeIEndStatus (c : Config) (D : DriveUnit) : Byte :=
  BitVec.ofNat 8 (0xA0 + (if D.writeProtected then 0x40 else 0)
    + (if xor (decide (D.trackPosition = 0)) c.track00Invert then 0x04 else 0))

/-- The next byte expiry moves the last byte of the command (R203 to R205, R221, R244): the last of a sector that is the
command's last one, the sixth of a header, or the last of the block that uses up the track's budget. -/
def lastByteOfCommand (s : State) : Bool :=
  let sectorDone := decide (s.xfer.byteCountRemaining = 1)
  let trackDone := decide (s.xfer.sectorCount ≤ (s.regs.sector + 1).toNat)
  match s.seq.activeCommandClass with
  | .typeIIRead | .typeIIWrite => sectorDone && (!s.latch.multiSectorFlag || trackDone)
  | .readAddress => sectorDone
  | .writeTrack => decide (s.wt.state = .data) && sectorDone && trackDone
  | .none | .typeI | .forceInterrupt => false

/-! ## Ends of commands -/

/-- The drives after `Complete` (R150): the selected drive's countdown is loaded, nothing else changes. -/
def drivesAfterComplete (s : State) : PerDrive DriveUnit :=
  s.drives.set s.board.selDrive { s.selected with motorSpinDownRemaining := s.cfg.spinDownTime }

/-- A poll of `n` cycles has ended a transfer command at prepare with status bit `bit` set (R154, R260): nothing was
transferred, INTRQ is raised. -/
structure AbortedAtPrepare (bit : Nat) (n : Nat) (s t : State) : Prop where
  regs : t.regs = { s.regs with status := putBit (s.regs.status &&& 0xDE) bit true, intrq := true }
  seq : t.seq = { s.seq with phase := .idle, activeCommandClass := .none, cyclesRemaining := s.seq.cyclesRemaining - n }
  latch : t.latch = s.latch
  direction : t.stepDirection = s.stepDirection
  drives : t.drives = drivesAfterComplete s
  rest : RestUnchanged s t

/-- Everything but the registers, the sequencer position, the transfer context, the Write Track sub-state, the images and the
draws is unchanged: what a byte expiry that does not end the command leaves alone. -/
structure TransferFrame (s t : State) : Prop where
  cfg : t.cfg = s.cfg
  latch : t.latch = s.latch
  direction : t.stepDirection = s.stepDirection
  rotating : t.rotatingSectorCounter = s.rotatingSectorCounter
  drives : t.drives = s.drives
  board : t.board = s.board
  inputs : t.io.inputs = s.io.inputs
  answer : t.io.readData = s.io.readData
  signals : t.io.signals = s.io.signals

/-- Only the byte at the transfer's own place is written, and it holds `v` (R66). -/
def OneByteWritten (v : Byte) (s t : State) : Prop :=
  t.imageByte s.xfer.drive s.xfer.head s.xfer.offset = some v ∧
    ∀ d h offset, ¬ (d = s.xfer.drive ∧ h = s.xfer.head ∧ offset = s.xfer.offset) →
      t.imageByte d h offset = s.imageByte d h offset

/-- A phase that counts down has expired in a poll of `n` cycles (R145, R146). -/
def Expires (n : Nat) (s : State) : Prop := 1 ≤ n ∧ s.seq.cyclesRemaining ≤ (n : Int)

/-- Lost Data at the start of a byte expiry (R155): bit 2 is set if the last request was not serviced. -/
def lostDataStatus (s : State) : Byte := if s.regs.drq then s.regs.status ||| 0x04 else s.regs.status

/-! ## Runs -/

/-- The event the next step takes. -/
def State.nextEvent (s : State) : Option Event := s.io.inputs.head?

/-- The state in which the next event happens. -/
def State.eventState (s : State) : State :=
  { s with io.inputs := s.io.inputs.tail, io.readData := none, io.signals := [] }

/-- The state with a queue of events. -/
def State.withInputs (s : State) (es : List Event) : State := { s with io.inputs := es }

/-- Run a script of events, one step each: the final state and the bytes the host reads returned, first one first; none if
a step stops. -/
def runScript : List Event → State → Option (State × List Byte)
  | [], s => some (s, [])
  | e :: es, s =>
    match step (s.withInputs [e]) with
    | .next t => (runScript es t).map fun r => (r.1, t.io.readData.toList ++ r.2)
    | .fault _ => none
    | .refused _ => none

/-- The state after some polls of a wait, with `c` cycles left and no event pending. -/
def countedDown (s : State) (c : Nat) : State :=
  { s with
    seq.cyclesRemaining := (c : Int)
    io := { s.io with inputs := [], readData := none, signals := [] } }

/-- `n` polls of one cycle each. -/
def unitPolls (n : Nat) : List Event := List.replicate n (.poll 1)

/-- The host script that collects `n` bytes: for each, one poll of a byte time and one read of DATA. -/
def collectScript (byteTime : Nat) : Nat → List Event
  | 0 => []
  | n + 1 => .poll byteTime :: .hostRead .data :: collectScript byteTime n

/-- The host script that supplies bytes: for each, one write of DATA and one poll of a byte time. -/
def supplyScript (byteTime : Nat) : List Byte → List Event
  | [] => []
  | b :: bs => .hostWrite .data b :: .poll byteTime :: supplyScript byteTime bs

/-- The image holds the bytes of a list from an offset on. -/
def HoldsBytes (s : State) (d : DriveNo) (h : Head) (offset : Nat) (bs : List Byte) : Prop :=
  ∀ i, i < bs.length → s.imageByte d h (offset + i) = bs[i]?

/-- Outside one range of one side of one drive no image byte changes. -/
def OnlyRangeWritten (s t : State) (d : DriveNo) (h : Head) (offset length : Nat) : Prop :=
  ∀ d' h' o, ¬ (d' = d ∧ h' = h ∧ offset ≤ o ∧ o < offset + length) → t.imageByte d' h' o = s.imageByte d' h' o

end Sys2Proof.Machine
end

