-- ==== Sys2Proof/Certificates/Slice0/Obligations.lean ====
section
/-! DEFINITION. The statements for the provers, each named for what it says. "The spec" is spec/; R<n> is its rule n; "entry n"
is notes/assumptions/n.md. -/

open Sys2Proof Sys2Proof.Machine

/-! ## Encoding -/

/-- Decoding the encoding of a well-formed command gives it back, every operand at every value its field admits (R91 to R96,
R110); and every byte decodes to a well-formed command (R100) and is its encoding: no bit is dropped. At these rules it
follows the spec's own decisions D5, D6, D7, D8, D9, D43 and passages from general knowledge (entry 21). -/
def Obligations.DecodeEncodeAgree : Prop :=
  (∀ i : Instr, i.wellFormed = true → decode (encode i) = i) ∧
  ∀ v : Byte, (decode v).wellFormed = true ∧ encode (decode v) = v

/-- The high nibble alone selects the command (R91), and written-out command bytes decode right, one of each command (R92 to
R96; spec/95_test_vectors.md Part 3). At these rules it follows the spec's own decisions D5, D9 and passages from general
knowledge (entry 21). -/
def Obligations.CommandBytesDecode : Prop :=
  (∀ v : Byte,
    (fieldAt v 7 4 = 0x0 → commandKind (decode v) = .restore) ∧
    (fieldAt v 7 4 = 0x1 → commandKind (decode v) = .seek) ∧
    (fieldAt v 7 4 = 0x2 ∨ fieldAt v 7 4 = 0x3 → commandKind (decode v) = .step) ∧
    (fieldAt v 7 4 = 0x4 ∨ fieldAt v 7 4 = 0x5 → commandKind (decode v) = .stepIn) ∧
    (fieldAt v 7 4 = 0x6 ∨ fieldAt v 7 4 = 0x7 → commandKind (decode v) = .stepOut) ∧
    (fieldAt v 7 4 = 0x8 ∨ fieldAt v 7 4 = 0x9 → commandKind (decode v) = .readSector) ∧
    (fieldAt v 7 4 = 0xA ∨ fieldAt v 7 4 = 0xB → commandKind (decode v) = .writeSector) ∧
    (fieldAt v 7 4 = 0xC → commandKind (decode v) = .readAddress) ∧
    (fieldAt v 7 4 = 0xD → commandKind (decode v) = .forceInterrupt) ∧
    (fieldAt v 7 4 = 0xE → commandKind (decode v) = .readTrack) ∧
    (fieldAt v 7 4 = 0xF → commandKind (decode v) = .writeTrack)) ∧
  decode 0b00001110 = .restore true true 2 ∧ decode 0b00010101 = .seek false true 1 ∧
  decode 0b00111011 = .step true true false 3 ∧ decode 0b01000100 = .stepin false false true 0 ∧
  decode 0b01110010 = .stepout true false false 2 ∧ decode 0b10010100 = .rdsec true true 0 ∧
  decode 0b10101001 = .wrsec false false 5 ∧ decode 0b11000011 = .rdaddr 3 ∧
  decode 0b11010110 = .forceint false true 2 ∧ decode 0b11101111 = .rdtrk 15 ∧ decode 0b11110001 = .wrtrk 1

/-! ## The command write -/

/-- One step is one event (R12, R74; entry 1 for the queue). A write of offset 0 runs the command its byte decodes to (R62):
the step is `exec` of it in the state with the event taken and the previous answer and feedback gone. At these rules it
follows the spec's own decision D2 (entry 21). The queue and `withFetchWord` are the model's (entries 1, 2). -/
def Obligations.StepRunsEvent : Prop :=
  (∀ s v rest, s.io.inputs = .hostWrite .command v :: rest → step s = exec (decode v) s.eventState) ∧
  (∀ (s : State) w i, decodeTableWord 8 w = some i →
    step (s.withFetchWord 8 w) = exec i { s with io.readData := none, io.signals := [] }) ∧
  (∀ s, s.io.inputs = [] → step s = .next s) ∧
  (∀ s v rest, s.io.inputs = .hostWrite .track v :: rest → step s = writeTrackRegister v s.eventState) ∧
  (∀ s v rest, s.io.inputs = .hostWrite .sector v :: rest → step s = writeSectorRegister v s.eventState) ∧
  (∀ s v rest, s.io.inputs = .hostWrite .data v :: rest → step s = .next (writeDataRegister v s.eventState)) ∧
  (∀ s reg rest, s.io.inputs = .hostRead reg :: rest → step s = .next (hostRead reg s.eventState)) ∧
  (∀ s n rest, s.io.inputs = .poll n :: rest → step s = poll n s.eventState) ∧
  (∀ s rest, s.io.inputs = .indexPulse :: rest → step s = indexPulse s.eventState) ∧
  (∀ s c rest, s.io.inputs = .environment c :: rest → step s = environmentChange c s.eventState) ∧
  ∀ s rest, s.io.inputs = .reset :: rest → step s = .next (resetEvent s.eventState)

/-- With the motor not marked spinning and spin-up not suppressed, RESTORE, SEEK, STEP, STEPIN, STEPOUT, RDSEC, WRSEC,
RDADDR and WRTRK start in SpinUp for `SPIN_UP_TIME` (R140, R141, R97): STATUS 0x81, nothing moved. At these rules it follows
the spec's own decisions D11, D12, D15, D20 and passages from general knowledge (entry 21). -/
def Obligations.CommandsSpinUp : Prop :=
  ∀ i s, startedClass i ≠ .none → s.seq.phase = .idle → skipsSpinUp s i = false →
    ∃ t, exec i s = .next t ∧ t.io.signals = s.io.signals ∧
      Started i (latchedFields i) (startedClass i) .spinUp s.cfg.spinUpTime (directionAfter i s.stepDirection) s.drives s t

/-- RESTORE with spin-up skipped (R181, R180, R140): TRACK is 0 and the head is at 0 at once, whatever TRACK held; the wait
is that of TRACK tracks. At these rules it follows the spec's own decisions D11, D12, D15, D16, D17, D18, D22 and passages
from general knowledge (entry 21). -/
def Obligations.RestoreMoves : Prop :=
  ∀ h v r s, s.seq.phase = .idle → skipsSpinUp s (.restore h v r) = true → seekConfused s = false →
    ∃ t, exec (.restore h v r) s = .next t ∧
      EnteredSeeking (.restore h v r) (latchTypeI .restore h v r) 0 s.regs.track.toNat 0 s.stepDirection s t

/-- SEEK with spin-up skipped (R182, R180, R140): TRACK is DATA; the head makes one step for each track passed, clamped at
the media's boundaries, inward, outward, or not at all. At these rules it follows the spec's own decisions D11, D12, D15,
D16, D17, D18, D20, D22 and passages from general knowledge (entry 21). -/
def Obligations.SeekMoves : Prop :=
  ∀ h v r s, s.seq.phase = .idle → skipsSpinUp s (.seek h v r) = true → seekConfused s = false →
    ∃ t, exec (.seek h v r) s = .next t ∧
      EnteredSeeking (.seek h v r) (latchTypeI .seek h v r) s.regs.data
        (absDiff s.regs.data.toNat s.regs.track.toNat)
        (if s.regs.track.toNat < s.regs.data.toNat then
          positionInward s.selected (s.regs.data.toNat - s.regs.track.toNat)
        else if s.regs.data.toNat < s.regs.track.toNat then
          positionOutward s.selected (s.regs.track.toNat - s.regs.data.toNat)
        else s.selected.trackPosition)
        s.stepDirection s t

/-- STEP, STEPIN and STEPOUT with spin-up skipped (R183, R184, R185, R97, R180, R140): STEPIN and STEPOUT set the direction;
one step is made in it, clamped at the media's boundary; TRACK wraps modulo 256 and the wait is that of one track. At these
rules it follows the spec's own decisions D6, D11, D12, D15, D16, D17, D19, D20, D22 and passages from general knowledge
(entry 21). -/
def Obligations.StepsMove : Prop :=
  (∀ u h v r s, s.seq.phase = .idle → skipsSpinUp s (.step u h v r) = true → seekConfused s = false →
    ∃ t, exec (.step u h v r) s = .next t ∧
      (s.stepDirection = .inward →
        EnteredSeeking (.step u h v r) (latchTypeI .step h v r) (s.regs.track + 1) 1 (positionInward s.selected 1)
          .inward s t) ∧
      (s.stepDirection = .outward →
        EnteredSeeking (.step u h v r) (latchTypeI .step h v r) (s.regs.track - 1) 1 (positionOutward s.selected 1)
          .outward s t)) ∧
  (∀ u h v r s, s.seq.phase = .idle → skipsSpinUp s (.stepin u h v r) = true → seekConfused s = false →
    ∃ t, exec (.stepin u h v r) s = .next t ∧
      EnteredSeeking (.stepin u h v r) (latchTypeI .stepIn h v r) (s.regs.track + 1) 1 (positionInward s.selected 1)
        .inward s t) ∧
  ∀ u h v r s, s.seq.phase = .idle → skipsSpinUp s (.stepout u h v r) = true → seekConfused s = false →
    ∃ t, exec (.stepout u h v r) s = .next t ∧
      EnteredSeeking (.stepout u h v r) (latchTypeI .stepOut h v r) (s.regs.track - 1) 1 (positionOutward s.selected 1)
        .outward s t

/-- The confusion sub-phase (R187, R180): on a density mismatch a Type I command that skips SpinUp (RESTORE, SEEK, STEP,
STEPIN, STEPOUT) moves nothing and waits `CONFUSION_TIME`; decode has still set the direction. At these rules it follows the
spec's own decisions D16, D17, D22 (entry 21). The trace of feedback is the model's (entry 22). -/
def Obligations.ConfusedCommands : Prop :=
  ∀ i s, startedClass i = .typeI → s.seq.phase = .idle → skipsSpinUp s i = true → seekConfused s = true →
    ∃ t, exec i s = .next t ∧
      t.regs = { s.regs with cmd := encode i, status := 0xA1, intrq := false, drq := false } ∧
      t.seq = { phase := .seeking, activeCommandClass := .typeI, cyclesRemaining := (s.cfg.confusionTime : Int),
                confusion := true } ∧
      t.latch = latchedFields i ∧ t.stepDirection = directionAfter i s.stepDirection ∧
      t.drives = drivesWithHeadAt s s.selected.trackPosition ∧ RestUnchanged s t

/-- RDSEC, WRSEC, RDADDR and WRTRK with the motor marked spinning (R140, R143): the head is loaded where it stands and the
command waits in Settling for `SETTLE_TIME` (RDSEC, WRSEC with e = 1) or in TransferPrepare for the next poll. At these
rules it follows the spec's own decisions D11, D12, D15, D23 and passages from general knowledge (entry 21). -/
def Obligations.TransfersStart : Prop :=
  ∀ i s, isTransferClass (startedClass i) = true → s.seq.phase = .idle → s.statusBit motorBit = true →
    ∃ t, exec i s = .next t ∧
      Started i (latchedFields i) (startedClass i) (classEntry (startedClass i) (latchedFields i).settleFlag)
        (entryWait s.cfg (classEntry (startedClass i) (latchedFields i).settleFlag)) s.stepDirection
        (drivesWithHeadAt s s.selected.trackPosition) s t

/-- RDTRK (R230): completes inside the write with Record Not Found and INTRQ; busy and the motor are not touched, no head is
loaded, no byte is moved; the countdown is loaded. At these rules it follows the spec's own decision D31 (entry 21). -/
def Obligations.ReadTrackCompletes : Prop :=
  ∀ x s, s.seq.phase = .idle →
    ∃ t, exec (.rdtrk x) s = .next t ∧
      t.regs = { s.regs with cmd := encode (.rdtrk x), status := (s.regs.status &&& 0x80) ||| 0x10, intrq := true, drq := false } ∧
      t.seq = { s.seq with phase := .idle, activeCommandClass := .none, confusion := false } ∧
      t.latch = latchTypeIII .readTrack ∧ t.stepDirection = s.stepDirection ∧ t.drives = drivesAfterComplete s ∧
      t.io.signals = s.io.signals ∧ RestUnchanged s t

/-- FORCEINT in every state (R250, R251, R252): busy falls and nothing else of STATUS changes, INTRQ becomes `i3`, a
deferred interrupt is pending exactly if `i2`, the confusion flag is cleared (R33), the countdown is loaded; every other
register, the latched fields, the counters and the transfer keep their values. At these rules it follows the spec's own
decisions D9, D12, D34 and passages from general knowledge (entry 21). -/
def Obligations.ForceInterruptEnds : Prop :=
  ∀ i3 i2 x s,
    ∃ t, exec (.forceint i3 i2 x) s = .next t ∧
      t.regs = { s.regs with cmd := encode (.forceint i3 i2 x), status := s.regs.status &&& 0xFE, intrq := i3 } ∧
      t.seq = { s.seq with
        phase := .idle, activeCommandClass := if i2 then .forceInterrupt else .none, confusion := false } ∧
      t.latch = s.latch ∧ t.stepDirection = s.stepDirection ∧ t.drives = drivesAfterComplete s ∧
      t.io.signals = s.io.signals ∧ RestUnchanged s t

/-- Every command but FORCEINT written while busy stops as a fault of the host, and so does a write of TRACK or SECTOR
(R142, R310). At these rules it follows the spec's own decision D40 (entry 21). Entry 13. -/
def Obligations.BusyWritesFault : Prop :=
  (∀ i s, commandKind i ≠ .forceInterrupt → s.seq.phase ≠ .idle → exec i s = .fault .commandWriteWhileBusy) ∧
  (∀ v s, s.seq.phase ≠ .idle → writeTrackRegister v s = .fault .trackWriteWhileBusy) ∧
  ∀ v s, s.seq.phase ≠ .idle → writeSectorRegister v s = .fault .sectorWriteWhileBusy

/-- From Idle every command is accepted, and what an earlier command left behind (the result bits of STATUS, INTRQ, DRQ, the
confusion flag, a pending deferred interrupt) does not influence one that is not FORCEINT (R6, R141, R276). At these rules
it follows the spec's own decision D11 (entry 21). -/
def Obligations.CommandsRearm : Prop :=
  (∀ i s, s.seq.phase = .idle → ∃ t, exec i s = .next t) ∧
  ∀ i s (w : Byte) a b c k, commandKind i ≠ .forceInterrupt → s.seq.phase = .idle →
    exec i { s with regs.status := (s.regs.status &&& 0x81) ||| (w &&& 0x7E), regs.intrq := a, regs.drq := b,
                    seq.confusion := c, seq.activeCommandClass := k } = exec i s

/-- The ignored bits (R93 to R96, R100) have no effect: two commands that differ in them alone end in states that differ in
CMD alone; and no rule reads CMD (R21): from states that differ in CMD alone a step ends in states that differ in CMD alone,
or in equal ones. At these rules it follows the spec's own decisions D6, D7, D8, D9 and passages from general knowledge
(entry 21). -/
def Obligations.IgnoredBitsInert : Prop :=
  ∀ s,
    (∀ u u' h v r, mapNext (fun t => t.setCommand 0) (exec (.step u h v r) s)
      = mapNext (fun t => t.setCommand 0) (exec (.step u' h v r) s)) ∧
    (∀ u u' h v r, mapNext (fun t => t.setCommand 0) (exec (.stepin u h v r) s)
      = mapNext (fun t => t.setCommand 0) (exec (.stepin u' h v r) s)) ∧
    (∀ u u' h v r, mapNext (fun t => t.setCommand 0) (exec (.stepout u h v r) s)
      = mapNext (fun t => t.setCommand 0) (exec (.stepout u' h v r) s)) ∧
    (∀ m e x x', mapNext (fun t => t.setCommand 0) (exec (.rdsec m e x) s)
      = mapNext (fun t => t.setCommand 0) (exec (.rdsec m e x') s)) ∧
    (∀ m e x x', mapNext (fun t => t.setCommand 0) (exec (.wrsec m e x) s)
      = mapNext (fun t => t.setCommand 0) (exec (.wrsec m e x') s)) ∧
    (∀ x x', mapNext (fun t => t.setCommand 0) (exec (.rdaddr x) s)
      = mapNext (fun t => t.setCommand 0) (exec (.rdaddr x') s)) ∧
    (∀ i3 i2 x x', mapNext (fun t => t.setCommand 0) (exec (.forceint i3 i2 x) s)
      = mapNext (fun t => t.setCommand 0) (exec (.forceint i3 i2 x') s)) ∧
    (∀ x x', mapNext (fun t => t.setCommand 0) (exec (.rdtrk x) s)
      = mapNext (fun t => t.setCommand 0) (exec (.rdtrk x') s)) ∧
    (∀ x x', mapNext (fun t => t.setCommand 0) (exec (.wrtrk x) s)
      = mapNext (fun t => t.setCommand 0) (exec (.wrtrk x') s)) ∧
    ∀ w, mapNext (fun t => t.setCommand 0) (step (s.setCommand w)) = mapNext (fun t => t.setCommand 0) (step s)

/-! ## The drive unit -/

/-- `loadHead` (R121): the head is loaded if the door is closed or it was loaded already, nothing else of the record
changes, the motor feedback is always sent, and a second call changes nothing. The flag is read by nothing else (R43, R121):
the head-loaded flag, the door and the `available` flag never influence a register, a line or anything but themselves; from
two states that differ in them alone a step ends in states that differ in them alone, or stops in the same way. At these
rules it follows the spec's own decision D44 (entry 21). -/
def Obligations.LoadHeadRule : Prop :=
  (∀ D : DriveUnit,
    D.loadHead.1 = { D with headLoaded := D.headLoaded || D.doorClosed } ∧ D.loadHead.2 = [.motorSpinning] ∧
      D.loadHead.1.loadHead.1 = D.loadHead.1) ∧
  ∀ s, mapNext State.eraseHeadLoad (step s.eraseHeadLoad) = mapNext State.eraseHeadLoad (step s)

/-- `stepIn` (R123, R129): the head is loaded, the position becomes min(t + step, tracksPerDisk - 1) with step 2 on 40-track
and 1 on 80-track media; Overstep is signalled exactly from the last track; the result is never track 0. -/
def Obligations.StepInRule : Prop :=
  ∀ D : DriveUnit,
    D.stepIn.1 = { D with
      headLoaded := D.headLoaded || D.doorClosed
      trackPosition :=
        match D.tracksPerDisk with
        | .forty => min (D.trackPosition + 2) 39
        | .eighty => min (D.trackPosition + 1) 79 } ∧
    D.stepIn.2 = (if D.trackPosition = trackCount D.tracksPerDisk - 1 then [.motorSpinning, .overstep] else [.motorSpinning]) ∧
    D.stepIn.1.isTrack00 = false

/-- `stepOut` (R124), `stepMany` and `restoreHead` (R130, R131): a step outward is max(t - step, 0), by natural subtraction,
with Overstep exactly from track 0; where a run of steps leaves the head and how often it signals the motor; a restore ends
at track 0 and never oversteps. At these rules it follows the spec's own decisions D18, D21 and derived consequences (entry
21). -/
def Obligations.StepOutAndRuns : Prop :=
  (∀ D : DriveUnit,
    D.stepOut.1 = { D with
      headLoaded := D.headLoaded || D.doorClosed
      trackPosition :=
        match D.tracksPerDisk with
        | .forty => D.trackPosition - 2
        | .eighty => D.trackPosition - 1 } ∧
    D.stepOut.2 = if D.trackPosition = 0 then [.motorSpinning, .overstep] else [.motorSpinning]) ∧
  (∀ (D : DriveUnit) n, 1 ≤ n →
    (D.stepMany .inward n).1 = { D with
      headLoaded := D.headLoaded || D.doorClosed, trackPosition := positionInward D n } ∧
    (D.stepMany .outward n).1 = { D with
      headLoaded := D.headLoaded || D.doorClosed, trackPosition := positionOutward D n }) ∧
  (∀ (D : DriveUnit) dir, D.stepMany dir 0 = (D, [])) ∧
  (∀ (D : DriveUnit) dir n, (D.stepMany dir n).2.count .motorSpinning = n) ∧
  ∀ D : DriveUnit,
    D.restoreHead.1.isTrack00 = true ∧ Signal.overstep ∉ D.restoreHead.2 ∧
      (D.trackPosition ≠ 0 →
        D.restoreHead.1 = { D with headLoaded := D.headLoaded || D.doorClosed, trackPosition := 0 }) ∧
      (D.trackPosition = 0 → D.restoreHead = (D, []))

/-! ## Completion, the two lines, spin-down -/

/-- `Complete(raise)` (R150, R275): busy falls and no other status bit changes, no register changes, DRQ is left as it is,
INTRQ rises if `raise`, the selected drive's countdown is loaded, phase Idle, class None; with the motor off the countdown
then runs out without a visible change. Only Force Interrupt with i3 = 0 ends a command without raising INTRQ (Reset
abandons one without completion). -/
def Obligations.CompleteRule : Prop :=
  (∀ s raise,
    (s.complete raise).regs = { s.regs with status := s.regs.status &&& 0xFE, intrq := s.regs.intrq || raise } ∧
    (s.complete raise).seq = { s.seq with phase := .idle, activeCommandClass := .none } ∧
    (s.complete raise).latch = s.latch ∧ (s.complete raise).stepDirection = s.stepDirection ∧
    (s.complete raise).drives = drivesAfterComplete s ∧ RestUnchanged s (s.complete raise)) ∧
  (∀ n (s : State) raise t, s.statusBit motorBit = false → poll n (s.complete raise) = .next t → t.regs = (s.complete raise).regs) ∧
  (∀ i s t, exec i s = .next t → t.seq.phase = .idle → t.regs.intrq = false → ∃ i2 x, i = .forceint false i2 x) ∧
  ∀ e s t, runEvent e s = .next t → s.seq.phase ≠ .idle → t.seq.phase = .idle → t.regs.intrq = false →
    e = .reset ∨ ∃ v i2 x, e = .hostWrite .command v ∧ decode v = .forceint false i2 x

/-- `SetDRQ` and `ClearDRQ` (R152, R153): the line and STATUS[1] rise together; they fall together, and only if the line was
up; nothing else changes. At these rules it follows the spec's own decision D13 (entry 21). -/
def Obligations.RequestRules : Prop :=
  ∀ s : State,
    s.setDrq = { s with regs.drq := true, regs.status := s.regs.status ||| 0x02 } ∧
    (s.regs.drq = true → s.clearDrq = { s with regs.drq := false, regs.status := s.regs.status &&& 0xFD }) ∧
    (s.regs.drq = false → s.clearDrq = s)

/-- The spin-down of an Idle poll (R151, R146): the selected drive's countdown falls by n, never below 0; on reaching 0 the
Motor-on bit falls and the head is unloaded; a countdown at 0 changes nothing. At these rules it follows the spec's own
decisions D3, D36 (entry 21). -/
def Obligations.SpinDownRule : Prop :=
  ∀ n s, 1 ≤ n → s.seq.phase = .idle →
    (s.selected.motorSpinDownRemaining = 0 → poll n s = .next s) ∧
    (n < s.selected.motorSpinDownRemaining →
      poll n s = .next { s with
        drives := s.drives.set s.board.selDrive
          { s.selected with motorSpinDownRemaining := s.selected.motorSpinDownRemaining - n } }) ∧
    (0 < s.selected.motorSpinDownRemaining → s.selected.motorSpinDownRemaining ≤ n →
      poll n s = .next { s with
        regs.status := s.regs.status &&& 0x7F
        drives := s.drives.set s.board.selDrive
          { s.selected with motorSpinDownRemaining := 0, headLoaded := false } })

/-! ## Expiries -/

/-- A poll that does not reach the end of a wait only counts (R145, R146); the end of Settling leads to TransferPrepare with
no wait, and changes nothing else (R148). At these rules it follows the spec's own decisions D3, D23 and derived
consequences (entry 21). -/
def Obligations.WaitsCount : Prop :=
  (∀ (n : Nat) s, 1 ≤ n → s.seq.phase ≠ .idle → (n : Int) < s.seq.cyclesRemaining →
    poll n s = .next { s with seq.cyclesRemaining := s.seq.cyclesRemaining - n }) ∧
  ∀ n s, s.seq.phase = .settling → Expires n s →
    poll n s = .next { s with seq.phase := .transferPrepare, seq.cyclesRemaining := 0 }

/-- With unit polls an interval of C >= 1 cycles ends in exactly the C-th poll (R145, R321): the first C-1 polls only count,
and the C-th is the phase's expiry. At these rules it follows the spec's own decision D3 and derived consequences (entry
21). -/
def Obligations.UnitPollsExact : Prop :=
  ∀ (c : Nat) s, 1 ≤ c → s.seq.phase ≠ .idle → s.seq.cyclesRemaining = (c : Int) →
    (∀ k, 1 ≤ k → k < c →
      runScript (unitPolls k) s = some (countedDown s (c - k), [])) ∧
    ∀ t, phaseExpiry (countedDown s 0) = .next t → runScript (unitPolls c) s = some (t, t.io.readData.toList)

/-- The end of SpinUp (R147, R143) for a Type II or III command: STATUS[5] is set, the head is loaded, and the phase of the
class begins with its wait. At these rules it follows the spec's own decisions D15, D23 (entry 21). -/
def Obligations.SpinUpEndsTransfer : Prop :=
  ∀ n s, s.seq.phase = .spinUp → Expires n s → isTransferClass s.seq.activeCommandClass = true →
    ∃ t, poll n s = .next t ∧
      t.regs = { s.regs with status := s.regs.status ||| 0x20 } ∧
      t.seq = { s.seq with
        phase := classEntry s.seq.activeCommandClass s.latch.settleFlag
        cyclesRemaining := (entryWait s.cfg (classEntry s.seq.activeCommandClass s.latch.settleFlag) : Int) } ∧
      t.latch = s.latch ∧ t.stepDirection = s.stepDirection ∧
      t.drives = drivesWithHeadAt s s.selected.trackPosition ∧ RestUnchanged s t

/-- The end of SpinUp for a Type I command (R147, R143, R180 to R187): STATUS[5] is set and the latched command makes its
whole move at once, or, on a density mismatch, none, and waits `CONFUSION_TIME`. DATA and TRACK are read now (R76, R311). At
these rules it follows the spec's own decisions D6, D15, D16, D17, D18, D19, D20, D22, D23, D39, D40 and passages from
general knowledge (entry 21). -/
def Obligations.SpinUpEndsMove : Prop :=
  ∀ n s, s.seq.phase = .spinUp → Expires n s → s.seq.activeCommandClass = .typeI → isTypeIKind s.latch.cmdKind = true →
    ∃ t, poll n s = .next t ∧
      t.latch = s.latch ∧ t.stepDirection = s.stepDirection ∧ RestUnchanged s t ∧
      (seekConfused s = false →
        t.regs = { s.regs with status := s.regs.status ||| 0x20, track := moveTarget s s.latch.cmdKind } ∧
        t.seq = { s.seq with phase := .seeking, cyclesRemaining := (seekCycles s (movePassed s s.latch.cmdKind) : Int) } ∧
        t.drives = drivesWithHeadAt s (movePosition s s.latch.cmdKind)) ∧
      (seekConfused s = true →
        t.regs = { s.regs with status := s.regs.status ||| 0x20 } ∧
        t.seq = { s.seq with phase := .seeking, confusion := true, cyclesRemaining := (s.cfg.confusionTime : Int) } ∧
        t.drives = drivesWithHeadAt s s.selected.trackPosition)

/-- The end of Seeking (R186, R45, R125): Seek Error if it was the confusion sub-phase, Track00 from the selected head's
position (inverted if the board inverts), Write Protect from the drive's sensor, busy clear, INTRQ up, the countdown loaded.
At these rules it follows the spec's own decision D39 and passages from general knowledge (entry 21). -/
def Obligations.SeekEnds : Prop :=
  ∀ n s, s.seq.phase = .seeking → Expires n s →
    ∃ t, poll n s = .next t ∧
      t.regs = { s.regs with
        status := (s.regs.status &&& 0xBA)
          ||| (if s.seq.confusion then 0x10 else 0)
          ||| (if xor (decide (s.selected.trackPosition = 0)) s.cfg.track00Invert then 0x04 else 0)
          ||| (if s.selected.writeProtected then 0x40 else 0)
        intrq := true } ∧
      t.seq = { s.seq with phase := .idle, activeCommandClass := .none, cyclesRemaining := s.seq.cyclesRemaining - n } ∧
      t.latch = s.latch ∧ t.stepDirection = s.stepDirection ∧ t.drives = drivesAfterComplete s ∧
      t.io.signals = s.io.signals ∧ RestUnchanged s t

/-- The verify flag (R188) adds `VERIFY_TIME` to the wait of a move and does nothing else: not in the confusion sub-phase,
and not to what the end of Seeking reports. -/
def Obligations.VerifyOnlyDelays : Prop :=
  ∀ s t,
    enterSeeking { s with latch.verifyFlag := false } = .next t →
      enterSeeking { s with latch.verifyFlag := true } = .next { t with
        latch.verifyFlag := true
        seq.cyclesRemaining := t.seq.cyclesRemaining + if seekConfused s then 0 else (s.cfg.verifyTime : Int) } ∧
      seekExpiry { s with latch.verifyFlag := true }
        = { seekExpiry { s with latch.verifyFlag := false } with latch.verifyFlag := true }

/-- The checks of `DoTransferPrepare` in their order (R154, R273): the first that fails ends the command with its status
bit, and nothing is transferred. At these rules it follows the spec's own decisions D16, D22, D24, D25, D33 (entry 21). -/
def Obligations.PrepareChecks : Prop :=
  ∀ n s, s.seq.phase = .transferPrepare → Expires n s → isTransferClass s.seq.activeCommandClass = true →
    (isWriteClass s.seq.activeCommandClass = true ∧ (s.disk s.board.selDrive).isWriteProtected = true →
      ∃ t, poll n s = .next t ∧ AbortedAtPrepare writeProtectBit n s t) ∧
    (¬ (isWriteClass s.seq.activeCommandClass = true ∧ (s.disk s.board.selDrive).isWriteProtected = true) →
      ((s.disk s.board.selDrive).isOpen = false →
        ∃ t, poll n s = .next t ∧ AbortedAtPrepare errorBit n s t) ∧
      ((s.disk s.board.selDrive).isOpen = true →
        (s.geometry s.board.selDrive s.board.selHead s.regs.track.toNat = none →
          ∃ t, poll n s = .next t ∧ AbortedAtPrepare errorBit n s t) ∧
        ∀ g, s.geometry s.board.selDrive s.board.selHead s.regs.track.toNat = some g →
          (g.sectorCount.val = 0 ∨ g.sectorSize = 0 ∨
            (s.cfg.densityCheckOnTransfer = true ∧ s.board.selDensity ≠ (s.disk s.board.selDrive).mediaDensity) ∨
            (isSectorClass s.seq.activeCommandClass = true ∧ g.sectorCount.val ≤ s.regs.sector.toNat) →
            ∃ t, poll n s = .next t ∧ AbortedAtPrepare errorBit n s t)))

/-- `DoTransferPrepare` when every check passes (R154, R201, R202, R220, R240; R67 for the address): STATUS[5] falls, drive,
head and geometry are latched, and the class's transfer begins with its first byte time. At these rules it follows the
spec's own decisions D16, D22, D24, D25, D27, D28, D32, D33 (entry 21). -/
def Obligations.PrepareTransfers : Prop :=
  ∀ n s g, s.seq.phase = .transferPrepare → Expires n s →
    transferChecks s = .ok g → isTransferClass s.seq.activeCommandClass = true →
    ∃ t, poll n s = .next t ∧
      t.xfer.drive = s.board.selDrive ∧ t.xfer.head = s.board.selHead ∧ t.xfer.sectorCount = g.sectorCount.val ∧
      t.xfer.sectorSize = g.sectorSize ∧ t.xfer.base = g.baseOffset ∧
      t.regs.cmd = s.regs.cmd ∧ t.regs.track = s.regs.track ∧ t.regs.sector = s.regs.sector ∧ t.regs.data = s.regs.data ∧
      t.latch = s.latch ∧ t.stepDirection = s.stepDirection ∧ t.rotatingSectorCounter = s.rotatingSectorCounter ∧
      imagesUnchanged s t ∧
      (s.seq.activeCommandClass = .typeIIRead ∨ s.seq.activeCommandClass = .typeIIWrite →
        t.xfer.byteCountRemaining = g.sectorSize ∧
        t.xfer.offset = g.baseOffset + s.regs.sector.toNat * g.sectorSize) ∧
      (s.seq.activeCommandClass = .readAddress → t.xfer.byteCountRemaining = 6) ∧
      (s.seq.activeCommandClass = .typeIIRead ∨ s.seq.activeCommandClass = .readAddress →
        t.regs.drq = s.regs.drq ∧ t.regs.status = s.regs.status &&& 0xDF) ∧
      (s.seq.activeCommandClass = .typeIIWrite ∨
          (s.seq.activeCommandClass = .writeTrack ∧ s.regs.sector.toNat < g.sectorCount.val) →
        t.regs.drq = true ∧ t.regs.status = (s.regs.status &&& 0xDF) ||| 0x02) ∧
      (s.seq.activeCommandClass = .writeTrack →
        s.regs.sector.toNat < g.sectorCount.val → t.wt = { state := .scan, idIndex := 0, idSeen := false, sectorSize := 0 }) ∧
      (s.seq.activeCommandClass = .writeTrack ∧ g.sectorCount.val ≤ s.regs.sector.toNat →
        t.seq.phase = .idle ∧ t.regs.status = s.regs.status &&& 0xDE ∧ t.regs.intrq = true ∧
        t.drives = drivesAfterComplete s) ∧
      (s.seq.activeCommandClass ≠ .writeTrack ∨ s.regs.sector.toNat < g.sectorCount.val →
        t.seq = { s.seq with phase := .transferByte, cyclesRemaining := (s.cfg.byteTime : Int) } ∧
        t.regs.intrq = s.regs.intrq ∧ t.drives = s.drives)

/-- `ReadSectorByte` (R203): the byte at the transfer's offset goes to DATA (entry 10: a free byte where the image holds
none), the request rises, Lost Data if the last one was not serviced; the next byte waits `BYTE_TIME`, and after the last
one `EndOfSector` runs. No image byte changes. -/
def Obligations.ReadByteRule : Prop :=
  ∀ n s, s.seq.phase = .transferByte → Expires n s → s.seq.activeCommandClass = .typeIIRead →
    1 ≤ s.xfer.byteCountRemaining →
    ∃ t u : State, poll n s = .next t ∧ TransferFrame s u ∧ u.disks = s.disks ∧ u.wt = s.wt ∧
      u.regs = { s.regs with
        data := (s.readByte s.xfer.drive s.xfer.head s.xfer.offset).1
        drq := true
        status := lostDataStatus s ||| 0x02 } ∧
      u.xfer = { s.xfer with offset := s.xfer.offset + 1, byteCountRemaining := s.xfer.byteCountRemaining - 1 } ∧
      u.seq = { s.seq with cyclesRemaining := s.seq.cyclesRemaining - n } ∧
      (∀ b, s.imageByte s.xfer.drive s.xfer.head s.xfer.offset = some b →
        u.regs.data = b ∧ u.io.freeCount = s.io.freeCount) ∧
      (s.imageByte s.xfer.drive s.xfer.head s.xfer.offset = none →
        u.regs.data = Config.freeByte s.io.freeCount ∧ u.io.freeCount = s.io.freeCount + 1) ∧
      imagesUnchanged s t ∧
      (1 < s.xfer.byteCountRemaining → t = { u with seq.cyclesRemaining := (s.cfg.byteTime : Int) }) ∧
      (s.xfer.byteCountRemaining = 1 → t = endOfSector false u)

/-- `WriteSectorByte` (R204): DATA goes to the byte at the transfer's offset and to no other byte of any image; the request
is over, and rises again if the sector goes on; Lost Data if the last request was not serviced. At these rules it follows
the spec's own decisions D28, D29 (entry 21). That the byte is stored also in an image that was ejected or does not map the
offset is the model's unsafe choice (entry 11). -/
def Obligations.WriteByteRule : Prop :=
  ∀ n s, s.seq.phase = .transferByte → Expires n s → s.seq.activeCommandClass = .typeIIWrite →
    1 ≤ s.xfer.byteCountRemaining →
    ∃ t u : State, poll n s = .next t ∧ TransferFrame s u ∧ u.wt = s.wt ∧ u.io.freeCount = s.io.freeCount ∧
      u.regs = { s.regs with drq := false, status := lostDataStatus s &&& 0xFD } ∧
      u.xfer = { s.xfer with offset := s.xfer.offset + 1, byteCountRemaining := s.xfer.byteCountRemaining - 1 } ∧
      u.seq = { s.seq with cyclesRemaining := s.seq.cyclesRemaining - n } ∧
      OneByteWritten s.regs.data s u ∧ OneByteWritten s.regs.data s t ∧
      (1 < s.xfer.byteCountRemaining →
        t = { u with seq.cyclesRemaining := (s.cfg.byteTime : Int), regs.drq := true, regs.status := u.regs.status ||| 0x02 }) ∧
      (s.xfer.byteCountRemaining = 1 → t = endOfSector true u)

/-- `EndOfSector` (R205): a single-sector command completes; a multi-sector one increments SECTOR and either stops normally,
with no error bit, when SECTOR has reached the sector count, or goes on with the next sector of the latched geometry. At
these rules it follows the spec's own decision D26 and derived consequences (entry 21). -/
def Obligations.EndOfSectorRule : Prop :=
  ∀ isWrite (s : State),
    (s.latch.multiSectorFlag = false → endOfSector isWrite s = s.complete true) ∧
    (s.latch.multiSectorFlag = true → s.xfer.sectorCount ≤ (s.regs.sector + 1).toNat →
      endOfSector isWrite s = ({ s with regs.sector := s.regs.sector + 1 } : State).complete true) ∧
    (s.latch.multiSectorFlag = true → (s.regs.sector + 1).toNat < s.xfer.sectorCount →
      (isWrite = false → endOfSector isWrite s = { s with
        regs.sector := s.regs.sector + 1
        xfer.byteCountRemaining := s.xfer.sectorSize
        xfer.offset := s.xfer.base + (s.regs.sector + 1).toNat * s.xfer.sectorSize
        seq.cyclesRemaining := (s.cfg.byteTime : Int) }) ∧
      (isWrite = true → endOfSector isWrite s = { s with
        regs.sector := s.regs.sector + 1
        regs.drq := true
        regs.status := s.regs.status ||| 0x02
        xfer.byteCountRemaining := s.xfer.sectorSize
        xfer.offset := s.xfer.base + (s.regs.sector + 1).toNat * s.xfer.sectorSize
        seq.cyclesRemaining := (s.cfg.byteTime : Int) }))

/-- `ReadAddressByte` (R221, R222, R223): byte by byte the header is TRACK, the head, the rotating counter plus one, the
size code and the two placeholder bytes; the sixth byte advances the counter modulo the sector count and completes. Nothing
but DATA, STATUS and the lines is written (R224). At these rules it follows the spec's own decision D30 and passages from
general knowledge (entry 21). -/
def Obligations.HeaderByteRule : Prop :=
  ∀ n s, s.seq.phase = .transferByte → Expires n s → s.seq.activeCommandClass = .readAddress →
    1 ≤ s.xfer.byteCountRemaining → s.xfer.byteCountRemaining ≤ 6 →
    ∃ t u : State, poll n s = .next t ∧ TransferFrame s u ∧ u.disks = s.disks ∧ u.wt = s.wt ∧
      u.io.freeCount = s.io.freeCount ∧ imagesUnchanged s t ∧
      u.regs = { s.regs with data := u.regs.data, drq := true, status := lostDataStatus s ||| 0x02 } ∧
      u.xfer = { s.xfer with byteCountRemaining := s.xfer.byteCountRemaining - 1 } ∧
      u.seq = { s.seq with cyclesRemaining := s.seq.cyclesRemaining - n } ∧
      (s.xfer.byteCountRemaining = 6 → u.regs.data = s.regs.track) ∧
      (s.xfer.byteCountRemaining = 5 → u.regs.data = if s.xfer.head = .side0 then 0 else 1) ∧
      (s.xfer.byteCountRemaining = 4 → u.regs.data = BitVec.ofNat 8 (s.rotatingSectorCounter + 1)) ∧
      (s.xfer.byteCountRemaining = 3 →
        (s.xfer.sectorSize = 128 → u.regs.data = 0) ∧ (s.xfer.sectorSize = 256 → u.regs.data = 1) ∧
        (s.xfer.sectorSize = 512 → u.regs.data = 2) ∧ (s.xfer.sectorSize = 1024 → u.regs.data = 3)) ∧
      (s.xfer.byteCountRemaining = 2 → u.regs.data = s.cfg.crcFirst) ∧
      (s.xfer.byteCountRemaining = 1 → u.regs.data = s.cfg.crcSecond) ∧
      (1 < s.xfer.byteCountRemaining → t = { u with seq.cyclesRemaining := (s.cfg.byteTime : Int) }) ∧
      (s.xfer.byteCountRemaining = 1 →
        t = ({ u with rotatingSectorCounter := (s.rotatingSectorCounter + 1) % s.xfer.sectorCount } : State).complete true)

/-- `WriteTrackByte` outside a data block (R241, R242, R243): 0xFE opens an ID field, its fourth byte gives the size, 0xFB
after a complete ID field opens a data block at SECTOR, every other byte is ignored; no image byte changes, and the next
byte is asked for. At these rules it follows the spec's own decision D32 and passages from general knowledge (entry 21). -/
def Obligations.FormatStreamRule : Prop :=
  ∀ n s, s.seq.phase = .transferByte → Expires n s → s.seq.activeCommandClass = .writeTrack → s.wt.state ≠ .data →
    ∃ t, poll n s = .next t ∧ TransferFrame s t ∧ imagesUnchanged s t ∧
      t.regs = { s.regs with drq := true, status := lostDataStatus s ||| 0x02 } ∧
      t.seq = { s.seq with cyclesRemaining := (s.cfg.byteTime : Int) } ∧
      (s.wt.state = .scan →
        (s.regs.data = 0xFE → t.wt = { s.wt with state := .id, idIndex := 0 } ∧ t.xfer = s.xfer) ∧
        (s.regs.data = 0xFB → s.wt.idSeen = true →
          t.wt = { s.wt with state := .data } ∧
          t.xfer = { s.xfer with byteCountRemaining := s.wt.sectorSize,
                                 offset := s.xfer.base + s.regs.sector.toNat * s.wt.sectorSize }) ∧
        (s.regs.data = 0xFB → s.wt.idSeen = false → t.wt = s.wt ∧ t.xfer = s.xfer) ∧
        (s.regs.data ≠ 0xFE → s.regs.data ≠ 0xFB → t.wt = s.wt ∧ t.xfer = s.xfer)) ∧
      (s.wt.state = .id →
        t.xfer = s.xfer ∧
        (s.wt.idIndex < 3 → t.wt = { s.wt with idIndex := s.wt.idIndex + 1 }) ∧
        (3 ≤ s.wt.idIndex →
          t.wt = { s.wt with state := .scan, idSeen := true, sectorSize := 128 * 2 ^ (s.regs.data.toNat % 4) }))

/-- `WriteTrackByte` inside a data block (R241, R244): DATA goes to the byte at the transfer's offset and to no other; the
last byte of the block increments SECTOR, closes the block and completes the command when the track's budget is used up. At
these rules it follows the spec's own decision D32 (entry 21). That the byte is stored also in an image that was ejected or
does not map the offset is the model's unsafe choice (entry 11). -/
def Obligations.FormatDataRule : Prop :=
  ∀ n s, s.seq.phase = .transferByte → Expires n s → s.seq.activeCommandClass = .writeTrack → s.wt.state = .data →
    1 ≤ s.xfer.byteCountRemaining →
    ∃ t, poll n s = .next t ∧ OneByteWritten s.regs.data s t ∧
      t.xfer = { s.xfer with offset := s.xfer.offset + 1, byteCountRemaining := s.xfer.byteCountRemaining - 1 } ∧
      (1 < s.xfer.byteCountRemaining →
        TransferFrame s t ∧ t.wt = s.wt ∧
        t.regs = { s.regs with drq := true, status := lostDataStatus s ||| 0x02 } ∧
        t.seq = { s.seq with cyclesRemaining := (s.cfg.byteTime : Int) }) ∧
      (s.xfer.byteCountRemaining = 1 → (s.regs.sector + 1).toNat < s.xfer.sectorCount →
        TransferFrame s t ∧ t.wt = { s.wt with state := .scan, idSeen := false } ∧
        t.regs = { s.regs with sector := s.regs.sector + 1, drq := true, status := lostDataStatus s ||| 0x02 } ∧
        t.seq = { s.seq with cyclesRemaining := (s.cfg.byteTime : Int) }) ∧
      (s.xfer.byteCountRemaining = 1 → s.xfer.sectorCount ≤ (s.regs.sector + 1).toNat →
        t.wt = { s.wt with state := .scan, idSeen := false } ∧
        t.regs = { s.regs with
          sector := s.regs.sector + 1, drq := false, status := lostDataStatus s &&& 0xFC, intrq := true } ∧
        t.seq = { s.seq with phase := .idle, activeCommandClass := .none, cyclesRemaining := s.seq.cyclesRemaining - n } ∧
        t.drives = drivesAfterComplete s ∧ t.latch = s.latch ∧ t.stepDirection = s.stepDirection)

/-! ## The register window, the index pulse, reset, the environment -/

/-- A read of offset 0 (R61, R38, R276): while a Type I command is active bit 1 flips first; the value after the flip is
answered and INTRQ falls; nothing else changes. At these rules it follows the spec's own decisions D12, D37, passages from
general knowledge and derived consequences (entry 21). Where the answer is left is the model's (entry 23). -/
def Obligations.StatusReadRule : Prop :=
  ∀ s : State,
    (s.seq.activeCommandClass = .typeI →
      hostRead .command s = { s with
        regs.status := s.regs.status ^^^ 0x02, regs.intrq := false, io.readData := some (s.regs.status ^^^ 0x02) }) ∧
    (s.seq.activeCommandClass ≠ .typeI →
      hostRead .command s = { s with regs.intrq := false, io.readData := some s.regs.status })

/-- Offset 1 (R63): a read answers TRACK and changes nothing; a write stores it when Idle and is a hazard otherwise; while a
Type I command waits in Seeking the read answers its target. The fault while busy follows the spec's own decision D40
(entries 13, 21), the target during Seeking its decision D17 (entry 21), and where the answer is left is the model's (entry
23). -/
def Obligations.TrackRegisterRule : Prop :=
  (∀ s, hostRead .track s = { s with io.readData := some s.regs.track }) ∧
  (∀ v s, s.seq.phase = .idle → writeTrackRegister v s = .next { s with regs.track := v }) ∧
  (∀ v s, s.seq.phase ≠ .idle → writeTrackRegister v s = .fault .trackWriteWhileBusy) ∧
  ∀ i l target passed position dir s t, EnteredSeeking i l target passed position dir s t →
    (hostRead .track t).io.readData = some target

/-- Offset 2 (R64): the selected image's bias is added on a read and subtracted on a write, modulo 256, so that a written
value reads back. At these rules it follows the spec's own decision D38 (entry 21). Where the answer is left is the model's
(entry 23). -/
def Obligations.SectorRegisterRule : Prop :=
  (∀ s, (s.disk s.board.selDrive).sectorBias = false →
    hostRead .sector s = { s with io.readData := some s.regs.sector }) ∧
  (∀ s, (s.disk s.board.selDrive).sectorBias = true →
    hostRead .sector s = { s with io.readData := some (s.regs.sector + 1) }) ∧
  (∀ v s, s.seq.phase = .idle → (s.disk s.board.selDrive).sectorBias = false →
    writeSectorRegister v s = .next { s with regs.sector := v }) ∧
  (∀ v s, s.seq.phase = .idle → (s.disk s.board.selDrive).sectorBias = true →
    writeSectorRegister v s = .next { s with regs.sector := v - 1 }) ∧
  ∀ v s t, writeSectorRegister v s = .next t → (hostRead .sector t).io.readData = some v

/-- Offset 3 (R65, R153): a read answers DATA, a write stores it, in every phase; both withdraw a pending request. At these
rules it follows the spec's own decision D13 (entry 21). Where the answer is left is the model's (entry 23). -/
def Obligations.DataRegisterRule : Prop :=
  ∀ (s : State) v,
    (s.regs.drq = true →
      hostRead .data s = { s with
        regs.drq := false, regs.status := s.regs.status &&& 0xFD, io.readData := some s.regs.data } ∧
      writeDataRegister v s = { s with regs.data := v, regs.drq := false, regs.status := s.regs.status &&& 0xFD }) ∧
    (s.regs.drq = false →
      hostRead .data s = { s with io.readData := some s.regs.data } ∧
      writeDataRegister v s = { s with regs.data := v })

/-- The board's address decoding (R8, R70): the four offsets from BASE, and nothing else, are the four registers. At these
rules it follows the spec's own decisions D45, D46 (entry 21). That no other address is a register, so no mirroring, is the
model's choice (entry 30). -/
def Obligations.WindowAddresses : Prop :=
  ∀ (c : Config) address reg, registerAt c address = some reg ↔ address = busAddress c reg

/-- The index pulse (R254, R255): it fires a pending deferred interrupt once and has no other effect; it cannot occur with
the motor stopped. At these rules it follows the spec's own decisions D34, D35 (entry 21). -/
def Obligations.IndexPulseRule : Prop :=
  ∀ s,
    (s.statusBit motorBit = true → s.seq.activeCommandClass = .forceInterrupt →
      indexPulse s = .next { s with regs.intrq := true, seq.activeCommandClass := .none }) ∧
    (s.statusBit motorBit = true → s.seq.activeCommandClass ≠ .forceInterrupt → indexPulse s = .next s) ∧
    (s.statusBit motorBit = false → indexPulse s = .fault .indexPulseMotorStopped)

/-- The Reset event (R300, R301, R302, R50), in every state and for every value of the registers the table leaves open:
Idle, STATUS 0, both lines low, both heads unloaded and both countdowns 0; no head moves, no image byte changes, the
environment's inputs stay. The state right after power-on has the values of the same table; the registers the table leaves
open are not mentioned (their values are the model's choice, entries 3 to 8). At these rules it follows the spec's own
decision D41 and derived consequences (entry 21). -/
def Obligations.ResetRule : Prop :=
  (∀ s,
    (resetEvent s).regs.status = 0 ∧ (resetEvent s).regs.intrq = false ∧ (resetEvent s).regs.drq = false ∧
    (resetEvent s).seq = { phase := .idle, activeCommandClass := .none, cyclesRemaining := 0, confusion := false } ∧
    (resetEvent s).latch.hFlag = false ∧ (resetEvent s).latch.verifyFlag = false ∧
    (resetEvent s).latch.stepRateSel = 0 ∧ (resetEvent s).latch.multiSectorFlag = false ∧
    (resetEvent s).latch.settleFlag = false ∧ (resetEvent s).rotatingSectorCounter = 0 ∧
    (resetEvent s).xfer = State.reset.xfer ∧ (resetEvent s).wt = State.reset.wt ∧
    (∀ d, (resetEvent s).drive d = { s.drive d with headLoaded := false, motorSpinDownRemaining := 0 }) ∧
    (resetEvent s).board = s.board ∧ (resetEvent s).disks = s.disks ∧ (resetEvent s).cfg = s.cfg ∧
    imagesUnchanged s (resetEvent s)) ∧
  State.reset.regs.status = 0 ∧ State.reset.regs.intrq = false ∧ State.reset.regs.drq = false ∧
  State.reset.seq = { phase := .idle, activeCommandClass := .none, cyclesRemaining := 0, confusion := false } ∧
  State.reset.latch.hFlag = false ∧ State.reset.latch.verifyFlag = false ∧ State.reset.latch.stepRateSel = 0 ∧
  State.reset.latch.multiSectorFlag = false ∧ State.reset.latch.settleFlag = false ∧
  State.reset.rotatingSectorCounter = 0 ∧
  State.reset.xfer = { drive := .drive0, head := .side0, sectorCount := 0, sectorSize := 0, base := 0, offset := 0,
                       byteCountRemaining := 0 } ∧
  State.reset.wt = { state := .scan, idIndex := 0, idSeen := false, sectorSize := 0 } ∧
  ∀ d, (State.reset.drive d).headLoaded = false ∧ (State.reset.drive d).motorSpinDownRemaining = 0

/-- A change of a collaborator's input (R313, R283) changes nothing of the controller, in any phase; only a change of media
or of image contents changes an image byte, and only of its drive. At these rules it follows the spec's own decisions D42,
D47 (entry 21). -/
def Obligations.EnvironmentFrame : Prop :=
  ∀ c s t, environmentChange c s = .next t →
    t.regs = s.regs ∧ t.seq = s.seq ∧ t.latch = s.latch ∧ t.stepDirection = s.stepDirection ∧
    t.rotatingSectorCounter = s.rotatingSectorCounter ∧ t.xfer = s.xfer ∧ t.wt = s.wt ∧ t.cfg = s.cfg ∧ t.io = s.io ∧
    ∀ d h offset, t.imageByte d h offset ≠ s.imageByte d h offset →
      (∃ image, c = .insertMedia d image) ∨ c = .ejectMedia d

/-! ## Rules of the whole machine -/

/-- Every step keeps the invariant (R22, R26, R28, R30, R33, R41, R145, R271; the canonical form of the images). At these
rules it follows the spec's own decisions D3, D10, D14, passages from general knowledge and derived consequences (entry 21).
The canonical form of the images is the model's (entry 10). -/
def Obligations.InvariantKept : Prop := ∀ s t, Invariant s → step s = .next t → Invariant t

/-- The machine right after reset meets the invariant. The head position and the empty images it meets are the model's
(entries 6, 7); the invariant asks only for the range and the form. -/
def Obligations.InvariantAtReset : Prop := Invariant State.reset

/-- In a state that meets the invariant a step stops exactly on an event whose precondition is broken (R310, R146, R254,
R42): every legal event, in every phase, has a next state (R6, R260). At these rules it follows the spec's own decisions D3,
D35, D40 (entry 21). Entries 13, 14, 15, 17, 18. -/
def Obligations.LegalEventsRun : Prop :=
  ∀ s e, Invariant s → s.nextEvent = some e →
    ((∃ t, step s = .next t) ↔ e.legal s.eventState = true)

/-- The phase after every event: the transition table of R144 with its conditions, and no other transition. The conditions
are those of R140 and R143 (SpinUp, and the phase a class enters), R154 and R240 (the checks at prepare, the density check
among them, which R144's row does not list), R205, R221 and R244 (the last byte), and R230 (Read Track). At these rules it
follows the spec's own decisions D11, D12, D15, D16, D22, D23, D24, D25, D26, D30, D31, D32, D33, passages from general
knowledge and derived consequences (entry 21). -/
def Obligations.PhaseTransitions : Prop :=
  State.reset.seq.phase = .idle ∧
  ∀ e s t, Invariant s → runEvent e s = .next t →
    match e with
    | .hostWrite .command v =>
      t.seq.phase =
        if startedClass (decode v) = .none then .idle
        else if skipsSpinUp s (decode v) then classEntry (startedClass (decode v)) (latchedFields (decode v)).settleFlag
        else .spinUp
    | .reset => t.seq.phase = .idle
    | .poll n =>
      ((n : Int) < s.seq.cyclesRemaining → t.seq.phase = s.seq.phase) ∧
      (s.seq.cyclesRemaining ≤ (n : Int) →
        (s.seq.phase = .idle → t.seq.phase = .idle) ∧
        (s.seq.phase = .spinUp → t.seq.phase = classEntry s.seq.activeCommandClass s.latch.settleFlag) ∧
        (s.seq.phase = .settling → t.seq.phase = .transferPrepare) ∧
        (s.seq.phase = .seeking → t.seq.phase = .idle) ∧
        (s.seq.phase = .transferPrepare →
          t.seq.phase =
            match transferChecks s with
            | .error _ => .idle
            | .ok g =>
              if s.seq.activeCommandClass = .writeTrack ∧ g.sectorCount.val ≤ s.regs.sector.toNat then .idle
              else .transferByte) ∧
        (s.seq.phase = .transferByte →
          t.seq.phase = if lastByteOfCommand s then .idle else .transferByte))
    | .hostWrite .track _ | .hostWrite .sector _ | .hostWrite .data _ | .hostRead _ | .indexPulse | .environment _ =>
      t.seq.phase = s.seq.phase

/-- An image byte changes only by the environment or by a byte expiry of Write Sector or of a Write Track data block, and
then only at the transfer's own place, where DATA is stored (R66, R204, R244; R73 for the protection at prepare). At these
rules it follows the spec's own decisions D22, D25, D28, D29, D32, D38 (entry 21). That the byte is stored also in an image
that was ejected or does not map the offset is the model's unsafe choice (entry 11). -/
def Obligations.ImageWriters : Prop :=
  ∀ s t e d h offset, runEvent e s = .next t → (∀ c, e ≠ .environment c) →
    t.imageByte d h offset ≠ s.imageByte d h offset →
      (∃ n, e = .poll n) ∧ s.seq.phase = .transferByte ∧
      (s.seq.activeCommandClass = .typeIIWrite ∨ (s.seq.activeCommandClass = .writeTrack ∧ s.wt.state = .data)) ∧
      d = s.xfer.drive ∧ h = s.xfer.head ∧ offset = s.xfer.offset ∧ t.imageByte d h offset = some s.regs.data

/-- INTRQ (R270): it rises only at a poll that ends a command, at Read Track, at a Force Interrupt with i3, or at the index
pulse of a pending one; every poll that ends a command raises it; it falls only at a status read, a command write or Reset.
At these rules it follows the spec's own decision D12 and passages from general knowledge (entry 21). -/
def Obligations.InterruptSources : Prop :=
  ∀ e s t, runEvent e s = .next t →
    (s.regs.intrq = false → t.regs.intrq = true →
      (∃ n, e = .poll n ∧ s.seq.phase ≠ .idle ∧ t.seq.phase = .idle) ∨
      (∃ v x, e = .hostWrite .command v ∧ decode v = .rdtrk x) ∨
      (∃ v i2 x, e = .hostWrite .command v ∧ decode v = .forceint true i2 x) ∨
      (e = .indexPulse ∧ s.seq.activeCommandClass = .forceInterrupt)) ∧
    (∀ n, e = .poll n → s.seq.phase ≠ .idle → t.seq.phase = .idle → t.regs.intrq = true) ∧
    (s.regs.intrq = true → t.regs.intrq = false → e = .hostRead .command ∨ (∃ v, e = .hostWrite .command v) ∨ e = .reset)

/-- DRQ (R271): it rises only at prepare of a write and at a byte expiry; it falls only at an access of offset 3, a command
write that is not Force Interrupt, Reset, and the expiry that ends a write. -/
def Obligations.RequestSources : Prop :=
  ∀ e s t, runEvent e s = .next t →
    (s.regs.drq = false → t.regs.drq = true →
      (∃ n, e = .poll n) ∧
      (s.seq.phase = .transferByte ∨
        (s.seq.phase = .transferPrepare ∧ isWriteClass s.seq.activeCommandClass = true))) ∧
    (s.regs.drq = true → t.regs.drq = false →
      e = .hostRead .data ∨ (∃ v, e = .hostWrite .data v) ∨ e = .reset ∨
      (∃ v, e = .hostWrite .command v ∧ commandKind (decode v) ≠ .forceInterrupt) ∨
      ((∃ n, e = .poll n) ∧ s.seq.phase = .transferByte ∧ isWriteClass s.seq.activeCommandClass = true ∧
        t.seq.phase = .idle))

/-- Only the selected drive's mechanics are advanced (R282): the other drive's record changes only by the environment or
Reset. A head moves only on entry to Seeking without confusion, or by the environment (R180, R187, R300, R318). At these
rules it follows the spec's own decisions D16, D17, D22, D41 and derived consequences (entry 21). -/
def Obligations.DriveChanges : Prop :=
  (∀ e s t d, runEvent e s = .next t → (∀ c, e ≠ .environment c) → e ≠ .reset → d ≠ s.board.selDrive →
    t.drive d = s.drive d) ∧
  ∀ e s t d, runEvent e s = .next t → (t.drive d).trackPosition ≠ (s.drive d).trackPosition →
    (d = s.board.selDrive ∧ t.seq.phase = .seeking ∧ s.seq.phase ≠ .seeking ∧ seekConfused s = false) ∨
    ∃ tracks position, e = .environment (.setTracksPerDisk d tracks position) ∧ (t.drive d).trackPosition = position

/-- The error bit is sticky in every event but a command write (not Force Interrupt) and Reset, and so are Lost Data and
Write Protect outside the end of Seeking, where the same bits report sensors (R263, R155). -/
def Obligations.ErrorBitsSticky : Prop :=
  ∀ e s t, runEvent e s = .next t → e ≠ .reset →
    (∀ v, e = .hostWrite .command v → commandKind (decode v) = .forceInterrupt) →
    (s.statusBit errorBit = true → t.statusBit errorBit = true) ∧
    (s.seq.phase ≠ .seeking →
      (s.statusBit lostDataBit = true → t.statusBit lostDataBit = true) ∧
      (s.statusBit writeProtectBit = true → t.statusBit writeProtectBit = true))

/-- Who writes CMD, TRACK, SECTOR and DATA (R21, R23, R24, R25, R318): the host, and of the controller only entry to Seeking
(TRACK), the end of a sector (SECTOR) and the bytes of Read Sector and Read Address (DATA); Reset draws them. At these rules
it follows the spec's own derived consequences (entry 21). -/
def Obligations.RegisterWriters : Prop :=
  ∀ e s t, runEvent e s = .next t → e ≠ .reset →
    (t.regs.cmd ≠ s.regs.cmd → e = .hostWrite .command t.regs.cmd) ∧
    (t.regs.track ≠ s.regs.track →
      e = .hostWrite .track t.regs.track ∨ (t.seq.phase = .seeking ∧ s.seq.phase ≠ .seeking ∧ seekConfused s = false)) ∧
    (t.regs.sector ≠ s.regs.sector →
      e = .hostWrite .sector (t.regs.sector + sectorBias s) ∨
      ((∃ n, e = .poll n) ∧ s.seq.phase = .transferByte ∧ s.seq.activeCommandClass ≠ .readAddress ∧
        t.regs.sector = s.regs.sector + 1)) ∧
    (t.regs.data ≠ s.regs.data →
      e = .hostWrite .data t.regs.data ∨
      ((∃ n, e = .poll n) ∧ s.seq.phase = .transferByte ∧
        (s.seq.activeCommandClass = .typeIIRead ∨ s.seq.activeCommandClass = .readAddress)))

/-! ## Whole commands -/

/-- A Type I command from its write to its end, with spin-up skipped, no density mismatch and unit polls (R180 to R186,
R320, R321): it is busy for exactly N = tracks * rate + verify polls (one poll if N is 0), then TRACK is the target, the
head where the command drives it, STATUS the sensors, INTRQ up. At these rules it follows the spec's own decisions D3, D4,
D6, D16, D17, D18, D19, D20, D22, D39 and passages from general knowledge (entry 21). -/
def Obligations.TypeICommandRuns : Prop :=
  ∀ v s N, startedClass (decode v) = .typeI → s.seq.phase = .idle → skipsSpinUp s (decode v) = true →
    seekConfused s = false →
    N = movePassed s (commandKind (decode v)) * stepRateCycles s.cfg (latchedFields (decode v)).stepRateSel
      + (if (latchedFields (decode v)).verifyFlag then s.cfg.verifyTime else 0) →
    (∀ k, k < max N 1 →
      ∃ u, runScript (.hostWrite .command v :: unitPolls k) s = some (u, []) ∧
        u.statusBit busyBit = true ∧ u.regs.intrq = false) ∧
    ∃ t, runScript (.hostWrite .command v :: unitPolls (max N 1)) s = some (t, []) ∧
      t.regs = { s.regs with
        cmd := v, track := moveTarget s (commandKind (decode v)), intrq := true, drq := false,
        status := typeIEndStatus s.cfg { s.selected with trackPosition := movePosition s (commandKind (decode v)) } } ∧
      t.seq.phase = .idle ∧ t.seq.activeCommandClass = .none ∧
      t.stepDirection = directionAfter (decode v) s.stepDirection ∧
      t.drives = s.drives.set s.board.selDrive { s.selected with
        headLoaded := s.selected.headLoaded || s.selected.doorClosed
        trackPosition := movePosition s (commandKind (decode v))
        motorSpinDownRemaining := s.cfg.spinDownTime } ∧
      imagesUnchanged s t

/-- Reset and then RESTORE (R181, R300, and the property that Restore always ends with TRACK 0), from every state and for
every value the Reset draws: with no density mismatch some number of unit polls ends it with TRACK 0, the selected head at
0, not busy and INTRQ up. At these rules it follows the spec's own decisions D17, D18, D41 (entry 21). -/
def Obligations.RestoreAfterReset : Prop :=
  ∀ h v r s, r < 4 → seekConfused s = false →
    ∃ n t, runScript (.reset :: .hostWrite .command (encode (.restore h v r)) :: unitPolls n) s = some (t, []) ∧
      t.seq.phase = .idle ∧ t.regs.track = 0 ∧ t.selected.trackPosition = 0 ∧ t.regs.intrq = true ∧
      t.regs.status = typeIEndStatus s.cfg { s.selected with trackPosition := 0 }

/-- Read Sector from its write to its end (R201, R203, R205): with the motor on and the sector present, a host that collects
each byte within its byte time gets exactly the bytes the image holds, of one sector, or with m = 1 of every sector from
SECTOR to the end of the track; no image byte changes, and the command ends with STATUS 0x80 and INTRQ. At these rules it
follows the spec's own decisions D26, D27 and derived consequences (entry 21). -/
def Obligations.ReadSectorDelivers : Prop :=
  ∀ v m x s g bs, decode v = .rdsec m false x → s.seq.phase = .idle → s.statusBit motorBit = true →
    s.cfg.wellFormed = true → (s.disk s.board.selDrive).isOpen = true → s.cfg.densityCheckOnTransfer = false →
    s.geometry s.board.selDrive s.board.selHead s.regs.track.toNat = some g →
    s.regs.sector.toNat < g.sectorCount.val → 1 ≤ g.sectorSize →
    bs.length = (if m then g.sectorCount.val - s.regs.sector.toNat else 1) * g.sectorSize →
    HoldsBytes s s.board.selDrive s.board.selHead (sectorOffset g.baseOffset s.regs.sector.toNat g.sectorSize) bs →
    ∃ t, runScript (.hostWrite .command v :: .poll 1 :: collectScript s.cfg.byteTime bs.length) s = some (t, bs) ∧
      t.seq.phase = .idle ∧ t.seq.activeCommandClass = .none ∧
      t.regs.status = 0x80 ∧ t.regs.intrq = true ∧ t.regs.drq = false ∧ t.regs.track = s.regs.track ∧
      t.regs.sector = (if m then BitVec.ofNat 8 g.sectorCount.val else s.regs.sector) ∧
      some t.regs.data = bs.getLast? ∧ imagesUnchanged s t

/-- Write Sector from its write to its end (R202, R204, R205): with the motor on, the media not protected and the sector
present, a host that supplies each byte within its byte time has exactly those bytes stored, in one sector, or with m = 1 in
every sector from SECTOR to the end of the track, and no other byte of any image changed. At these rules it follows the
spec's own decisions D26, D28, D29 and derived consequences (entry 21). -/
def Obligations.WriteSectorStores : Prop :=
  ∀ v m x s g bs, decode v = .wrsec m false x → s.seq.phase = .idle → s.statusBit motorBit = true →
    s.cfg.wellFormed = true → (s.disk s.board.selDrive).isOpen = true →
    (s.disk s.board.selDrive).isWriteProtected = false → s.cfg.densityCheckOnTransfer = false →
    s.geometry s.board.selDrive s.board.selHead s.regs.track.toNat = some g →
    s.regs.sector.toNat < g.sectorCount.val → 1 ≤ g.sectorSize →
    bs.length = (if m then g.sectorCount.val - s.regs.sector.toNat else 1) * g.sectorSize →
    ∃ t, runScript (.hostWrite .command v :: .poll 1 :: supplyScript s.cfg.byteTime bs) s = some (t, []) ∧
      t.seq.phase = .idle ∧ t.seq.activeCommandClass = .none ∧
      t.regs.status = 0x80 ∧ t.regs.intrq = true ∧ t.regs.drq = false ∧ t.regs.track = s.regs.track ∧
      t.regs.sector = (if m then BitVec.ofNat 8 g.sectorCount.val else s.regs.sector) ∧
      HoldsBytes t s.board.selDrive s.board.selHead (sectorOffset g.baseOffset s.regs.sector.toNat g.sectorSize) bs ∧
      OnlyRangeWritten s t s.board.selDrive s.board.selHead
        (sectorOffset g.baseOffset s.regs.sector.toNat g.sectorSize) bs.length

/-- One sector of a Write Track stream (R241 to R244): while the command scans, an ID field whose size code is `c`, the data
mark and the data store exactly the data at SECTOR's place, SECTOR goes on by one, and the command ends when the track's
budget is used up. The track, side and sector bytes of the ID field choose nothing. At these rules it follows the spec's own
decision D32 and passages from general knowledge (entry 21). That the data is held also in an image that was ejected or does
not map the offsets the size code gives is the model's unsafe choice (entry 11). -/
def Obligations.FormatsOneSector : Prop :=
  ∀ (a b k c : Byte) data s, s.seq.phase = .transferByte → s.seq.activeCommandClass = .writeTrack → s.wt.state = .scan →
    s.cfg.wellFormed = true → s.seq.cyclesRemaining ≤ (s.cfg.byteTime : Int) →
    s.regs.sector.toNat < s.xfer.sectorCount → s.xfer.sectorCount ≤ 255 → data.length = 128 * 2 ^ (c.toNat % 4) →
    ∃ t, runScript (supplyScript s.cfg.byteTime ([0xFE, a, b, k, c, 0xFB] ++ data)) s = some (t, []) ∧
      HoldsBytes t s.xfer.drive s.xfer.head (sectorOffset s.xfer.base s.regs.sector.toNat data.length) data ∧
      OnlyRangeWritten s t s.xfer.drive s.xfer.head (sectorOffset s.xfer.base s.regs.sector.toNat data.length) data.length ∧
      t.regs.sector = s.regs.sector + 1 ∧ t.statusBit lostDataBit = s.statusBit lostDataBit ∧
      (s.regs.sector.toNat + 1 < s.xfer.sectorCount →
        t.seq.phase = .transferByte ∧ t.seq.activeCommandClass = .writeTrack ∧ t.wt.state = .scan ∧ t.wt.idSeen = false ∧
        t.regs.drq = true ∧ t.regs.intrq = s.regs.intrq) ∧
      (s.regs.sector.toNat + 1 = s.xfer.sectorCount →
        t.seq.phase = .idle ∧ t.regs.drq = false ∧ t.regs.intrq = true)

/-- Every command but Write Track ends, whatever the host does not do (R157): from every busy state of the invariant some
number of unit polls leads to Idle. At these rules it follows the spec's own derived consequences (entry 21). -/
def Obligations.CommandsEnd : Prop :=
  ∀ s, Invariant s → s.seq.activeCommandClass ≠ .writeTrack → s.seq.phase ≠ .idle →
    ∃ n t, runScript (unitPolls n) s = some (t, []) ∧ t.seq.phase = .idle ∧ t.statusBit busyBit = false ∧
      t.regs.intrq = true
end

