-- ==== Sys2Proof/Laws/State.lean ====
section
/-! SUPPORT. One lemma for each field under each named update of the state: what the update stores there, or that it leaves
the field alone. No later proof unfolds an update. -/

namespace Sys2Proof.Machine

variable (s : State)

/-! ### setCommand -/

@[simp] theorem State.setCommand_cfg (v : Byte) : (s.setCommand v).cfg = s.cfg := rfl
@[simp] theorem State.setCommand_cmd (v : Byte) : (s.setCommand v).regs.cmd = v := rfl
@[simp] theorem State.setCommand_status (v : Byte) : (s.setCommand v).regs.status = s.regs.status := rfl
@[simp] theorem State.setCommand_track (v : Byte) : (s.setCommand v).regs.track = s.regs.track := rfl
@[simp] theorem State.setCommand_sector (v : Byte) : (s.setCommand v).regs.sector = s.regs.sector := rfl
@[simp] theorem State.setCommand_data (v : Byte) : (s.setCommand v).regs.data = s.regs.data := rfl
@[simp] theorem State.setCommand_intrq (v : Byte) : (s.setCommand v).regs.intrq = s.regs.intrq := rfl
@[simp] theorem State.setCommand_drq (v : Byte) : (s.setCommand v).regs.drq = s.regs.drq := rfl
@[simp] theorem State.setCommand_seq (v : Byte) : (s.setCommand v).seq = s.seq := rfl
@[simp] theorem State.setCommand_latch (v : Byte) : (s.setCommand v).latch = s.latch := rfl
@[simp] theorem State.setCommand_stepDirection (v : Byte) :
    (s.setCommand v).stepDirection = s.stepDirection := rfl
@[simp] theorem State.setCommand_rotatingSectorCounter (v : Byte) :
    (s.setCommand v).rotatingSectorCounter = s.rotatingSectorCounter := rfl
@[simp] theorem State.setCommand_xfer (v : Byte) : (s.setCommand v).xfer = s.xfer := rfl
@[simp] theorem State.setCommand_wt (v : Byte) : (s.setCommand v).wt = s.wt := rfl
@[simp] theorem State.setCommand_drives (v : Byte) : (s.setCommand v).drives = s.drives := rfl
@[simp] theorem State.setCommand_board (v : Byte) : (s.setCommand v).board = s.board := rfl
@[simp] theorem State.setCommand_disks (v : Byte) : (s.setCommand v).disks = s.disks := rfl
@[simp] theorem State.setCommand_io (v : Byte) : (s.setCommand v).io = s.io := rfl

/-! ### setTrack -/

@[simp] theorem State.setTrack_cfg (v : Byte) : (s.setTrack v).cfg = s.cfg := rfl
@[simp] theorem State.setTrack_cmd (v : Byte) : (s.setTrack v).regs.cmd = s.regs.cmd := rfl
@[simp] theorem State.setTrack_status (v : Byte) : (s.setTrack v).regs.status = s.regs.status := rfl
@[simp] theorem State.setTrack_track (v : Byte) : (s.setTrack v).regs.track = v := rfl
@[simp] theorem State.setTrack_sector (v : Byte) : (s.setTrack v).regs.sector = s.regs.sector := rfl
@[simp] theorem State.setTrack_data (v : Byte) : (s.setTrack v).regs.data = s.regs.data := rfl
@[simp] theorem State.setTrack_intrq (v : Byte) : (s.setTrack v).regs.intrq = s.regs.intrq := rfl
@[simp] theorem State.setTrack_drq (v : Byte) : (s.setTrack v).regs.drq = s.regs.drq := rfl
@[simp] theorem State.setTrack_seq (v : Byte) : (s.setTrack v).seq = s.seq := rfl
@[simp] theorem State.setTrack_latch (v : Byte) : (s.setTrack v).latch = s.latch := rfl
@[simp] theorem State.setTrack_stepDirection (v : Byte) :
    (s.setTrack v).stepDirection = s.stepDirection := rfl
@[simp] theorem State.setTrack_rotatingSectorCounter (v : Byte) :
    (s.setTrack v).rotatingSectorCounter = s.rotatingSectorCounter := rfl
@[simp] theorem State.setTrack_xfer (v : Byte) : (s.setTrack v).xfer = s.xfer := rfl
@[simp] theorem State.setTrack_wt (v : Byte) : (s.setTrack v).wt = s.wt := rfl
@[simp] theorem State.setTrack_drives (v : Byte) : (s.setTrack v).drives = s.drives := rfl
@[simp] theorem State.setTrack_board (v : Byte) : (s.setTrack v).board = s.board := rfl
@[simp] theorem State.setTrack_disks (v : Byte) : (s.setTrack v).disks = s.disks := rfl
@[simp] theorem State.setTrack_io (v : Byte) : (s.setTrack v).io = s.io := rfl

/-! ### setSector -/

@[simp] theorem State.setSector_cfg (v : Byte) : (s.setSector v).cfg = s.cfg := rfl
@[simp] theorem State.setSector_cmd (v : Byte) : (s.setSector v).regs.cmd = s.regs.cmd := rfl
@[simp] theorem State.setSector_status (v : Byte) : (s.setSector v).regs.status = s.regs.status := rfl
@[simp] theorem State.setSector_track (v : Byte) : (s.setSector v).regs.track = s.regs.track := rfl
@[simp] theorem State.setSector_sector (v : Byte) : (s.setSector v).regs.sector = v := rfl
@[simp] theorem State.setSector_data (v : Byte) : (s.setSector v).regs.data = s.regs.data := rfl
@[simp] theorem State.setSector_intrq (v : Byte) : (s.setSector v).regs.intrq = s.regs.intrq := rfl
@[simp] theorem State.setSector_drq (v : Byte) : (s.setSector v).regs.drq = s.regs.drq := rfl
@[simp] theorem State.setSector_seq (v : Byte) : (s.setSector v).seq = s.seq := rfl
@[simp] theorem State.setSector_latch (v : Byte) : (s.setSector v).latch = s.latch := rfl
@[simp] theorem State.setSector_stepDirection (v : Byte) :
    (s.setSector v).stepDirection = s.stepDirection := rfl
@[simp] theorem State.setSector_rotatingSectorCounter (v : Byte) :
    (s.setSector v).rotatingSectorCounter = s.rotatingSectorCounter := rfl
@[simp] theorem State.setSector_xfer (v : Byte) : (s.setSector v).xfer = s.xfer := rfl
@[simp] theorem State.setSector_wt (v : Byte) : (s.setSector v).wt = s.wt := rfl
@[simp] theorem State.setSector_drives (v : Byte) : (s.setSector v).drives = s.drives := rfl
@[simp] theorem State.setSector_board (v : Byte) : (s.setSector v).board = s.board := rfl
@[simp] theorem State.setSector_disks (v : Byte) : (s.setSector v).disks = s.disks := rfl
@[simp] theorem State.setSector_io (v : Byte) : (s.setSector v).io = s.io := rfl

/-! ### setData -/

@[simp] theorem State.setData_cfg (v : Byte) : (s.setData v).cfg = s.cfg := rfl
@[simp] theorem State.setData_cmd (v : Byte) : (s.setData v).regs.cmd = s.regs.cmd := rfl
@[simp] theorem State.setData_status (v : Byte) : (s.setData v).regs.status = s.regs.status := rfl
@[simp] theorem State.setData_track (v : Byte) : (s.setData v).regs.track = s.regs.track := rfl
@[simp] theorem State.setData_sector (v : Byte) : (s.setData v).regs.sector = s.regs.sector := rfl
@[simp] theorem State.setData_data (v : Byte) : (s.setData v).regs.data = v := rfl
@[simp] theorem State.setData_intrq (v : Byte) : (s.setData v).regs.intrq = s.regs.intrq := rfl
@[simp] theorem State.setData_drq (v : Byte) : (s.setData v).regs.drq = s.regs.drq := rfl
@[simp] theorem State.setData_seq (v : Byte) : (s.setData v).seq = s.seq := rfl
@[simp] theorem State.setData_latch (v : Byte) : (s.setData v).latch = s.latch := rfl
@[simp] theorem State.setData_stepDirection (v : Byte) : (s.setData v).stepDirection = s.stepDirection := rfl
@[simp] theorem State.setData_rotatingSectorCounter (v : Byte) :
    (s.setData v).rotatingSectorCounter = s.rotatingSectorCounter := rfl
@[simp] theorem State.setData_xfer (v : Byte) : (s.setData v).xfer = s.xfer := rfl
@[simp] theorem State.setData_wt (v : Byte) : (s.setData v).wt = s.wt := rfl
@[simp] theorem State.setData_drives (v : Byte) : (s.setData v).drives = s.drives := rfl
@[simp] theorem State.setData_board (v : Byte) : (s.setData v).board = s.board := rfl
@[simp] theorem State.setData_disks (v : Byte) : (s.setData v).disks = s.disks := rfl
@[simp] theorem State.setData_io (v : Byte) : (s.setData v).io = s.io := rfl

/-! ### setLatch -/

@[simp] theorem State.setLatch_cfg (l : LatchedFields) : (s.setLatch l).cfg = s.cfg := rfl
@[simp] theorem State.setLatch_regs (l : LatchedFields) : (s.setLatch l).regs = s.regs := rfl
@[simp] theorem State.setLatch_seq (l : LatchedFields) : (s.setLatch l).seq = s.seq := rfl
@[simp] theorem State.setLatch_latch (l : LatchedFields) : (s.setLatch l).latch = l := rfl
@[simp] theorem State.setLatch_stepDirection (l : LatchedFields) :
    (s.setLatch l).stepDirection = s.stepDirection := rfl
@[simp] theorem State.setLatch_rotatingSectorCounter (l : LatchedFields) :
    (s.setLatch l).rotatingSectorCounter = s.rotatingSectorCounter := rfl
@[simp] theorem State.setLatch_xfer (l : LatchedFields) : (s.setLatch l).xfer = s.xfer := rfl
@[simp] theorem State.setLatch_wt (l : LatchedFields) : (s.setLatch l).wt = s.wt := rfl
@[simp] theorem State.setLatch_drives (l : LatchedFields) : (s.setLatch l).drives = s.drives := rfl
@[simp] theorem State.setLatch_board (l : LatchedFields) : (s.setLatch l).board = s.board := rfl
@[simp] theorem State.setLatch_disks (l : LatchedFields) : (s.setLatch l).disks = s.disks := rfl
@[simp] theorem State.setLatch_io (l : LatchedFields) : (s.setLatch l).io = s.io := rfl

/-! ### setDirection -/

@[simp] theorem State.setDirection_cfg (dir : StepDirection) : (s.setDirection dir).cfg = s.cfg := rfl
@[simp] theorem State.setDirection_regs (dir : StepDirection) : (s.setDirection dir).regs = s.regs := rfl
@[simp] theorem State.setDirection_seq (dir : StepDirection) : (s.setDirection dir).seq = s.seq := rfl
@[simp] theorem State.setDirection_latch (dir : StepDirection) : (s.setDirection dir).latch = s.latch := rfl
@[simp] theorem State.setDirection_stepDirection (dir : StepDirection) :
    (s.setDirection dir).stepDirection = dir := rfl
@[simp] theorem State.setDirection_rotatingSectorCounter (dir : StepDirection) :
    (s.setDirection dir).rotatingSectorCounter = s.rotatingSectorCounter := rfl
@[simp] theorem State.setDirection_xfer (dir : StepDirection) : (s.setDirection dir).xfer = s.xfer := rfl
@[simp] theorem State.setDirection_wt (dir : StepDirection) : (s.setDirection dir).wt = s.wt := rfl
@[simp] theorem State.setDirection_drives (dir : StepDirection) :
    (s.setDirection dir).drives = s.drives := rfl
@[simp] theorem State.setDirection_board (dir : StepDirection) : (s.setDirection dir).board = s.board := rfl
@[simp] theorem State.setDirection_disks (dir : StepDirection) : (s.setDirection dir).disks = s.disks := rfl
@[simp] theorem State.setDirection_io (dir : StepDirection) : (s.setDirection dir).io = s.io := rfl

/-! ### setPhase -/

@[simp] theorem State.setPhase_cfg (p : Phase) : (s.setPhase p).cfg = s.cfg := rfl
@[simp] theorem State.setPhase_regs (p : Phase) : (s.setPhase p).regs = s.regs := rfl
@[simp] theorem State.setPhase_phase (p : Phase) : (s.setPhase p).seq.phase = p := rfl
@[simp] theorem State.setPhase_activeCommandClass (p : Phase) :
    (s.setPhase p).seq.activeCommandClass = s.seq.activeCommandClass := rfl
@[simp] theorem State.setPhase_cyclesRemaining (p : Phase) :
    (s.setPhase p).seq.cyclesRemaining = s.seq.cyclesRemaining := rfl
@[simp] theorem State.setPhase_confusion (p : Phase) : (s.setPhase p).seq.confusion = s.seq.confusion := rfl
@[simp] theorem State.setPhase_latch (p : Phase) : (s.setPhase p).latch = s.latch := rfl
@[simp] theorem State.setPhase_stepDirection (p : Phase) :
    (s.setPhase p).stepDirection = s.stepDirection := rfl
@[simp] theorem State.setPhase_rotatingSectorCounter (p : Phase) :
    (s.setPhase p).rotatingSectorCounter = s.rotatingSectorCounter := rfl
@[simp] theorem State.setPhase_xfer (p : Phase) : (s.setPhase p).xfer = s.xfer := rfl
@[simp] theorem State.setPhase_wt (p : Phase) : (s.setPhase p).wt = s.wt := rfl
@[simp] theorem State.setPhase_drives (p : Phase) : (s.setPhase p).drives = s.drives := rfl
@[simp] theorem State.setPhase_board (p : Phase) : (s.setPhase p).board = s.board := rfl
@[simp] theorem State.setPhase_disks (p : Phase) : (s.setPhase p).disks = s.disks := rfl
@[simp] theorem State.setPhase_io (p : Phase) : (s.setPhase p).io = s.io := rfl

/-! ### setClass -/

@[simp] theorem State.setClass_cfg (c : CommandClass) : (s.setClass c).cfg = s.cfg := rfl
@[simp] theorem State.setClass_regs (c : CommandClass) : (s.setClass c).regs = s.regs := rfl
@[simp] theorem State.setClass_phase (c : CommandClass) : (s.setClass c).seq.phase = s.seq.phase := rfl
@[simp] theorem State.setClass_activeCommandClass (c : CommandClass) :
    (s.setClass c).seq.activeCommandClass = c := rfl
@[simp] theorem State.setClass_cyclesRemaining (c : CommandClass) :
    (s.setClass c).seq.cyclesRemaining = s.seq.cyclesRemaining := rfl
@[simp] theorem State.setClass_confusion (c : CommandClass) :
    (s.setClass c).seq.confusion = s.seq.confusion := rfl
@[simp] theorem State.setClass_latch (c : CommandClass) : (s.setClass c).latch = s.latch := rfl
@[simp] theorem State.setClass_stepDirection (c : CommandClass) :
    (s.setClass c).stepDirection = s.stepDirection := rfl
@[simp] theorem State.setClass_rotatingSectorCounter (c : CommandClass) :
    (s.setClass c).rotatingSectorCounter = s.rotatingSectorCounter := rfl
@[simp] theorem State.setClass_xfer (c : CommandClass) : (s.setClass c).xfer = s.xfer := rfl
@[simp] theorem State.setClass_wt (c : CommandClass) : (s.setClass c).wt = s.wt := rfl
@[simp] theorem State.setClass_drives (c : CommandClass) : (s.setClass c).drives = s.drives := rfl
@[simp] theorem State.setClass_board (c : CommandClass) : (s.setClass c).board = s.board := rfl
@[simp] theorem State.setClass_disks (c : CommandClass) : (s.setClass c).disks = s.disks := rfl
@[simp] theorem State.setClass_io (c : CommandClass) : (s.setClass c).io = s.io := rfl

/-! ### setConfusion -/

@[simp] theorem State.setConfusion_cfg (b : Bool) : (s.setConfusion b).cfg = s.cfg := rfl
@[simp] theorem State.setConfusion_regs (b : Bool) : (s.setConfusion b).regs = s.regs := rfl
@[simp] theorem State.setConfusion_phase (b : Bool) : (s.setConfusion b).seq.phase = s.seq.phase := rfl
@[simp] theorem State.setConfusion_activeCommandClass (b : Bool) :
    (s.setConfusion b).seq.activeCommandClass = s.seq.activeCommandClass := rfl
@[simp] theorem State.setConfusion_cyclesRemaining (b : Bool) :
    (s.setConfusion b).seq.cyclesRemaining = s.seq.cyclesRemaining := rfl
@[simp] theorem State.setConfusion_confusion (b : Bool) : (s.setConfusion b).seq.confusion = b := rfl
@[simp] theorem State.setConfusion_latch (b : Bool) : (s.setConfusion b).latch = s.latch := rfl
@[simp] theorem State.setConfusion_stepDirection (b : Bool) :
    (s.setConfusion b).stepDirection = s.stepDirection := rfl
@[simp] theorem State.setConfusion_rotatingSectorCounter (b : Bool) :
    (s.setConfusion b).rotatingSectorCounter = s.rotatingSectorCounter := rfl
@[simp] theorem State.setConfusion_xfer (b : Bool) : (s.setConfusion b).xfer = s.xfer := rfl
@[simp] theorem State.setConfusion_wt (b : Bool) : (s.setConfusion b).wt = s.wt := rfl
@[simp] theorem State.setConfusion_drives (b : Bool) : (s.setConfusion b).drives = s.drives := rfl
@[simp] theorem State.setConfusion_board (b : Bool) : (s.setConfusion b).board = s.board := rfl
@[simp] theorem State.setConfusion_disks (b : Bool) : (s.setConfusion b).disks = s.disks := rfl
@[simp] theorem State.setConfusion_io (b : Bool) : (s.setConfusion b).io = s.io := rfl

/-! ### setCycles -/

@[simp] theorem State.setCycles_cfg (n : Int) : (s.setCycles n).cfg = s.cfg := rfl
@[simp] theorem State.setCycles_regs (n : Int) : (s.setCycles n).regs = s.regs := rfl
@[simp] theorem State.setCycles_phase (n : Int) : (s.setCycles n).seq.phase = s.seq.phase := rfl
@[simp] theorem State.setCycles_activeCommandClass (n : Int) :
    (s.setCycles n).seq.activeCommandClass = s.seq.activeCommandClass := rfl
@[simp] theorem State.setCycles_cyclesRemaining (n : Int) : (s.setCycles n).seq.cyclesRemaining = n := rfl
@[simp] theorem State.setCycles_confusion (n : Int) : (s.setCycles n).seq.confusion = s.seq.confusion := rfl
@[simp] theorem State.setCycles_latch (n : Int) : (s.setCycles n).latch = s.latch := rfl
@[simp] theorem State.setCycles_stepDirection (n : Int) :
    (s.setCycles n).stepDirection = s.stepDirection := rfl
@[simp] theorem State.setCycles_rotatingSectorCounter (n : Int) :
    (s.setCycles n).rotatingSectorCounter = s.rotatingSectorCounter := rfl
@[simp] theorem State.setCycles_xfer (n : Int) : (s.setCycles n).xfer = s.xfer := rfl
@[simp] theorem State.setCycles_wt (n : Int) : (s.setCycles n).wt = s.wt := rfl
@[simp] theorem State.setCycles_drives (n : Int) : (s.setCycles n).drives = s.drives := rfl
@[simp] theorem State.setCycles_board (n : Int) : (s.setCycles n).board = s.board := rfl
@[simp] theorem State.setCycles_disks (n : Int) : (s.setCycles n).disks = s.disks := rfl
@[simp] theorem State.setCycles_io (n : Int) : (s.setCycles n).io = s.io := rfl

/-! ### setByteCount -/

@[simp] theorem State.setByteCount_cfg (n : Nat) : (s.setByteCount n).cfg = s.cfg := rfl
@[simp] theorem State.setByteCount_regs (n : Nat) : (s.setByteCount n).regs = s.regs := rfl
@[simp] theorem State.setByteCount_seq (n : Nat) : (s.setByteCount n).seq = s.seq := rfl
@[simp] theorem State.setByteCount_latch (n : Nat) : (s.setByteCount n).latch = s.latch := rfl
@[simp] theorem State.setByteCount_stepDirection (n : Nat) :
    (s.setByteCount n).stepDirection = s.stepDirection := rfl
@[simp] theorem State.setByteCount_rotatingSectorCounter (n : Nat) :
    (s.setByteCount n).rotatingSectorCounter = s.rotatingSectorCounter := rfl
@[simp] theorem State.setByteCount_drive (n : Nat) : (s.setByteCount n).xfer.drive = s.xfer.drive := rfl
@[simp] theorem State.setByteCount_head (n : Nat) : (s.setByteCount n).xfer.head = s.xfer.head := rfl
@[simp] theorem State.setByteCount_sectorCount (n : Nat) :
    (s.setByteCount n).xfer.sectorCount = s.xfer.sectorCount := rfl
@[simp] theorem State.setByteCount_sectorSize (n : Nat) :
    (s.setByteCount n).xfer.sectorSize = s.xfer.sectorSize := rfl
@[simp] theorem State.setByteCount_base (n : Nat) : (s.setByteCount n).xfer.base = s.xfer.base := rfl
@[simp] theorem State.setByteCount_offset (n : Nat) : (s.setByteCount n).xfer.offset = s.xfer.offset := rfl
@[simp] theorem State.setByteCount_byteCountRemaining (n : Nat) :
    (s.setByteCount n).xfer.byteCountRemaining = n := rfl
@[simp] theorem State.setByteCount_wt (n : Nat) : (s.setByteCount n).wt = s.wt := rfl
@[simp] theorem State.setByteCount_drives (n : Nat) : (s.setByteCount n).drives = s.drives := rfl
@[simp] theorem State.setByteCount_board (n : Nat) : (s.setByteCount n).board = s.board := rfl
@[simp] theorem State.setByteCount_disks (n : Nat) : (s.setByteCount n).disks = s.disks := rfl
@[simp] theorem State.setByteCount_io (n : Nat) : (s.setByteCount n).io = s.io := rfl

/-! ### setRotating -/

@[simp] theorem State.setRotating_cfg (n : Nat) : (s.setRotating n).cfg = s.cfg := rfl
@[simp] theorem State.setRotating_regs (n : Nat) : (s.setRotating n).regs = s.regs := rfl
@[simp] theorem State.setRotating_seq (n : Nat) : (s.setRotating n).seq = s.seq := rfl
@[simp] theorem State.setRotating_latch (n : Nat) : (s.setRotating n).latch = s.latch := rfl
@[simp] theorem State.setRotating_stepDirection (n : Nat) :
    (s.setRotating n).stepDirection = s.stepDirection := rfl
@[simp] theorem State.setRotating_rotatingSectorCounter (n : Nat) :
    (s.setRotating n).rotatingSectorCounter = n := rfl
@[simp] theorem State.setRotating_xfer (n : Nat) : (s.setRotating n).xfer = s.xfer := rfl
@[simp] theorem State.setRotating_wt (n : Nat) : (s.setRotating n).wt = s.wt := rfl
@[simp] theorem State.setRotating_drives (n : Nat) : (s.setRotating n).drives = s.drives := rfl
@[simp] theorem State.setRotating_board (n : Nat) : (s.setRotating n).board = s.board := rfl
@[simp] theorem State.setRotating_disks (n : Nat) : (s.setRotating n).disks = s.disks := rfl
@[simp] theorem State.setRotating_io (n : Nat) : (s.setRotating n).io = s.io := rfl

/-! ### setScan -/

@[simp] theorem State.setScan_cfg (w : WriteTrackScan) : (s.setScan w).cfg = s.cfg := rfl
@[simp] theorem State.setScan_regs (w : WriteTrackScan) : (s.setScan w).regs = s.regs := rfl
@[simp] theorem State.setScan_seq (w : WriteTrackScan) : (s.setScan w).seq = s.seq := rfl
@[simp] theorem State.setScan_latch (w : WriteTrackScan) : (s.setScan w).latch = s.latch := rfl
@[simp] theorem State.setScan_stepDirection (w : WriteTrackScan) :
    (s.setScan w).stepDirection = s.stepDirection := rfl
@[simp] theorem State.setScan_rotatingSectorCounter (w : WriteTrackScan) :
    (s.setScan w).rotatingSectorCounter = s.rotatingSectorCounter := rfl
@[simp] theorem State.setScan_xfer (w : WriteTrackScan) : (s.setScan w).xfer = s.xfer := rfl
@[simp] theorem State.setScan_wt (w : WriteTrackScan) : (s.setScan w).wt = w := rfl
@[simp] theorem State.setScan_drives (w : WriteTrackScan) : (s.setScan w).drives = s.drives := rfl
@[simp] theorem State.setScan_board (w : WriteTrackScan) : (s.setScan w).board = s.board := rfl
@[simp] theorem State.setScan_disks (w : WriteTrackScan) : (s.setScan w).disks = s.disks := rfl
@[simp] theorem State.setScan_io (w : WriteTrackScan) : (s.setScan w).io = s.io := rfl

/-! ### aimAt -/

@[simp] theorem State.aimAt_cfg (size : Nat) : (s.aimAt size).cfg = s.cfg := rfl
@[simp] theorem State.aimAt_regs (size : Nat) : (s.aimAt size).regs = s.regs := rfl
@[simp] theorem State.aimAt_seq (size : Nat) : (s.aimAt size).seq = s.seq := rfl
@[simp] theorem State.aimAt_latch (size : Nat) : (s.aimAt size).latch = s.latch := rfl
@[simp] theorem State.aimAt_stepDirection (size : Nat) : (s.aimAt size).stepDirection = s.stepDirection := rfl
@[simp] theorem State.aimAt_rotatingSectorCounter (size : Nat) :
    (s.aimAt size).rotatingSectorCounter = s.rotatingSectorCounter := rfl
@[simp] theorem State.aimAt_drive (size : Nat) : (s.aimAt size).xfer.drive = s.xfer.drive := rfl
@[simp] theorem State.aimAt_head (size : Nat) : (s.aimAt size).xfer.head = s.xfer.head := rfl
@[simp] theorem State.aimAt_sectorCount (size : Nat) :
    (s.aimAt size).xfer.sectorCount = s.xfer.sectorCount := rfl
@[simp] theorem State.aimAt_sectorSize (size : Nat) :
    (s.aimAt size).xfer.sectorSize = s.xfer.sectorSize := rfl
@[simp] theorem State.aimAt_base (size : Nat) : (s.aimAt size).xfer.base = s.xfer.base := rfl
@[simp] theorem State.aimAt_offset (size : Nat) :
    (s.aimAt size).xfer.offset = sectorOffset s.xfer.base s.regs.sector.toNat size := rfl
@[simp] theorem State.aimAt_byteCountRemaining (size : Nat) :
    (s.aimAt size).xfer.byteCountRemaining = size := rfl
@[simp] theorem State.aimAt_wt (size : Nat) : (s.aimAt size).wt = s.wt := rfl
@[simp] theorem State.aimAt_drives (size : Nat) : (s.aimAt size).drives = s.drives := rfl
@[simp] theorem State.aimAt_board (size : Nat) : (s.aimAt size).board = s.board := rfl
@[simp] theorem State.aimAt_disks (size : Nat) : (s.aimAt size).disks = s.disks := rfl
@[simp] theorem State.aimAt_io (size : Nat) : (s.aimAt size).io = s.io := rfl

/-! ### setStatusBit -/

@[simp] theorem State.setStatusBit_cfg (i : Nat) (b : Bool) : (s.setStatusBit i b).cfg = s.cfg := rfl
@[simp] theorem State.setStatusBit_cmd (i : Nat) (b : Bool) :
    (s.setStatusBit i b).regs.cmd = s.regs.cmd := rfl
@[simp] theorem State.setStatusBit_status (i : Nat) (b : Bool) :
    (s.setStatusBit i b).regs.status = putBit s.regs.status i b := rfl
@[simp] theorem State.setStatusBit_track (i : Nat) (b : Bool) :
    (s.setStatusBit i b).regs.track = s.regs.track := rfl
@[simp] theorem State.setStatusBit_sector (i : Nat) (b : Bool) :
    (s.setStatusBit i b).regs.sector = s.regs.sector := rfl
@[simp] theorem State.setStatusBit_data (i : Nat) (b : Bool) :
    (s.setStatusBit i b).regs.data = s.regs.data := rfl
@[simp] theorem State.setStatusBit_intrq (i : Nat) (b : Bool) :
    (s.setStatusBit i b).regs.intrq = s.regs.intrq := rfl
@[simp] theorem State.setStatusBit_drq (i : Nat) (b : Bool) :
    (s.setStatusBit i b).regs.drq = s.regs.drq := rfl
@[simp] theorem State.setStatusBit_seq (i : Nat) (b : Bool) : (s.setStatusBit i b).seq = s.seq := rfl
@[simp] theorem State.setStatusBit_latch (i : Nat) (b : Bool) : (s.setStatusBit i b).latch = s.latch := rfl
@[simp] theorem State.setStatusBit_stepDirection (i : Nat) (b : Bool) :
    (s.setStatusBit i b).stepDirection = s.stepDirection := rfl
@[simp] theorem State.setStatusBit_rotatingSectorCounter (i : Nat) (b : Bool) :
    (s.setStatusBit i b).rotatingSectorCounter = s.rotatingSectorCounter := rfl
@[simp] theorem State.setStatusBit_xfer (i : Nat) (b : Bool) : (s.setStatusBit i b).xfer = s.xfer := rfl
@[simp] theorem State.setStatusBit_wt (i : Nat) (b : Bool) : (s.setStatusBit i b).wt = s.wt := rfl
@[simp] theorem State.setStatusBit_drives (i : Nat) (b : Bool) : (s.setStatusBit i b).drives = s.drives := rfl
@[simp] theorem State.setStatusBit_board (i : Nat) (b : Bool) : (s.setStatusBit i b).board = s.board := rfl
@[simp] theorem State.setStatusBit_disks (i : Nat) (b : Bool) : (s.setStatusBit i b).disks = s.disks := rfl
@[simp] theorem State.setStatusBit_io (i : Nat) (b : Bool) : (s.setStatusBit i b).io = s.io := rfl

/-! ### setError -/

@[simp] theorem State.setError_cfg (bit : Nat) : (s.setError bit).cfg = s.cfg := rfl
@[simp] theorem State.setError_cmd (bit : Nat) : (s.setError bit).regs.cmd = s.regs.cmd := rfl
@[simp] theorem State.setError_status (bit : Nat) :
    (s.setError bit).regs.status = putBit s.regs.status bit true := rfl
@[simp] theorem State.setError_track (bit : Nat) : (s.setError bit).regs.track = s.regs.track := rfl
@[simp] theorem State.setError_sector (bit : Nat) : (s.setError bit).regs.sector = s.regs.sector := rfl
@[simp] theorem State.setError_data (bit : Nat) : (s.setError bit).regs.data = s.regs.data := rfl
@[simp] theorem State.setError_intrq (bit : Nat) : (s.setError bit).regs.intrq = s.regs.intrq := rfl
@[simp] theorem State.setError_drq (bit : Nat) : (s.setError bit).regs.drq = s.regs.drq := rfl
@[simp] theorem State.setError_seq (bit : Nat) : (s.setError bit).seq = s.seq := rfl
@[simp] theorem State.setError_latch (bit : Nat) : (s.setError bit).latch = s.latch := rfl
@[simp] theorem State.setError_stepDirection (bit : Nat) :
    (s.setError bit).stepDirection = s.stepDirection := rfl
@[simp] theorem State.setError_rotatingSectorCounter (bit : Nat) :
    (s.setError bit).rotatingSectorCounter = s.rotatingSectorCounter := rfl
@[simp] theorem State.setError_xfer (bit : Nat) : (s.setError bit).xfer = s.xfer := rfl
@[simp] theorem State.setError_wt (bit : Nat) : (s.setError bit).wt = s.wt := rfl
@[simp] theorem State.setError_drives (bit : Nat) : (s.setError bit).drives = s.drives := rfl
@[simp] theorem State.setError_board (bit : Nat) : (s.setError bit).board = s.board := rfl
@[simp] theorem State.setError_disks (bit : Nat) : (s.setError bit).disks = s.disks := rfl
@[simp] theorem State.setError_io (bit : Nat) : (s.setError bit).io = s.io := rfl

/-! ### statusInit -/

@[simp] theorem State.statusInit_cfg : s.statusInit.cfg = s.cfg := rfl
@[simp] theorem State.statusInit_cmd : s.statusInit.regs.cmd = s.regs.cmd := rfl
@[simp] theorem State.statusInit_status : s.statusInit.regs.status = s.regs.status &&& 0x81 := rfl
@[simp] theorem State.statusInit_track : s.statusInit.regs.track = s.regs.track := rfl
@[simp] theorem State.statusInit_sector : s.statusInit.regs.sector = s.regs.sector := rfl
@[simp] theorem State.statusInit_data : s.statusInit.regs.data = s.regs.data := rfl
@[simp] theorem State.statusInit_intrq : s.statusInit.regs.intrq = s.regs.intrq := rfl
@[simp] theorem State.statusInit_drq : s.statusInit.regs.drq = false := rfl
@[simp] theorem State.statusInit_seq : s.statusInit.seq = s.seq := rfl
@[simp] theorem State.statusInit_latch : s.statusInit.latch = s.latch := rfl
@[simp] theorem State.statusInit_stepDirection : s.statusInit.stepDirection = s.stepDirection := rfl
@[simp] theorem State.statusInit_rotatingSectorCounter :
    s.statusInit.rotatingSectorCounter = s.rotatingSectorCounter := rfl
@[simp] theorem State.statusInit_xfer : s.statusInit.xfer = s.xfer := rfl
@[simp] theorem State.statusInit_wt : s.statusInit.wt = s.wt := rfl
@[simp] theorem State.statusInit_drives : s.statusInit.drives = s.drives := rfl
@[simp] theorem State.statusInit_board : s.statusInit.board = s.board := rfl
@[simp] theorem State.statusInit_disks : s.statusInit.disks = s.disks := rfl
@[simp] theorem State.statusInit_io : s.statusInit.io = s.io := rfl

/-! ### setDrq -/

@[simp] theorem State.setDrq_cfg : s.setDrq.cfg = s.cfg := rfl
@[simp] theorem State.setDrq_cmd : s.setDrq.regs.cmd = s.regs.cmd := rfl
@[simp] theorem State.setDrq_status : s.setDrq.regs.status = putBit s.regs.status requestBit true := rfl
@[simp] theorem State.setDrq_track : s.setDrq.regs.track = s.regs.track := rfl
@[simp] theorem State.setDrq_sector : s.setDrq.regs.sector = s.regs.sector := rfl
@[simp] theorem State.setDrq_data : s.setDrq.regs.data = s.regs.data := rfl
@[simp] theorem State.setDrq_intrq : s.setDrq.regs.intrq = s.regs.intrq := rfl
@[simp] theorem State.setDrq_drq : s.setDrq.regs.drq = true := rfl
@[simp] theorem State.setDrq_seq : s.setDrq.seq = s.seq := rfl
@[simp] theorem State.setDrq_latch : s.setDrq.latch = s.latch := rfl
@[simp] theorem State.setDrq_stepDirection : s.setDrq.stepDirection = s.stepDirection := rfl
@[simp] theorem State.setDrq_rotatingSectorCounter :
    s.setDrq.rotatingSectorCounter = s.rotatingSectorCounter := rfl
@[simp] theorem State.setDrq_xfer : s.setDrq.xfer = s.xfer := rfl
@[simp] theorem State.setDrq_wt : s.setDrq.wt = s.wt := rfl
@[simp] theorem State.setDrq_drives : s.setDrq.drives = s.drives := rfl
@[simp] theorem State.setDrq_board : s.setDrq.board = s.board := rfl
@[simp] theorem State.setDrq_disks : s.setDrq.disks = s.disks := rfl
@[simp] theorem State.setDrq_io : s.setDrq.io = s.io := rfl

/-! ### withdrawDrq -/

@[simp] theorem State.withdrawDrq_cfg : s.withdrawDrq.cfg = s.cfg := rfl
@[simp] theorem State.withdrawDrq_cmd : s.withdrawDrq.regs.cmd = s.regs.cmd := rfl
@[simp] theorem State.withdrawDrq_status :
    s.withdrawDrq.regs.status = putBit s.regs.status requestBit false := rfl
@[simp] theorem State.withdrawDrq_track : s.withdrawDrq.regs.track = s.regs.track := rfl
@[simp] theorem State.withdrawDrq_sector : s.withdrawDrq.regs.sector = s.regs.sector := rfl
@[simp] theorem State.withdrawDrq_data : s.withdrawDrq.regs.data = s.regs.data := rfl
@[simp] theorem State.withdrawDrq_intrq : s.withdrawDrq.regs.intrq = s.regs.intrq := rfl
@[simp] theorem State.withdrawDrq_drq : s.withdrawDrq.regs.drq = false := rfl
@[simp] theorem State.withdrawDrq_seq : s.withdrawDrq.seq = s.seq := rfl
@[simp] theorem State.withdrawDrq_latch : s.withdrawDrq.latch = s.latch := rfl
@[simp] theorem State.withdrawDrq_stepDirection : s.withdrawDrq.stepDirection = s.stepDirection := rfl
@[simp] theorem State.withdrawDrq_rotatingSectorCounter :
    s.withdrawDrq.rotatingSectorCounter = s.rotatingSectorCounter := rfl
@[simp] theorem State.withdrawDrq_xfer : s.withdrawDrq.xfer = s.xfer := rfl
@[simp] theorem State.withdrawDrq_wt : s.withdrawDrq.wt = s.wt := rfl
@[simp] theorem State.withdrawDrq_drives : s.withdrawDrq.drives = s.drives := rfl
@[simp] theorem State.withdrawDrq_board : s.withdrawDrq.board = s.board := rfl
@[simp] theorem State.withdrawDrq_disks : s.withdrawDrq.disks = s.disks := rfl
@[simp] theorem State.withdrawDrq_io : s.withdrawDrq.io = s.io := rfl

/-! ### clearDrq -/

@[simp] theorem State.clearDrq_cfg :
    s.clearDrq.cfg = s.cfg := by
  unfold State.clearDrq; split <;> simp_all [State.withdrawDrq]
@[simp] theorem State.clearDrq_cmd :
    s.clearDrq.regs.cmd = s.regs.cmd := by
  unfold State.clearDrq; split <;> simp_all [State.withdrawDrq]
@[simp] theorem State.clearDrq_status :
    s.clearDrq.regs.status = if s.regs.drq then putBit s.regs.status requestBit false else s.regs.status := by
  unfold State.clearDrq; split <;> simp_all [State.withdrawDrq]
@[simp] theorem State.clearDrq_track :
    s.clearDrq.regs.track = s.regs.track := by
  unfold State.clearDrq; split <;> simp_all [State.withdrawDrq]
@[simp] theorem State.clearDrq_sector :
    s.clearDrq.regs.sector = s.regs.sector := by
  unfold State.clearDrq; split <;> simp_all [State.withdrawDrq]
@[simp] theorem State.clearDrq_data :
    s.clearDrq.regs.data = s.regs.data := by
  unfold State.clearDrq; split <;> simp_all [State.withdrawDrq]
@[simp] theorem State.clearDrq_intrq :
    s.clearDrq.regs.intrq = s.regs.intrq := by
  unfold State.clearDrq; split <;> simp_all [State.withdrawDrq]
@[simp] theorem State.clearDrq_drq :
    s.clearDrq.regs.drq = false := by
  unfold State.clearDrq; split <;> simp_all [State.withdrawDrq]
@[simp] theorem State.clearDrq_seq :
    s.clearDrq.seq = s.seq := by
  unfold State.clearDrq; split <;> simp_all [State.withdrawDrq]
@[simp] theorem State.clearDrq_latch :
    s.clearDrq.latch = s.latch := by
  unfold State.clearDrq; split <;> simp_all [State.withdrawDrq]
@[simp] theorem State.clearDrq_stepDirection :
    s.clearDrq.stepDirection = s.stepDirection := by
  unfold State.clearDrq; split <;> simp_all [State.withdrawDrq]
@[simp] theorem State.clearDrq_rotatingSectorCounter :
    s.clearDrq.rotatingSectorCounter = s.rotatingSectorCounter := by
  unfold State.clearDrq; split <;> simp_all [State.withdrawDrq]
@[simp] theorem State.clearDrq_xfer :
    s.clearDrq.xfer = s.xfer := by
  unfold State.clearDrq; split <;> simp_all [State.withdrawDrq]
@[simp] theorem State.clearDrq_wt :
    s.clearDrq.wt = s.wt := by
  unfold State.clearDrq; split <;> simp_all [State.withdrawDrq]
@[simp] theorem State.clearDrq_drives :
    s.clearDrq.drives = s.drives := by
  unfold State.clearDrq; split <;> simp_all [State.withdrawDrq]
@[simp] theorem State.clearDrq_board :
    s.clearDrq.board = s.board := by
  unfold State.clearDrq; split <;> simp_all [State.withdrawDrq]
@[simp] theorem State.clearDrq_disks :
    s.clearDrq.disks = s.disks := by
  unfold State.clearDrq; split <;> simp_all [State.withdrawDrq]
@[simp] theorem State.clearDrq_io :
    s.clearDrq.io = s.io := by
  unfold State.clearDrq; split <;> simp_all [State.withdrawDrq]

/-! ### lostDataCheck -/

@[simp] theorem State.lostDataCheck_cfg :
    s.lostDataCheck.cfg = s.cfg := by
  unfold State.lostDataCheck; split <;> rfl
@[simp] theorem State.lostDataCheck_cmd :
    s.lostDataCheck.regs.cmd = s.regs.cmd := by
  unfold State.lostDataCheck; split <;> rfl
@[simp] theorem State.lostDataCheck_status :
    s.lostDataCheck.regs.status = if s.regs.drq then putBit s.regs.status lostDataBit true else s.regs.status := by
  unfold State.lostDataCheck; split <;> rfl
@[simp] theorem State.lostDataCheck_track :
    s.lostDataCheck.regs.track = s.regs.track := by
  unfold State.lostDataCheck; split <;> rfl
@[simp] theorem State.lostDataCheck_sector :
    s.lostDataCheck.regs.sector = s.regs.sector := by
  unfold State.lostDataCheck; split <;> rfl
@[simp] theorem State.lostDataCheck_data :
    s.lostDataCheck.regs.data = s.regs.data := by
  unfold State.lostDataCheck; split <;> rfl
@[simp] theorem State.lostDataCheck_intrq :
    s.lostDataCheck.regs.intrq = s.regs.intrq := by
  unfold State.lostDataCheck; split <;> rfl
@[simp] theorem State.lostDataCheck_drq :
    s.lostDataCheck.regs.drq = s.regs.drq := by
  unfold State.lostDataCheck; split <;> rfl
@[simp] theorem State.lostDataCheck_seq :
    s.lostDataCheck.seq = s.seq := by
  unfold State.lostDataCheck; split <;> rfl
@[simp] theorem State.lostDataCheck_latch :
    s.lostDataCheck.latch = s.latch := by
  unfold State.lostDataCheck; split <;> rfl
@[simp] theorem State.lostDataCheck_stepDirection :
    s.lostDataCheck.stepDirection = s.stepDirection := by
  unfold State.lostDataCheck; split <;> rfl
@[simp] theorem State.lostDataCheck_rotatingSectorCounter :
    s.lostDataCheck.rotatingSectorCounter = s.rotatingSectorCounter := by
  unfold State.lostDataCheck; split <;> rfl
@[simp] theorem State.lostDataCheck_xfer :
    s.lostDataCheck.xfer = s.xfer := by
  unfold State.lostDataCheck; split <;> rfl
@[simp] theorem State.lostDataCheck_wt :
    s.lostDataCheck.wt = s.wt := by
  unfold State.lostDataCheck; split <;> rfl
@[simp] theorem State.lostDataCheck_drives :
    s.lostDataCheck.drives = s.drives := by
  unfold State.lostDataCheck; split <;> rfl
@[simp] theorem State.lostDataCheck_board :
    s.lostDataCheck.board = s.board := by
  unfold State.lostDataCheck; split <;> rfl
@[simp] theorem State.lostDataCheck_disks :
    s.lostDataCheck.disks = s.disks := by
  unfold State.lostDataCheck; split <;> rfl
@[simp] theorem State.lostDataCheck_io :
    s.lostDataCheck.io = s.io := by
  unfold State.lostDataCheck; split <;> rfl

/-! ### setIntrq -/

@[simp] theorem State.setIntrq_cfg (b : Bool) : (s.setIntrq b).cfg = s.cfg := rfl
@[simp] theorem State.setIntrq_cmd (b : Bool) : (s.setIntrq b).regs.cmd = s.regs.cmd := rfl
@[simp] theorem State.setIntrq_status (b : Bool) : (s.setIntrq b).regs.status = s.regs.status := rfl
@[simp] theorem State.setIntrq_track (b : Bool) : (s.setIntrq b).regs.track = s.regs.track := rfl
@[simp] theorem State.setIntrq_sector (b : Bool) : (s.setIntrq b).regs.sector = s.regs.sector := rfl
@[simp] theorem State.setIntrq_data (b : Bool) : (s.setIntrq b).regs.data = s.regs.data := rfl
@[simp] theorem State.setIntrq_intrq (b : Bool) : (s.setIntrq b).regs.intrq = b := rfl
@[simp] theorem State.setIntrq_drq (b : Bool) : (s.setIntrq b).regs.drq = s.regs.drq := rfl
@[simp] theorem State.setIntrq_seq (b : Bool) : (s.setIntrq b).seq = s.seq := rfl
@[simp] theorem State.setIntrq_latch (b : Bool) : (s.setIntrq b).latch = s.latch := rfl
@[simp] theorem State.setIntrq_stepDirection (b : Bool) :
    (s.setIntrq b).stepDirection = s.stepDirection := rfl
@[simp] theorem State.setIntrq_rotatingSectorCounter (b : Bool) :
    (s.setIntrq b).rotatingSectorCounter = s.rotatingSectorCounter := rfl
@[simp] theorem State.setIntrq_xfer (b : Bool) : (s.setIntrq b).xfer = s.xfer := rfl
@[simp] theorem State.setIntrq_wt (b : Bool) : (s.setIntrq b).wt = s.wt := rfl
@[simp] theorem State.setIntrq_drives (b : Bool) : (s.setIntrq b).drives = s.drives := rfl
@[simp] theorem State.setIntrq_board (b : Bool) : (s.setIntrq b).board = s.board := rfl
@[simp] theorem State.setIntrq_disks (b : Bool) : (s.setIntrq b).disks = s.disks := rfl
@[simp] theorem State.setIntrq_io (b : Bool) : (s.setIntrq b).io = s.io := rfl

/-! ### toggleIndexBit -/

@[simp] theorem State.toggleIndexBit_cfg :
    s.toggleIndexBit.cfg = s.cfg := by
  unfold State.toggleIndexBit; split <;> rfl
@[simp] theorem State.toggleIndexBit_cmd :
    s.toggleIndexBit.regs.cmd = s.regs.cmd := by
  unfold State.toggleIndexBit; split <;> rfl
@[simp] theorem State.toggleIndexBit_status :
    s.toggleIndexBit.regs.status = if s.seq.activeCommandClass = .typeI then putBit s.regs.status requestBit (!s.statusBit requestBit) else s.regs.status := by
  unfold State.toggleIndexBit; split <;> rfl
@[simp] theorem State.toggleIndexBit_track :
    s.toggleIndexBit.regs.track = s.regs.track := by
  unfold State.toggleIndexBit; split <;> rfl
@[simp] theorem State.toggleIndexBit_sector :
    s.toggleIndexBit.regs.sector = s.regs.sector := by
  unfold State.toggleIndexBit; split <;> rfl
@[simp] theorem State.toggleIndexBit_data :
    s.toggleIndexBit.regs.data = s.regs.data := by
  unfold State.toggleIndexBit; split <;> rfl
@[simp] theorem State.toggleIndexBit_intrq :
    s.toggleIndexBit.regs.intrq = s.regs.intrq := by
  unfold State.toggleIndexBit; split <;> rfl
@[simp] theorem State.toggleIndexBit_drq :
    s.toggleIndexBit.regs.drq = s.regs.drq := by
  unfold State.toggleIndexBit; split <;> rfl
@[simp] theorem State.toggleIndexBit_seq :
    s.toggleIndexBit.seq = s.seq := by
  unfold State.toggleIndexBit; split <;> rfl
@[simp] theorem State.toggleIndexBit_latch :
    s.toggleIndexBit.latch = s.latch := by
  unfold State.toggleIndexBit; split <;> rfl
@[simp] theorem State.toggleIndexBit_stepDirection :
    s.toggleIndexBit.stepDirection = s.stepDirection := by
  unfold State.toggleIndexBit; split <;> rfl
@[simp] theorem State.toggleIndexBit_rotatingSectorCounter :
    s.toggleIndexBit.rotatingSectorCounter = s.rotatingSectorCounter := by
  unfold State.toggleIndexBit; split <;> rfl
@[simp] theorem State.toggleIndexBit_xfer :
    s.toggleIndexBit.xfer = s.xfer := by
  unfold State.toggleIndexBit; split <;> rfl
@[simp] theorem State.toggleIndexBit_wt :
    s.toggleIndexBit.wt = s.wt := by
  unfold State.toggleIndexBit; split <;> rfl
@[simp] theorem State.toggleIndexBit_drives :
    s.toggleIndexBit.drives = s.drives := by
  unfold State.toggleIndexBit; split <;> rfl
@[simp] theorem State.toggleIndexBit_board :
    s.toggleIndexBit.board = s.board := by
  unfold State.toggleIndexBit; split <;> rfl
@[simp] theorem State.toggleIndexBit_disks :
    s.toggleIndexBit.disks = s.disks := by
  unfold State.toggleIndexBit; split <;> rfl
@[simp] theorem State.toggleIndexBit_io :
    s.toggleIndexBit.io = s.io := by
  unfold State.toggleIndexBit; split <;> rfl

/-! ### updateDrive -/

@[simp] theorem State.updateDrive_cfg (d : DriveNo) (f : DriveUnit → DriveUnit) :
    (s.updateDrive d f).cfg = s.cfg := rfl
@[simp] theorem State.updateDrive_regs (d : DriveNo) (f : DriveUnit → DriveUnit) :
    (s.updateDrive d f).regs = s.regs := rfl
@[simp] theorem State.updateDrive_seq (d : DriveNo) (f : DriveUnit → DriveUnit) :
    (s.updateDrive d f).seq = s.seq := rfl
@[simp] theorem State.updateDrive_latch (d : DriveNo) (f : DriveUnit → DriveUnit) :
    (s.updateDrive d f).latch = s.latch := rfl
@[simp] theorem State.updateDrive_stepDirection (d : DriveNo) (f : DriveUnit → DriveUnit) :
    (s.updateDrive d f).stepDirection = s.stepDirection := rfl
@[simp] theorem State.updateDrive_rotatingSectorCounter (d : DriveNo) (f : DriveUnit → DriveUnit) :
    (s.updateDrive d f).rotatingSectorCounter = s.rotatingSectorCounter := rfl
@[simp] theorem State.updateDrive_xfer (d : DriveNo) (f : DriveUnit → DriveUnit) :
    (s.updateDrive d f).xfer = s.xfer := rfl
@[simp] theorem State.updateDrive_wt (d : DriveNo) (f : DriveUnit → DriveUnit) :
    (s.updateDrive d f).wt = s.wt := rfl
@[simp] theorem State.updateDrive_drives (d : DriveNo) (f : DriveUnit → DriveUnit) :
    (s.updateDrive d f).drives = s.drives.set d (f (s.drives.get d)) := rfl
@[simp] theorem State.updateDrive_board (d : DriveNo) (f : DriveUnit → DriveUnit) :
    (s.updateDrive d f).board = s.board := rfl
@[simp] theorem State.updateDrive_disks (d : DriveNo) (f : DriveUnit → DriveUnit) :
    (s.updateDrive d f).disks = s.disks := rfl
@[simp] theorem State.updateDrive_io (d : DriveNo) (f : DriveUnit → DriveUnit) :
    (s.updateDrive d f).io = s.io := rfl

/-! ### driveOperation -/

@[simp] theorem State.driveOperation_cfg (f : DriveUnit → DriveUnit × List Signal) :
    (s.driveOperation f).cfg = s.cfg := rfl
@[simp] theorem State.driveOperation_regs (f : DriveUnit → DriveUnit × List Signal) :
    (s.driveOperation f).regs = s.regs := rfl
@[simp] theorem State.driveOperation_seq (f : DriveUnit → DriveUnit × List Signal) :
    (s.driveOperation f).seq = s.seq := rfl
@[simp] theorem State.driveOperation_latch (f : DriveUnit → DriveUnit × List Signal) :
    (s.driveOperation f).latch = s.latch := rfl
@[simp] theorem State.driveOperation_stepDirection (f : DriveUnit → DriveUnit × List Signal) :
    (s.driveOperation f).stepDirection = s.stepDirection := rfl
@[simp] theorem State.driveOperation_rotatingSectorCounter (f : DriveUnit → DriveUnit × List Signal) :
    (s.driveOperation f).rotatingSectorCounter = s.rotatingSectorCounter := rfl
@[simp] theorem State.driveOperation_xfer (f : DriveUnit → DriveUnit × List Signal) :
    (s.driveOperation f).xfer = s.xfer := rfl
@[simp] theorem State.driveOperation_wt (f : DriveUnit → DriveUnit × List Signal) :
    (s.driveOperation f).wt = s.wt := rfl
@[simp] theorem State.driveOperation_drives (f : DriveUnit → DriveUnit × List Signal) :
    (s.driveOperation f).drives = s.drives.set s.board.selDrive (f s.selected).1 := rfl
@[simp] theorem State.driveOperation_board (f : DriveUnit → DriveUnit × List Signal) :
    (s.driveOperation f).board = s.board := rfl
@[simp] theorem State.driveOperation_disks (f : DriveUnit → DriveUnit × List Signal) :
    (s.driveOperation f).disks = s.disks := rfl
@[simp] theorem State.driveOperation_inputs (f : DriveUnit → DriveUnit × List Signal) :
    (s.driveOperation f).io.inputs = s.io.inputs := rfl
@[simp] theorem State.driveOperation_readData (f : DriveUnit → DriveUnit × List Signal) :
    (s.driveOperation f).io.readData = s.io.readData := rfl
@[simp] theorem State.driveOperation_signals (f : DriveUnit → DriveUnit × List Signal) :
    (s.driveOperation f).io.signals = s.io.signals ++ (f s.selected).2 := rfl
@[simp] theorem State.driveOperation_freeCount (f : DriveUnit → DriveUnit × List Signal) :
    (s.driveOperation f).io.freeCount = s.io.freeCount := rfl

/-! ### updateDisk -/

@[simp] theorem State.updateDisk_cfg (d : DriveNo) (f : DiskImage → DiskImage) :
    (s.updateDisk d f).cfg = s.cfg := rfl
@[simp] theorem State.updateDisk_regs (d : DriveNo) (f : DiskImage → DiskImage) :
    (s.updateDisk d f).regs = s.regs := rfl
@[simp] theorem State.updateDisk_seq (d : DriveNo) (f : DiskImage → DiskImage) :
    (s.updateDisk d f).seq = s.seq := rfl
@[simp] theorem State.updateDisk_latch (d : DriveNo) (f : DiskImage → DiskImage) :
    (s.updateDisk d f).latch = s.latch := rfl
@[simp] theorem State.updateDisk_stepDirection (d : DriveNo) (f : DiskImage → DiskImage) :
    (s.updateDisk d f).stepDirection = s.stepDirection := rfl
@[simp] theorem State.updateDisk_rotatingSectorCounter (d : DriveNo) (f : DiskImage → DiskImage) :
    (s.updateDisk d f).rotatingSectorCounter = s.rotatingSectorCounter := rfl
@[simp] theorem State.updateDisk_xfer (d : DriveNo) (f : DiskImage → DiskImage) :
    (s.updateDisk d f).xfer = s.xfer := rfl
@[simp] theorem State.updateDisk_wt (d : DriveNo) (f : DiskImage → DiskImage) :
    (s.updateDisk d f).wt = s.wt := rfl
@[simp] theorem State.updateDisk_drives (d : DriveNo) (f : DiskImage → DiskImage) :
    (s.updateDisk d f).drives = s.drives := rfl
@[simp] theorem State.updateDisk_board (d : DriveNo) (f : DiskImage → DiskImage) :
    (s.updateDisk d f).board = s.board := rfl
@[simp] theorem State.updateDisk_disks (d : DriveNo) (f : DiskImage → DiskImage) :
    (s.updateDisk d f).disks = s.disks.set d (f (s.disks.get d)) := rfl
@[simp] theorem State.updateDisk_io (d : DriveNo) (f : DiskImage → DiskImage) :
    (s.updateDisk d f).io = s.io := rfl

/-! ### drawByte -/

@[simp] theorem State.drawByte_cfg : s.drawByte.2.cfg = s.cfg := rfl
@[simp] theorem State.drawByte_regs : s.drawByte.2.regs = s.regs := rfl
@[simp] theorem State.drawByte_seq : s.drawByte.2.seq = s.seq := rfl
@[simp] theorem State.drawByte_latch : s.drawByte.2.latch = s.latch := rfl
@[simp] theorem State.drawByte_stepDirection : s.drawByte.2.stepDirection = s.stepDirection := rfl
@[simp] theorem State.drawByte_rotatingSectorCounter :
    s.drawByte.2.rotatingSectorCounter = s.rotatingSectorCounter := rfl
@[simp] theorem State.drawByte_xfer : s.drawByte.2.xfer = s.xfer := rfl
@[simp] theorem State.drawByte_wt : s.drawByte.2.wt = s.wt := rfl
@[simp] theorem State.drawByte_drives : s.drawByte.2.drives = s.drives := rfl
@[simp] theorem State.drawByte_board : s.drawByte.2.board = s.board := rfl
@[simp] theorem State.drawByte_disks : s.drawByte.2.disks = s.disks := rfl
@[simp] theorem State.drawByte_inputs : s.drawByte.2.io.inputs = s.io.inputs := rfl
@[simp] theorem State.drawByte_readData : s.drawByte.2.io.readData = s.io.readData := rfl
@[simp] theorem State.drawByte_signals : s.drawByte.2.io.signals = s.io.signals := rfl
@[simp] theorem State.drawByte_freeCount : s.drawByte.2.io.freeCount = s.io.freeCount + 1 := rfl

/-! ### readByte -/

@[simp] theorem State.readByte_cfg (d : DriveNo) (h : Head) (offset : Nat) :
    (s.readByte d h offset).2.cfg = s.cfg := by
  unfold State.readByte; split <;> rfl
@[simp] theorem State.readByte_regs (d : DriveNo) (h : Head) (offset : Nat) :
    (s.readByte d h offset).2.regs = s.regs := by
  unfold State.readByte; split <;> rfl
@[simp] theorem State.readByte_seq (d : DriveNo) (h : Head) (offset : Nat) :
    (s.readByte d h offset).2.seq = s.seq := by
  unfold State.readByte; split <;> rfl
@[simp] theorem State.readByte_latch (d : DriveNo) (h : Head) (offset : Nat) :
    (s.readByte d h offset).2.latch = s.latch := by
  unfold State.readByte; split <;> rfl
@[simp] theorem State.readByte_stepDirection (d : DriveNo) (h : Head) (offset : Nat) :
    (s.readByte d h offset).2.stepDirection = s.stepDirection := by
  unfold State.readByte; split <;> rfl
@[simp] theorem State.readByte_rotatingSectorCounter (d : DriveNo) (h : Head) (offset : Nat) :
    (s.readByte d h offset).2.rotatingSectorCounter = s.rotatingSectorCounter := by
  unfold State.readByte; split <;> rfl
@[simp] theorem State.readByte_xfer (d : DriveNo) (h : Head) (offset : Nat) :
    (s.readByte d h offset).2.xfer = s.xfer := by
  unfold State.readByte; split <;> rfl
@[simp] theorem State.readByte_wt (d : DriveNo) (h : Head) (offset : Nat) :
    (s.readByte d h offset).2.wt = s.wt := by
  unfold State.readByte; split <;> rfl
@[simp] theorem State.readByte_drives (d : DriveNo) (h : Head) (offset : Nat) :
    (s.readByte d h offset).2.drives = s.drives := by
  unfold State.readByte; split <;> rfl
@[simp] theorem State.readByte_board (d : DriveNo) (h : Head) (offset : Nat) :
    (s.readByte d h offset).2.board = s.board := by
  unfold State.readByte; split <;> rfl
@[simp] theorem State.readByte_disks (d : DriveNo) (h : Head) (offset : Nat) :
    (s.readByte d h offset).2.disks = s.disks := by
  unfold State.readByte; split <;> rfl
@[simp] theorem State.readByte_inputs (d : DriveNo) (h : Head) (offset : Nat) :
    (s.readByte d h offset).2.io.inputs = s.io.inputs := by
  unfold State.readByte; split <;> rfl
@[simp] theorem State.readByte_readData (d : DriveNo) (h : Head) (offset : Nat) :
    (s.readByte d h offset).2.io.readData = s.io.readData := by
  unfold State.readByte; split <;> rfl
@[simp] theorem State.readByte_signals (d : DriveNo) (h : Head) (offset : Nat) :
    (s.readByte d h offset).2.io.signals = s.io.signals := by
  unfold State.readByte; split <;> rfl

/-! ### writeByte -/

@[simp] theorem State.writeByte_cfg (d : DriveNo) (h : Head) (offset : Nat) (v : Byte) :
    (s.writeByte d h offset v).cfg = s.cfg := rfl
@[simp] theorem State.writeByte_regs (d : DriveNo) (h : Head) (offset : Nat) (v : Byte) :
    (s.writeByte d h offset v).regs = s.regs := rfl
@[simp] theorem State.writeByte_seq (d : DriveNo) (h : Head) (offset : Nat) (v : Byte) :
    (s.writeByte d h offset v).seq = s.seq := rfl
@[simp] theorem State.writeByte_latch (d : DriveNo) (h : Head) (offset : Nat) (v : Byte) :
    (s.writeByte d h offset v).latch = s.latch := rfl
@[simp] theorem State.writeByte_stepDirection (d : DriveNo) (h : Head) (offset : Nat) (v : Byte) :
    (s.writeByte d h offset v).stepDirection = s.stepDirection := rfl
@[simp] theorem State.writeByte_rotatingSectorCounter (d : DriveNo) (h : Head) (offset : Nat) (v : Byte) :
    (s.writeByte d h offset v).rotatingSectorCounter = s.rotatingSectorCounter := rfl
@[simp] theorem State.writeByte_xfer (d : DriveNo) (h : Head) (offset : Nat) (v : Byte) :
    (s.writeByte d h offset v).xfer = s.xfer := rfl
@[simp] theorem State.writeByte_wt (d : DriveNo) (h : Head) (offset : Nat) (v : Byte) :
    (s.writeByte d h offset v).wt = s.wt := rfl
@[simp] theorem State.writeByte_drives (d : DriveNo) (h : Head) (offset : Nat) (v : Byte) :
    (s.writeByte d h offset v).drives = s.drives := rfl
@[simp] theorem State.writeByte_board (d : DriveNo) (h : Head) (offset : Nat) (v : Byte) :
    (s.writeByte d h offset v).board = s.board := rfl
@[simp] theorem State.writeByte_disks (d : DriveNo) (h : Head) (offset : Nat) (v : Byte) :
    (s.writeByte d h offset v).disks = s.disks.set d ((s.disks.get d).writeByte h offset v) := rfl
@[simp] theorem State.writeByte_io (d : DriveNo) (h : Head) (offset : Nat) (v : Byte) :
    (s.writeByte d h offset v).io = s.io := rfl

/-! ### enterPhase -/

@[simp] theorem State.enterPhase_cfg (p : Phase) (n : Int) : (s.enterPhase p n).cfg = s.cfg := rfl
@[simp] theorem State.enterPhase_regs (p : Phase) (n : Int) : (s.enterPhase p n).regs = s.regs := rfl
@[simp] theorem State.enterPhase_phase (p : Phase) (n : Int) : (s.enterPhase p n).seq.phase = p := rfl
@[simp] theorem State.enterPhase_activeCommandClass (p : Phase) (n : Int) :
    (s.enterPhase p n).seq.activeCommandClass = s.seq.activeCommandClass := rfl
@[simp] theorem State.enterPhase_cyclesRemaining (p : Phase) (n : Int) :
    (s.enterPhase p n).seq.cyclesRemaining = n := rfl
@[simp] theorem State.enterPhase_confusion (p : Phase) (n : Int) :
    (s.enterPhase p n).seq.confusion = s.seq.confusion := rfl
@[simp] theorem State.enterPhase_latch (p : Phase) (n : Int) : (s.enterPhase p n).latch = s.latch := rfl
@[simp] theorem State.enterPhase_stepDirection (p : Phase) (n : Int) :
    (s.enterPhase p n).stepDirection = s.stepDirection := rfl
@[simp] theorem State.enterPhase_rotatingSectorCounter (p : Phase) (n : Int) :
    (s.enterPhase p n).rotatingSectorCounter = s.rotatingSectorCounter := rfl
@[simp] theorem State.enterPhase_xfer (p : Phase) (n : Int) : (s.enterPhase p n).xfer = s.xfer := rfl
@[simp] theorem State.enterPhase_wt (p : Phase) (n : Int) : (s.enterPhase p n).wt = s.wt := rfl
@[simp] theorem State.enterPhase_drives (p : Phase) (n : Int) : (s.enterPhase p n).drives = s.drives := rfl
@[simp] theorem State.enterPhase_board (p : Phase) (n : Int) : (s.enterPhase p n).board = s.board := rfl
@[simp] theorem State.enterPhase_disks (p : Phase) (n : Int) : (s.enterPhase p n).disks = s.disks := rfl
@[simp] theorem State.enterPhase_io (p : Phase) (n : Int) : (s.enterPhase p n).io = s.io := rfl

/-! ### awaitByte -/

@[simp] theorem State.awaitByte_cfg : s.awaitByte.cfg = s.cfg := rfl
@[simp] theorem State.awaitByte_regs : s.awaitByte.regs = s.regs := rfl
@[simp] theorem State.awaitByte_phase : s.awaitByte.seq.phase = s.seq.phase := rfl
@[simp] theorem State.awaitByte_activeCommandClass :
    s.awaitByte.seq.activeCommandClass = s.seq.activeCommandClass := rfl
@[simp] theorem State.awaitByte_cyclesRemaining :
    s.awaitByte.seq.cyclesRemaining = (s.cfg.byteTime : Int) := rfl
@[simp] theorem State.awaitByte_confusion : s.awaitByte.seq.confusion = s.seq.confusion := rfl
@[simp] theorem State.awaitByte_latch : s.awaitByte.latch = s.latch := rfl
@[simp] theorem State.awaitByte_stepDirection : s.awaitByte.stepDirection = s.stepDirection := rfl
@[simp] theorem State.awaitByte_rotatingSectorCounter :
    s.awaitByte.rotatingSectorCounter = s.rotatingSectorCounter := rfl
@[simp] theorem State.awaitByte_xfer : s.awaitByte.xfer = s.xfer := rfl
@[simp] theorem State.awaitByte_wt : s.awaitByte.wt = s.wt := rfl
@[simp] theorem State.awaitByte_drives : s.awaitByte.drives = s.drives := rfl
@[simp] theorem State.awaitByte_board : s.awaitByte.board = s.board := rfl
@[simp] theorem State.awaitByte_disks : s.awaitByte.disks = s.disks := rfl
@[simp] theorem State.awaitByte_io : s.awaitByte.io = s.io := rfl

/-! ### beginTransfer -/

@[simp] theorem State.beginTransfer_cfg : s.beginTransfer.cfg = s.cfg := rfl
@[simp] theorem State.beginTransfer_regs : s.beginTransfer.regs = s.regs := rfl
@[simp] theorem State.beginTransfer_phase : s.beginTransfer.seq.phase = .transferByte := rfl
@[simp] theorem State.beginTransfer_activeCommandClass :
    s.beginTransfer.seq.activeCommandClass = s.seq.activeCommandClass := rfl
@[simp] theorem State.beginTransfer_cyclesRemaining :
    s.beginTransfer.seq.cyclesRemaining = (s.cfg.byteTime : Int) := rfl
@[simp] theorem State.beginTransfer_confusion : s.beginTransfer.seq.confusion = s.seq.confusion := rfl
@[simp] theorem State.beginTransfer_latch : s.beginTransfer.latch = s.latch := rfl
@[simp] theorem State.beginTransfer_stepDirection : s.beginTransfer.stepDirection = s.stepDirection := rfl
@[simp] theorem State.beginTransfer_rotatingSectorCounter :
    s.beginTransfer.rotatingSectorCounter = s.rotatingSectorCounter := rfl
@[simp] theorem State.beginTransfer_xfer : s.beginTransfer.xfer = s.xfer := rfl
@[simp] theorem State.beginTransfer_wt : s.beginTransfer.wt = s.wt := rfl
@[simp] theorem State.beginTransfer_drives : s.beginTransfer.drives = s.drives := rfl
@[simp] theorem State.beginTransfer_board : s.beginTransfer.board = s.board := rfl
@[simp] theorem State.beginTransfer_disks : s.beginTransfer.disks = s.disks := rfl
@[simp] theorem State.beginTransfer_io : s.beginTransfer.io = s.io := rfl

/-! ### aimAtSector -/

@[simp] theorem State.aimAtSector_cfg : s.aimAtSector.cfg = s.cfg := rfl
@[simp] theorem State.aimAtSector_regs : s.aimAtSector.regs = s.regs := rfl
@[simp] theorem State.aimAtSector_seq : s.aimAtSector.seq = s.seq := rfl
@[simp] theorem State.aimAtSector_latch : s.aimAtSector.latch = s.latch := rfl
@[simp] theorem State.aimAtSector_stepDirection : s.aimAtSector.stepDirection = s.stepDirection := rfl
@[simp] theorem State.aimAtSector_rotatingSectorCounter :
    s.aimAtSector.rotatingSectorCounter = s.rotatingSectorCounter := rfl
@[simp] theorem State.aimAtSector_drive : s.aimAtSector.xfer.drive = s.xfer.drive := rfl
@[simp] theorem State.aimAtSector_head : s.aimAtSector.xfer.head = s.xfer.head := rfl
@[simp] theorem State.aimAtSector_sectorCount : s.aimAtSector.xfer.sectorCount = s.xfer.sectorCount := rfl
@[simp] theorem State.aimAtSector_sectorSize : s.aimAtSector.xfer.sectorSize = s.xfer.sectorSize := rfl
@[simp] theorem State.aimAtSector_base : s.aimAtSector.xfer.base = s.xfer.base := rfl
@[simp] theorem State.aimAtSector_offset :
    s.aimAtSector.xfer.offset = sectorOffset s.xfer.base s.regs.sector.toNat s.xfer.sectorSize := rfl
@[simp] theorem State.aimAtSector_byteCountRemaining :
    s.aimAtSector.xfer.byteCountRemaining = s.xfer.sectorSize := rfl
@[simp] theorem State.aimAtSector_wt : s.aimAtSector.wt = s.wt := rfl
@[simp] theorem State.aimAtSector_drives : s.aimAtSector.drives = s.drives := rfl
@[simp] theorem State.aimAtSector_board : s.aimAtSector.board = s.board := rfl
@[simp] theorem State.aimAtSector_disks : s.aimAtSector.disks = s.disks := rfl
@[simp] theorem State.aimAtSector_io : s.aimAtSector.io = s.io := rfl

/-! ### advanceTransfer -/

@[simp] theorem State.advanceTransfer_cfg : s.advanceTransfer.cfg = s.cfg := rfl
@[simp] theorem State.advanceTransfer_regs : s.advanceTransfer.regs = s.regs := rfl
@[simp] theorem State.advanceTransfer_seq : s.advanceTransfer.seq = s.seq := rfl
@[simp] theorem State.advanceTransfer_latch : s.advanceTransfer.latch = s.latch := rfl
@[simp] theorem State.advanceTransfer_stepDirection : s.advanceTransfer.stepDirection = s.stepDirection := rfl
@[simp] theorem State.advanceTransfer_rotatingSectorCounter :
    s.advanceTransfer.rotatingSectorCounter = s.rotatingSectorCounter := rfl
@[simp] theorem State.advanceTransfer_drive : s.advanceTransfer.xfer.drive = s.xfer.drive := rfl
@[simp] theorem State.advanceTransfer_head : s.advanceTransfer.xfer.head = s.xfer.head := rfl
@[simp] theorem State.advanceTransfer_sectorCount :
    s.advanceTransfer.xfer.sectorCount = s.xfer.sectorCount := rfl
@[simp] theorem State.advanceTransfer_sectorSize :
    s.advanceTransfer.xfer.sectorSize = s.xfer.sectorSize := rfl
@[simp] theorem State.advanceTransfer_base : s.advanceTransfer.xfer.base = s.xfer.base := rfl
@[simp] theorem State.advanceTransfer_offset : s.advanceTransfer.xfer.offset = s.xfer.offset + 1 := rfl
@[simp] theorem State.advanceTransfer_byteCountRemaining :
    s.advanceTransfer.xfer.byteCountRemaining = s.xfer.byteCountRemaining - 1 := rfl
@[simp] theorem State.advanceTransfer_wt : s.advanceTransfer.wt = s.wt := rfl
@[simp] theorem State.advanceTransfer_drives : s.advanceTransfer.drives = s.drives := rfl
@[simp] theorem State.advanceTransfer_board : s.advanceTransfer.board = s.board := rfl
@[simp] theorem State.advanceTransfer_disks : s.advanceTransfer.disks = s.disks := rfl
@[simp] theorem State.advanceTransfer_io : s.advanceTransfer.io = s.io := rfl

/-! ### answer -/

@[simp] theorem State.answer_cfg (b : Byte) : (s.answer b).cfg = s.cfg := rfl
@[simp] theorem State.answer_regs (b : Byte) : (s.answer b).regs = s.regs := rfl
@[simp] theorem State.answer_seq (b : Byte) : (s.answer b).seq = s.seq := rfl
@[simp] theorem State.answer_latch (b : Byte) : (s.answer b).latch = s.latch := rfl
@[simp] theorem State.answer_stepDirection (b : Byte) : (s.answer b).stepDirection = s.stepDirection := rfl
@[simp] theorem State.answer_rotatingSectorCounter (b : Byte) :
    (s.answer b).rotatingSectorCounter = s.rotatingSectorCounter := rfl
@[simp] theorem State.answer_xfer (b : Byte) : (s.answer b).xfer = s.xfer := rfl
@[simp] theorem State.answer_wt (b : Byte) : (s.answer b).wt = s.wt := rfl
@[simp] theorem State.answer_drives (b : Byte) : (s.answer b).drives = s.drives := rfl
@[simp] theorem State.answer_board (b : Byte) : (s.answer b).board = s.board := rfl
@[simp] theorem State.answer_disks (b : Byte) : (s.answer b).disks = s.disks := rfl
@[simp] theorem State.answer_inputs (b : Byte) : (s.answer b).io.inputs = s.io.inputs := rfl
@[simp] theorem State.answer_readData (b : Byte) : (s.answer b).io.readData = some b := rfl
@[simp] theorem State.answer_signals (b : Byte) : (s.answer b).io.signals = s.io.signals := rfl
@[simp] theorem State.answer_freeCount (b : Byte) : (s.answer b).io.freeCount = s.io.freeCount := rfl

/-! ### complete -/

@[simp] theorem State.complete_cfg (raise : Bool) :
    (s.complete raise).cfg = s.cfg := by
  cases raise <;> rfl
@[simp] theorem State.complete_cmd (raise : Bool) :
    (s.complete raise).regs.cmd = s.regs.cmd := by
  cases raise <;> rfl
@[simp] theorem State.complete_status (raise : Bool) :
    (s.complete raise).regs.status = putBit s.regs.status busyBit false := by
  cases raise <;> rfl
@[simp] theorem State.complete_track (raise : Bool) :
    (s.complete raise).regs.track = s.regs.track := by
  cases raise <;> rfl
@[simp] theorem State.complete_sector (raise : Bool) :
    (s.complete raise).regs.sector = s.regs.sector := by
  cases raise <;> rfl
@[simp] theorem State.complete_data (raise : Bool) :
    (s.complete raise).regs.data = s.regs.data := by
  cases raise <;> rfl
@[simp] theorem State.complete_intrq (raise : Bool) :
    (s.complete raise).regs.intrq = (raise || s.regs.intrq) := by
  cases raise <;> rfl
@[simp] theorem State.complete_drq (raise : Bool) :
    (s.complete raise).regs.drq = s.regs.drq := by
  cases raise <;> rfl
@[simp] theorem State.complete_phase (raise : Bool) :
    (s.complete raise).seq.phase = .idle := by
  cases raise <;> rfl
@[simp] theorem State.complete_activeCommandClass (raise : Bool) :
    (s.complete raise).seq.activeCommandClass = .none := by
  cases raise <;> rfl
@[simp] theorem State.complete_cyclesRemaining (raise : Bool) :
    (s.complete raise).seq.cyclesRemaining = s.seq.cyclesRemaining := by
  cases raise <;> rfl
@[simp] theorem State.complete_confusion (raise : Bool) :
    (s.complete raise).seq.confusion = s.seq.confusion := by
  cases raise <;> rfl
@[simp] theorem State.complete_latch (raise : Bool) :
    (s.complete raise).latch = s.latch := by
  cases raise <;> rfl
@[simp] theorem State.complete_stepDirection (raise : Bool) :
    (s.complete raise).stepDirection = s.stepDirection := by
  cases raise <;> rfl
@[simp] theorem State.complete_rotatingSectorCounter (raise : Bool) :
    (s.complete raise).rotatingSectorCounter = s.rotatingSectorCounter := by
  cases raise <;> rfl
@[simp] theorem State.complete_xfer (raise : Bool) :
    (s.complete raise).xfer = s.xfer := by
  cases raise <;> rfl
@[simp] theorem State.complete_wt (raise : Bool) :
    (s.complete raise).wt = s.wt := by
  cases raise <;> rfl
@[simp] theorem State.complete_drives (raise : Bool) :
    (s.complete raise).drives = s.drives.set s.board.selDrive { s.selected with motorSpinDownRemaining := s.cfg.spinDownTime } := by
  cases raise <;> rfl
@[simp] theorem State.complete_board (raise : Bool) :
    (s.complete raise).board = s.board := by
  cases raise <;> rfl
@[simp] theorem State.complete_disks (raise : Bool) :
    (s.complete raise).disks = s.disks := by
  cases raise <;> rfl
@[simp] theorem State.complete_io (raise : Bool) :
    (s.complete raise).io = s.io := by
  cases raise <;> rfl

end Sys2Proof.Machine
end

