-- ==== Sys2Proof/Laws/Flags.lean ====
section
/-! SUPPORT. Reading a status bit after each update that writes the status register. -/

namespace Sys2Proof.Machine

@[simp] theorem putBit_getLsbD (v : Byte) (i : Nat) (b : Bool) (j : Nat) (hi : i < 8) :
    (putBit v i b).getLsbD j = if i = j then b else v.getLsbD j := by
  by_cases hj : j < 8
  · unfold putBit
    cases b <;> by_cases h : i = j
    · subst h; simp [hi]
    · simpa [h, hj] using fun _ => Ne.symm h
    · subst h; simp [hi]
    · simpa [h, hj] using fun e => absurd (Eq.symm e) h
  · have high : ∀ w : Byte, w.getLsbD j = false := fun w => BitVec.getLsbD_of_ge w j (by omega)
    rw [high, high, if_neg (by omega)]

theorem keepBusyMotor_getLsbD (v : Byte) (j : Nat) :
    (v &&& 0x81).getLsbD j = if j = 0 ∨ j = 7 then v.getLsbD j else false := by
  rw [BitVec.getLsbD_and]
  by_cases hj : j < 8
  · have : j = 0 ∨ j = 1 ∨ j = 2 ∨ j = 3 ∨ j = 4 ∨ j = 5 ∨ j = 6 ∨ j = 7 := by omega
    rcases this with h | h | h | h | h | h | h | h <;> subst h <;> simp
  · have h0 : ¬(j = 0 ∨ j = 7) := by omega
    simp [h0, BitVec.getLsbD_of_ge _ j (Nat.le_of_not_lt hj)]

variable (s : State)

/-- `statusBit` looks at the status register only. -/
theorem State.statusBit_congr (t : State) (j : Nat) (h : t.regs.status = s.regs.status) :
    t.statusBit j = s.statusBit j := by
  simp [State.statusBit, h]

@[simp] theorem State.statusBit_setStatusBit (i : Nat) (b : Bool) (j : Nat) (hi : i < 8) :
    (s.setStatusBit i b).statusBit j = if i = j then b else s.statusBit j := by
  simp [State.statusBit, hi]

@[simp] theorem State.statusBit_setError (i j : Nat) (hi : i < 8) :
    (s.setError i).statusBit j = if i = j then true else s.statusBit j := by
  simp [State.statusBit, hi]

@[simp] theorem State.statusBit_statusInit (j : Nat) :
    s.statusInit.statusBit j = if j = 0 ∨ j = 7 then s.statusBit j else false := by
  simp only [State.statusBit, State.statusInit_status, keepBusyMotor_getLsbD]

@[simp] theorem State.statusBit_setDrq (j : Nat) :
    s.setDrq.statusBit j = if requestBit = j then true else s.statusBit j := by
  simp [State.statusBit]

@[simp] theorem State.statusBit_withdrawDrq (j : Nat) :
    s.withdrawDrq.statusBit j = if requestBit = j then false else s.statusBit j := by
  simp [State.statusBit]

@[simp] theorem State.statusBit_clearDrq (j : Nat) :
    s.clearDrq.statusBit j = if s.regs.drq = true ∧ requestBit = j then false else s.statusBit j := by
  unfold State.clearDrq; split <;> simp_all

@[simp] theorem State.statusBit_lostDataCheck (j : Nat) :
    s.lostDataCheck.statusBit j = if s.regs.drq = true ∧ lostDataBit = j then true else s.statusBit j := by
  unfold State.lostDataCheck
  split
  · next h => rw [State.statusBit_setError s lostDataBit j (by decide)]; simp [h]
  · next h => simp [h]

@[simp] theorem State.statusBit_toggleIndexBit (j : Nat) :
    s.toggleIndexBit.statusBit j =
      if s.seq.activeCommandClass = .typeI ∧ requestBit = j then !s.statusBit requestBit else s.statusBit j := by
  unfold State.toggleIndexBit; split <;> simp_all

@[simp] theorem State.statusBit_complete (raise : Bool) (j : Nat) :
    (s.complete raise).statusBit j = if busyBit = j then false else s.statusBit j := by
  simp [State.statusBit]

@[simp] theorem State.statusBit_setCommand (v : Byte) (j : Nat) : (s.setCommand v).statusBit j = s.statusBit j := rfl
@[simp] theorem State.statusBit_setTrack (v : Byte) (j : Nat) : (s.setTrack v).statusBit j = s.statusBit j := rfl
@[simp] theorem State.statusBit_setSector (v : Byte) (j : Nat) : (s.setSector v).statusBit j = s.statusBit j := rfl
@[simp] theorem State.statusBit_setData (v : Byte) (j : Nat) : (s.setData v).statusBit j = s.statusBit j := rfl
@[simp] theorem State.statusBit_setLatch (l : LatchedFields) (j : Nat) : (s.setLatch l).statusBit j = s.statusBit j := rfl
@[simp] theorem State.statusBit_setDirection (dir : StepDirection) (j : Nat) : (s.setDirection dir).statusBit j = s.statusBit j := rfl
@[simp] theorem State.statusBit_setPhase (p : Phase) (j : Nat) : (s.setPhase p).statusBit j = s.statusBit j := rfl
@[simp] theorem State.statusBit_setClass (c : CommandClass) (j : Nat) : (s.setClass c).statusBit j = s.statusBit j := rfl
@[simp] theorem State.statusBit_setConfusion (b : Bool) (j : Nat) : (s.setConfusion b).statusBit j = s.statusBit j := rfl
@[simp] theorem State.statusBit_setCycles (n : Int) (j : Nat) : (s.setCycles n).statusBit j = s.statusBit j := rfl
@[simp] theorem State.statusBit_setByteCount (n : Nat) (j : Nat) : (s.setByteCount n).statusBit j = s.statusBit j := rfl
@[simp] theorem State.statusBit_setRotating (n : Nat) (j : Nat) : (s.setRotating n).statusBit j = s.statusBit j := rfl
@[simp] theorem State.statusBit_setScan (w : WriteTrackScan) (j : Nat) : (s.setScan w).statusBit j = s.statusBit j := rfl
@[simp] theorem State.statusBit_aimAt (size : Nat) (j : Nat) : (s.aimAt size).statusBit j = s.statusBit j := rfl
@[simp] theorem State.statusBit_setIntrq (b : Bool) (j : Nat) : (s.setIntrq b).statusBit j = s.statusBit j := rfl
@[simp] theorem State.statusBit_updateDrive (d : DriveNo) (f : DriveUnit → DriveUnit) (j : Nat) :
    (s.updateDrive d f).statusBit j = s.statusBit j := rfl
@[simp] theorem State.statusBit_driveOperation (f : DriveUnit → DriveUnit × List Signal) (j : Nat) :
    (s.driveOperation f).statusBit j = s.statusBit j := rfl
@[simp] theorem State.statusBit_updateDisk (d : DriveNo) (f : DiskImage → DiskImage) (j : Nat) :
    (s.updateDisk d f).statusBit j = s.statusBit j := rfl
@[simp] theorem State.statusBit_drawByte (j : Nat) : s.drawByte.2.statusBit j = s.statusBit j := rfl
@[simp] theorem State.statusBit_readByte (d : DriveNo) (h : Head) (offset j : Nat) :
    (s.readByte d h offset).2.statusBit j = s.statusBit j := by
  simp [State.statusBit]
@[simp] theorem State.statusBit_writeByte (d : DriveNo) (h : Head) (offset : Nat) (v : Byte) (j : Nat) :
    (s.writeByte d h offset v).statusBit j = s.statusBit j := rfl
@[simp] theorem State.statusBit_enterPhase (p : Phase) (n : Int) (j : Nat) :
    (s.enterPhase p n).statusBit j = s.statusBit j := rfl
@[simp] theorem State.statusBit_awaitByte (j : Nat) : s.awaitByte.statusBit j = s.statusBit j := rfl
@[simp] theorem State.statusBit_beginTransfer (j : Nat) : s.beginTransfer.statusBit j = s.statusBit j := rfl
@[simp] theorem State.statusBit_aimAtSector (j : Nat) : s.aimAtSector.statusBit j = s.statusBit j := rfl
@[simp] theorem State.statusBit_advanceTransfer (j : Nat) : s.advanceTransfer.statusBit j = s.statusBit j := rfl
@[simp] theorem State.statusBit_answer (b : Byte) (j : Nat) : (s.answer b).statusBit j = s.statusBit j := rfl

end Sys2Proof.Machine
end

