-- ==== Sys2Proof/Laws/Memory.lean ====
section
/-! SUPPORT. The laws of the image memory: a read after a write, and the canonical form, which every memory operation keeps. -/

namespace Sys2Proof.Machine

/-- A read after a write: the byte written at its offset, the byte that was there at any other. -/
theorem Memory.read_write (m : Memory) (x : Nat) (v : Byte) (y : Nat) :
    Memory.read (Memory.write m x v) y = if x = y then some v else Memory.read m y := by
  induction m with
  | nil => simp [Memory.write, Memory.read]
  | cons c m ih =>
    obtain ⟨a, b⟩ := c
    simp only [Memory.write]
    split
    · simp only [Memory.read]
    · split
      · subst x; simp only [Memory.read]; split <;> simp_all
      · simp only [Memory.read, ih]; split <;> split <;> simp_all

/-- The canonical form of a cons: the tail is canonical and lies above the head. -/
theorem Memory.wf_cons (a : Nat) (b : Byte) (m : Memory) :
    Memory.wf ((a, b) :: m) = true ↔ Memory.wf m = true ∧ ∀ c ∈ m.head?, a < c.1 := by
  cases m with
  | nil => simp [Memory.wf]
  | cons c m => obtain ⟨a', b'⟩ := c; simp [Memory.wf, and_comm]

/-- The first entry after a write is the one written or the old first one. -/
theorem Memory.head_write (m : Memory) (x : Nat) (v : Byte) :
    ∀ c ∈ (Memory.write m x v).head?, c.1 = x ∨ c ∈ m.head? := by
  cases m with
  | nil => simp [Memory.write]
  | cons c m =>
    obtain ⟨a, b⟩ := c
    simp only [Memory.write]
    split
    · simp
    · split <;> simp_all

/-- A write keeps the canonical form. -/
theorem Memory.wf_write (m : Memory) (x : Nat) (v : Byte) (h : Memory.wf m = true) :
    Memory.wf (Memory.write m x v) = true := by
  induction m with
  | nil => rfl
  | cons c m ih =>
    obtain ⟨a, b⟩ := c
    rw [Memory.wf_cons] at h
    simp only [Memory.write]
    split
    · next hlt => simpa [Memory.wf_cons, h.1, hlt] using fun y w hy => h.2 (y, w) hy
    · next hge =>
      split
      · next heq => subst heq; rw [Memory.wf_cons]; exact h
      · next hne =>
        rw [Memory.wf_cons]
        refine ⟨ih h.1, fun c hc => ?_⟩
        rcases Memory.head_write m x v c hc with h' | h'
        · omega
        · exact h.2 c h'

/-- Loading a list of cells gives a canonical memory. -/
theorem Memory.wf_ofCells (cells : List Host.Cell) : Memory.wf (Memory.ofCells cells) = true := by
  have : ∀ (cells : List Host.Cell) (m : Memory), Memory.wf m = true →
      Memory.wf (cells.foldl (fun m c => Memory.write m c.1 c.2) m) = true := by
    intro cells
    induction cells with
    | nil => exact fun m h => h
    | cons c cells ih => exact fun m h => ih _ (Memory.wf_write m c.1 c.2 h)
  exact this cells [] rfl

/-- Equal reads make canonical memories equal: equal memories are equal data. -/
theorem Memory.eq_of_read (m n : Memory) (hm : Memory.wf m = true) (hn : Memory.wf n = true)
    (h : ∀ x, Memory.read m x = Memory.read n x) : m = n := by
  have above : ∀ (m : Memory) (x : Nat), Memory.wf m = true → (∀ c ∈ m.head?, x < c.1) → Memory.read m x = none := by
    intro m
    induction m with
    | nil => intros; rfl
    | cons c m ih =>
      obtain ⟨a, b⟩ := c
      intro x hwf hx
      rw [Memory.wf_cons] at hwf
      have hxa : x < a := hx (a, b) (by simp)
      simp only [Memory.read]
      rw [if_neg (by omega)]
      exact ih x hwf.1 fun c hc => by have := hwf.2 c hc; omega
  induction m generalizing n with
  | nil =>
    cases n with
    | nil => rfl
    | cons c n => obtain ⟨a, b⟩ := c; have := h a; simp [Memory.read] at this
  | cons c m ih =>
    obtain ⟨a, b⟩ := c
    cases n with
    | nil => have := h a; simp [Memory.read] at this
    | cons c' n =>
      obtain ⟨a', b'⟩ := c'
      have wfm := (Memory.wf_cons a b m).1 hm
      have wfn := (Memory.wf_cons a' b' n).1 hn
      have haa : a = a' := by
        rcases Nat.lt_trichotomy a a' with hlt | heq | hgt
        · have h1 := h a
          rw [above ((a', b') :: n) a hn (by simpa using hlt)] at h1
          simp [Memory.read] at h1
        · exact heq
        · have h1 := h a'
          rw [above ((a, b) :: m) a' hm (by simpa using hgt)] at h1
          simp [Memory.read] at h1
      subst haa
      have hb : b = b' := by have := h a; simpa [Memory.read] using this
      subst hb
      congr 1
      refine ih n wfm.1 wfn.1 fun x => ?_
      by_cases hx : a = x
      · subst hx; rw [above m a wfm.1 wfm.2, above n a wfn.1 wfn.2]
      · have := h x; simpa [Memory.read, hx] using this

/-! ## Per-drive entries -/

@[simp] theorem PerDrive.get_set {α : Type} (p : PerDrive α) (d e : DriveNo) (a : α) :
    (p.set d a).get e = if d = e then a else p.get e := by
  cases d <;> cases e <;> rfl

@[simp] theorem PerDrive.set_set {α : Type} (p : PerDrive α) (d : DriveNo) (a b : α) :
    (p.set d a).set d b = p.set d b := by
  cases d <;> rfl

@[simp] theorem PerDrive.set_get {α : Type} (p : PerDrive α) (d : DriveNo) : p.set d (p.get d) = p := by
  cases d <;> rfl

theorem PerDrive.ext_get {α : Type} (p q : PerDrive α) (h : ∀ d, p.get d = q.get d) : p = q := by
  cases p; cases q
  have h0 := h .drive0
  have h1 := h .drive1
  simp only [PerDrive.get] at h0 h1
  simp [h0, h1]

/-! ## Images -/

@[simp] theorem ImageSide.writeByte_tracks (side : ImageSide) (offset : Nat) (v : Byte) :
    (side.writeByte offset v).tracks = side.tracks := rfl

@[simp] theorem DiskImage.writeByte_isOpen (i : DiskImage) (h : Head) (offset : Nat) (v : Byte) :
    (i.writeByte h offset v).isOpen = i.isOpen := by cases h <;> rfl

@[simp] theorem DiskImage.writeByte_isWriteProtected (i : DiskImage) (h : Head) (offset : Nat) (v : Byte) :
    (i.writeByte h offset v).isWriteProtected = i.isWriteProtected := by cases h <;> rfl

@[simp] theorem DiskImage.writeByte_mediaDensity (i : DiskImage) (h : Head) (offset : Nat) (v : Byte) :
    (i.writeByte h offset v).mediaDensity = i.mediaDensity := by cases h <;> rfl

@[simp] theorem DiskImage.writeByte_sectorBias (i : DiskImage) (h : Head) (offset : Nat) (v : Byte) :
    (i.writeByte h offset v).sectorBias = i.sectorBias := by cases h <;> rfl

@[simp] theorem DiskImage.side_writeByte (i : DiskImage) (h k : Head) (offset : Nat) (v : Byte) :
    (i.writeByte h offset v).side k = if h = k then (i.side k).writeByte offset v else i.side k := by
  cases h <;> cases k <;> rfl

/-- What a write does to the image space: the one byte at (d, h, offset) becomes `v`, every other byte reads as before. -/
theorem State.imageByte_writeByte (s : State) (d : DriveNo) (h : Head) (offset : Nat) (v : Byte) (d' : DriveNo) (h' : Head)
    (offset' : Nat) :
    (s.writeByte d h offset v).imageByte d' h' offset' =
      if d = d' ∧ h = h' ∧ offset = offset' then some v else s.imageByte d' h' offset' := by
  simp only [State.imageByte, State.disk, State.writeByte_disks, PerDrive.get_set]
  by_cases hd : d = d'
  · subst hd
    by_cases hh : h = h'
    · subst hh; simp [ImageSide.writeByte, Memory.read_write]
    · simp [hh]
  · simp [hd]

/-- A read of the image: the byte it holds, without a draw, or else a free byte, with one draw. -/
theorem State.readByte_cases (s : State) (d : DriveNo) (h : Head) (offset : Nat) :
    (∃ b, s.imageByte d h offset = some b ∧ s.readByte d h offset = (b, s)) ∨
      (s.imageByte d h offset = none ∧ s.readByte d h offset = (Config.freeByte s.io.freeCount, s.drawByte.2)) := by
  unfold State.readByte
  cases s.imageByte d h offset with
  | some b => exact .inl ⟨b, rfl, rfl⟩
  | none => exact .inr ⟨rfl, rfl⟩

/-- A memory operation keeps every image canonical. -/
theorem State.writeByte_canonical (s : State) (d : DriveNo) (h : Head) (offset : Nat) (v : Byte)
    (hs : ∀ d h, Memory.wf ((s.disk d).side h).bytes = true) :
    ∀ d' h', Memory.wf (((s.writeByte d h offset v).disk d').side h').bytes = true := by
  intro d' h'
  have hs' := hs d' h'
  simp only [State.disk] at hs' ⊢
  simp only [State.writeByte_disks, PerDrive.get_set]
  by_cases hd : d = d'
  · subst hd
    by_cases hh : h = h'
    · subst hh; simpa [ImageSide.writeByte] using Memory.wf_write _ offset v hs'
    · simpa [hh] using hs'
  · simpa [hd] using hs'

/-- An image as it is loaded is canonical. -/
theorem DiskImage.canonical_wf (i : DiskImage) (h : Head) : Memory.wf ((i.canonical).side h).bytes = true := by
  cases h <;> exact Memory.wf_ofCells _

/-- An ejected image is canonical: it holds nothing. -/
theorem DiskImage.ejected_wf (i : DiskImage) (h : Head) : Memory.wf ((i.ejected).side h).bytes = true := by
  cases h <;> rfl

end Sys2Proof.Machine
end

