-- ==== Sys2Proof/Laws/Drive.lean ====
section
/-! SUPPORT. What each drive operation does to the record: the closed forms of spec/40_drive_unit.md R130 and R131, and the
fields it leaves alone. -/

namespace Sys2Proof.Machine

theorem trackCount_pos (t : TracksPerDisk) : 1 ≤ trackCount t := by cases t <;> decide

theorem DriveUnit.stepSize_pos (D : DriveUnit) : 1 ≤ D.stepSize := by
  unfold DriveUnit.stepSize; split <;> decide

/-- A record with the head loaded if the door is closed: what every drive operation leaves behind (R121). -/
def DriveUnit.loaded (D : DriveUnit) : DriveUnit := { D with headLoaded := D.headLoaded || D.doorClosed }

theorem DriveUnit.loadHead_eq (D : DriveUnit) : D.loadHead = (D.loaded, [.motorSpinning]) := by
  cases D with
  | mk p t hl dc w a m => cases hl <;> cases dc <;> rfl

/-- A record with the head loaded and standing at a position: what the moves leave behind. -/
def DriveUnit.loadedAt (D : DriveUnit) (position : Nat) : DriveUnit := { D.loaded with trackPosition := position }

@[simp] theorem DriveUnit.loaded_loadedAt (D : DriveUnit) (p : Nat) : (D.loadedAt p).loaded = D.loadedAt p := by
  simp [DriveUnit.loadedAt, DriveUnit.loaded]

@[simp] theorem DriveUnit.loadedAt_loadedAt (D : DriveUnit) (p q : Nat) : (D.loadedAt p).loadedAt q = D.loadedAt q := by
  simp [DriveUnit.loadedAt, DriveUnit.loaded]

@[simp] theorem DriveUnit.loadedAt_trackPosition (D : DriveUnit) (p : Nat) : (D.loadedAt p).trackPosition = p := rfl
@[simp] theorem DriveUnit.loadedAt_stepSize (D : DriveUnit) (p : Nat) : (D.loadedAt p).stepSize = D.stepSize := rfl
@[simp] theorem DriveUnit.loadedAt_lastTrack (D : DriveUnit) (p : Nat) : (D.loadedAt p).lastTrack = D.lastTrack := rfl
@[simp] theorem DriveUnit.loaded_trackPosition (D : DriveUnit) : D.loaded.trackPosition = D.trackPosition := rfl
@[simp] theorem DriveUnit.loaded_stepSize (D : DriveUnit) : D.loaded.stepSize = D.stepSize := rfl
@[simp] theorem DriveUnit.loaded_lastTrack (D : DriveUnit) : D.loaded.lastTrack = D.lastTrack := rfl

/-- The record after `stepIn` (R123): the clamp covers the boundary case too. -/
theorem DriveUnit.stepIn_record (D : DriveUnit) :
    D.stepIn.1 = D.loadedAt (min (D.trackPosition + D.stepSize) D.lastTrack) := by
  simp only [DriveUnit.stepIn, DriveUnit.loadHead_eq, DriveUnit.loaded_trackPosition, DriveUnit.loaded_lastTrack,
    DriveUnit.loaded_stepSize]
  split
  · next h => simp [DriveUnit.loadedAt, ← h, DriveUnit.loaded]
  · rfl

/-- The record after `stepOut` (R124). -/
theorem DriveUnit.stepOut_record (D : DriveUnit) : D.stepOut.1 = D.loadedAt (D.trackPosition - D.stepSize) := by
  simp only [DriveUnit.stepOut, DriveUnit.loadHead_eq, DriveUnit.loaded_trackPosition, DriveUnit.loaded_stepSize]
  split
  · next h => simp [DriveUnit.loadedAt, h, DriveUnit.loaded]
  · rfl

theorem DriveUnit.stepMany_succ (D : DriveUnit) (dir : StepDirection) (n : Nat) :
    (D.stepMany dir (n + 1)).1 = ((D.stepOnce dir).1.stepMany dir n).1 := rfl

/-- `n + 1` steps inward: the head is loaded and stands at `min (t + n * step, last)` (R130). -/
theorem DriveUnit.stepMany_inward (D : DriveUnit) (n : Nat) :
    (D.stepMany .inward (n + 1)).1 = D.loadedAt (positionInward D (n + 1)) := by
  induction n generalizing D with
  | zero => simp [DriveUnit.stepMany, DriveUnit.stepOnce, DriveUnit.stepIn_record, positionInward]
  | succ n ih =>
    rw [DriveUnit.stepMany_succ]
    simp only [DriveUnit.stepOnce]
    rw [DriveUnit.stepIn_record, ih]
    simp only [DriveUnit.loadedAt_loadedAt, positionInward, DriveUnit.loadedAt_trackPosition,
      DriveUnit.loadedAt_stepSize, DriveUnit.loadedAt_lastTrack]
    congr 1
    have := DriveUnit.stepSize_pos D
    rw [Nat.succ_mul (n + 1) D.stepSize]
    omega

/-- `n + 1` steps outward: the head is loaded and stands at `max (t - n * step, 0)` (R130). -/
theorem DriveUnit.stepMany_outward (D : DriveUnit) (n : Nat) :
    (D.stepMany .outward (n + 1)).1 = D.loadedAt (positionOutward D (n + 1)) := by
  induction n generalizing D with
  | zero => simp [DriveUnit.stepMany, DriveUnit.stepOnce, DriveUnit.stepOut_record, positionOutward]
  | succ n ih =>
    rw [DriveUnit.stepMany_succ]
    simp only [DriveUnit.stepOnce]
    rw [DriveUnit.stepOut_record, ih]
    simp only [DriveUnit.loadedAt_loadedAt, positionOutward, DriveUnit.loadedAt_trackPosition,
      DriveUnit.loadedAt_stepSize]
    congr 1
    rw [Nat.succ_mul (n + 1) D.stepSize]
    omega

/-- Enough steps outward bring the head to 0; the other fields are those of a loaded head, or untouched at track 0. -/
theorem DriveUnit.stepOutUntilZero_record (D : DriveUnit) (fuel : Nat) (h : D.trackPosition ≤ fuel) :
    (D.stepOutUntilZero fuel).1 = if D.trackPosition = 0 then D else D.loadedAt 0 := by
  induction fuel generalizing D with
  | zero => simp [DriveUnit.stepOutUntilZero, Nat.le_zero.1 h]
  | succ fuel ih =>
    unfold DriveUnit.stepOutUntilZero
    split
    · rfl
    · next hne =>
      have := DriveUnit.stepSize_pos D
      simp only
      rw [DriveUnit.stepOut_record, ih _ (by simp; omega)]
      simp only [DriveUnit.loadedAt_trackPosition, DriveUnit.loadedAt_loadedAt]
      split
      · next h0 => rw [h0]
      · rfl

/-- `restoreHead` (R131): position 0 whatever it was. -/
theorem DriveUnit.restoreHead_record (D : DriveUnit) :
    D.restoreHead.1 = if D.trackPosition = 0 then D else D.loadedAt 0 :=
  DriveUnit.stepOutUntilZero_record D D.trackPosition (Nat.le_refl _)

end Sys2Proof.Machine
end

