-- ==== Sys2Proof/Laws/Moves.lean ====
section
/-! SUPPORT. What loading the head, a move and the entry of Seeking can do (spec/41_sequencer.md R143,
spec/42_type1_commands.md R180 to R187). -/

namespace Sys2Proof.Machine

/-- A drive operation leaves a record whose media, sensors and countdown are the old ones and whose head is loaded if it was
or the door is closed, or is as it was. -/
structure DriveUnit.Operated (D D' : DriveUnit) : Prop where
  tracksPerDisk : D'.tracksPerDisk = D.tracksPerDisk
  doorClosed : D'.doorClosed = D.doorClosed
  writeProtected : D'.writeProtected = D.writeProtected
  available : D'.available = D.available
  countdown : D'.motorSpinDownRemaining = D.motorSpinDownRemaining
  range : D.trackPosition ≤ D.lastTrack → D'.trackPosition ≤ D'.lastTrack

theorem DriveUnit.Operated.rfl (D : DriveUnit) : D.Operated D := ⟨Eq.refl _, Eq.refl _, Eq.refl _, Eq.refl _, Eq.refl _, id⟩

theorem DriveUnit.operated_loaded (D : DriveUnit) : D.Operated D.loaded :=
  ⟨Eq.refl _, Eq.refl _, Eq.refl _, Eq.refl _, Eq.refl _, id⟩

theorem DriveUnit.operated_loadedAt (D : DriveUnit) (p : Nat) (h : D.trackPosition ≤ D.lastTrack → p ≤ D.lastTrack) :
    D.Operated (D.loadedAt p) :=
  ⟨Eq.refl _, Eq.refl _, Eq.refl _, Eq.refl _, Eq.refl _, h⟩

theorem DriveUnit.operated_stepIn (D : DriveUnit) : D.Operated D.stepIn.1 := by
  rw [DriveUnit.stepIn_record]; exact D.operated_loadedAt _ fun _ => Nat.min_le_right _ _

theorem DriveUnit.operated_stepOut (D : DriveUnit) : D.Operated D.stepOut.1 := by
  rw [DriveUnit.stepOut_record]; exact D.operated_loadedAt _ fun h => Nat.le_trans (Nat.sub_le _ _) h

theorem DriveUnit.operated_stepMany (D : DriveUnit) (dir : StepDirection) (n : Nat) : D.Operated (D.stepMany dir n).1 := by
  cases n with
  | zero => exact .rfl D
  | succ n =>
    cases dir with
    | inward => rw [DriveUnit.stepMany_inward]; exact D.operated_loadedAt _ fun _ => Nat.min_le_right _ _
    | outward => rw [DriveUnit.stepMany_outward]; exact D.operated_loadedAt _ fun h => Nat.le_trans (Nat.sub_le _ _) h

theorem DriveUnit.operated_restoreHead (D : DriveUnit) : D.Operated D.restoreHead.1 := by
  rw [DriveUnit.restoreHead_record]
  split
  · exact .rfl D
  · exact D.operated_loadedAt _ fun _ => Nat.zero_le _

/-- A state in which only the selected drive's record and the feedback signals have changed, by drive operations. -/
structure HeadMoved (s t : State) : Prop where
  eq : t = { s with drives := t.drives, io.signals := t.io.signals }
  selected : s.selected.Operated t.selected
  other : ∀ d, d ≠ s.board.selDrive → t.drive d = s.drive d

theorem HeadMoved.rfl (s : State) : HeadMoved s s := ⟨Eq.refl _, .rfl _, fun _ _ => Eq.refl _⟩

theorem HeadMoved.driveOperation (s : State) (f : DriveUnit → DriveUnit × List Signal)
    (h : s.selected.Operated (f s.selected).1) : HeadMoved s (s.driveOperation f) := by
  refine ⟨Eq.refl _, ?_, fun d hd => ?_⟩
  · simpa [State.selected, State.drive] using h
  · simp [State.drive, Ne.symm hd]

theorem HeadMoved.range {s t : State} (h : HeadMoved s t) (hs : ∀ d, (s.drive d).trackPosition ≤ (s.drive d).lastTrack) :
    ∀ d, (t.drive d).trackPosition ≤ (t.drive d).lastTrack := by
  intro d
  by_cases hd : d = s.board.selDrive
  · have hb : t.board = s.board := by rw [h.eq]
    have := h.selected.range (hs _)
    rwa [State.selected, hb, ← hd] at this
  · rw [h.other d hd]; exact hs d

theorem restoreMove_moved (s : State) : HeadMoved s (restoreMove s).state :=
  .driveOperation s _ s.selected.operated_restoreHead

theorem seekMove_moved (s : State) : HeadMoved s (seekMove s).state := by
  simp only [seekMove]
  split
  · exact .driveOperation s _ (s.selected.operated_stepMany .inward _)
  · split
    · exact .driveOperation s _ (s.selected.operated_stepMany .outward _)
    · exact .rfl s

theorem stepMove_moved (s : State) : HeadMoved s (stepMove s).state := by
  unfold stepMove
  split
  · exact .driveOperation s _ s.selected.operated_stepIn
  · exact .driveOperation s _ s.selected.operated_stepOut

theorem stepInMove_moved (s : State) : HeadMoved s (stepInMove s).state :=
  .driveOperation s _ s.selected.operated_stepIn

theorem stepOutMove_moved (s : State) : HeadMoved s (stepOutMove s).state :=
  .driveOperation s _ s.selected.operated_stepOut

/-- A move of the latched command moves the selected head only, and there is one exactly for a Type I command. -/
theorem latchedMove_moved (s : State) (m : Move) (h : latchedMove s = some m) : HeadMoved s m.state := by
  unfold latchedMove at h
  split at h <;> cases h
  · exact restoreMove_moved s
  · exact seekMove_moved s
  · exact stepMove_moved s
  · exact stepInMove_moved s
  · exact stepOutMove_moved s

theorem latchedMove_isSome (s : State) : (latchedMove s).isSome = isTypeIKind s.latch.cmdKind := by
  unfold latchedMove isTypeIKind; cases s.latch.cmdKind <;> rfl

/-- The state in which `EnterSeeking` computes the move: phase Seeking, STATUS[5] set. -/
def State.atSeekEntry (s : State) : State := (s.setPhase .seeking).setStatusBit spinUpBit true

theorem enterSeeking_eq (s : State) :
    enterSeeking s =
      if seekConfused s then .next ((s.atSeekEntry.setConfusion true).setCycles (s.cfg.confusionTime : Int))
      else
        match latchedMove s.atSeekEntry with
        | some m => .next m.finish
        | none => .fault .impossibleSequencerPosition := rfl

/-- Everything `EnterSeeking` can do: the confusion sub-phase with nothing moved (R187), or the whole move (R180). -/
theorem enterSeeking_cases (s t : State) (h : enterSeeking s = .next t) :
    (seekConfused s = true ∧
        t = (s.atSeekEntry.setConfusion true).setCycles (s.cfg.confusionTime : Int)) ∨
      (seekConfused s = false ∧
        ∃ m, latchedMove s.atSeekEntry = some m ∧ HeadMoved s.atSeekEntry m.state ∧ t = m.finish) := by
  rw [enterSeeking_eq] at h
  split at h
  · next hc => cases h; exact .inl ⟨hc, rfl⟩
  · next hc =>
    split at h
    · next m hm => cases h; exact .inr ⟨by simpa using hc, m, hm, latchedMove_moved _ m hm, rfl⟩
    · cases h

/-- `EnterSeeking` of a Type I command answers a next state. -/
theorem enterSeeking_completes (s : State) (h : isTypeIKind s.latch.cmdKind = true) : ∃ t, enterSeeking s = .next t := by
  rw [enterSeeking_eq]
  split
  · exact ⟨_, rfl⟩
  · have : (latchedMove s.atSeekEntry).isSome := by rw [latchedMove_isSome]; exact h
    obtain ⟨m, hm⟩ := Option.isSome_iff_exists.1 this
    rw [hm]; exact ⟨_, rfl⟩

end Sys2Proof.Machine
end

