-- ==== Sys2Proof/Laws/Commands.lean ====
section
/-! SUPPORT. What a command write can do, said once for every command that starts a phase (spec/41_sequencer.md R140, R143). -/

namespace Sys2Proof.Machine

/-- The state a command has been accepted in and marked busy, with the motor on and its class active. -/
def State.begun (s : State) (i : Instr) : State :=
  ((((acceptCommand i (latchedFields i) s).setDirection (directionAfter i s.stepDirection)).setClass
    (startedClass i)).setStatusBit busyBit true).setStatusBit motorBit true

theorem begun_status (v : Byte) : putBit (putBit (v &&& 0x81) busyBit true) motorBit true = 0x81 := by
  revert v; decide

theorem State.begun_regs (s : State) (i : Instr) :
    (s.begun i).regs = { s.regs with cmd := encode i, status := 0x81, intrq := false, drq := false } := by
  have h : (s.begun i).regs.status = 0x81 := begun_status s.regs.status
  rw [← h]; rfl

@[simp] theorem State.begun_cfg (s : State) (i : Instr) : (s.begun i).cfg = s.cfg := rfl
@[simp] theorem State.begun_phase (s : State) (i : Instr) : (s.begun i).seq.phase = s.seq.phase := rfl
@[simp] theorem State.begun_class (s : State) (i : Instr) : (s.begun i).seq.activeCommandClass = startedClass i := rfl
@[simp] theorem State.begun_confusion (s : State) (i : Instr) : (s.begun i).seq.confusion = false := rfl
@[simp] theorem State.begun_latch (s : State) (i : Instr) : (s.begun i).latch = latchedFields i := rfl
@[simp] theorem State.begun_stepDirection (s : State) (i : Instr) :
    (s.begun i).stepDirection = directionAfter i s.stepDirection := rfl
@[simp] theorem State.begun_rotatingSectorCounter (s : State) (i : Instr) :
    (s.begun i).rotatingSectorCounter = s.rotatingSectorCounter := rfl
@[simp] theorem State.begun_xfer (s : State) (i : Instr) : (s.begun i).xfer = s.xfer := rfl
@[simp] theorem State.begun_wt (s : State) (i : Instr) : (s.begun i).wt = s.wt := rfl
@[simp] theorem State.begun_drives (s : State) (i : Instr) : (s.begun i).drives = s.drives := rfl
@[simp] theorem State.begun_board (s : State) (i : Instr) : (s.begun i).board = s.board := rfl
@[simp] theorem State.begun_disks (s : State) (i : Instr) : (s.begun i).disks = s.disks := rfl
@[simp] theorem State.begun_io (s : State) (i : Instr) : (s.begun i).io = s.io := rfl

/-- A command that starts a phase, written when Idle: its own phase begins at once if spin-up is skipped, else SpinUp. -/
theorem exec_starts (i : Instr) (s : State) (hc : startedClass i ≠ .none) (hp : s.seq.phase = .idle) :
    exec i s =
      if skipsSpinUp s i then beginCommandPhase (s.begun i)
      else .next ((s.begun i).enterPhase .spinUp (s.cfg.spinUpTime : Int)) := by
  have key : ∀ cls (u : State), startCommand cls u =
      if u.statusBit motorBit || (decide (cls = .typeI) && u.latch.hFlag) then
        beginCommandPhase (((u.setClass cls).setStatusBit busyBit true).setStatusBit motorBit true)
      else .next ((((u.setClass cls).setStatusBit busyBit true).setStatusBit motorBit true).enterPhase .spinUp
        (u.cfg.spinUpTime : Int)) := by
    intro cls u; simp [startCommand, motorBit, busyBit]
  have hm : ∀ l, (acceptCommand i l s).statusBit motorBit = s.statusBit motorBit := by
    intro l; simp [acceptCommand, motorBit]
  have hm' : ∀ l d, ((acceptCommand i l s).setDirection d).statusBit motorBit = s.statusBit motorBit := by
    intro l d; simp [acceptCommand, motorBit]
  unfold skipsSpinUp
  cases i <;> simp only [startedClass, ne_eq, not_true_eq_false] at hc <;>
    simp only [exec, execRestore, execSeek, execStep, execStepin, execStepout, execRdsec, execWrsec, execRdaddr, execWrtrk,
      whenIdle, hp, if_true, key, hm, hm', startedClass] <;> rfl

/-- `BeginCommandPhase` by class (R143). -/
theorem beginCommandPhase_transfer (s : State) (h : isTransferClass s.seq.activeCommandClass = true) :
    beginCommandPhase s = .next ((s.driveOperation DriveUnit.loadHead).enterPhase
      (classEntry s.seq.activeCommandClass s.latch.settleFlag)
      (entryWait s.cfg (classEntry s.seq.activeCommandClass s.latch.settleFlag) : Int)) := by
  cases hc : s.seq.activeCommandClass <;> rw [hc] at h <;> first | (cases h; done) | skip
  all_goals simp only [beginCommandPhase, State.driveOperation_seq, hc, State.driveOperation_latch, State.driveOperation_cfg]
  all_goals
    by_cases hf : s.latch.settleFlag = true <;> simp [classEntry, entryWait, hf]

theorem beginCommandPhase_typeI (s : State) (h : s.seq.activeCommandClass = .typeI) :
    beginCommandPhase s = enterSeeking (s.driveOperation DriveUnit.loadHead) := by
  simp [beginCommandPhase, h]

/-- The drives after the head has been loaded and a run of moves has left it at `position`. -/
theorem drives_loadedAt (s : State) (f : DriveUnit → DriveUnit × List Signal) (p : Nat)
    (h : (f s.selected.loaded).1 = s.selected.loadedAt p) :
    ((s.driveOperation DriveUnit.loadHead).driveOperation f).drives = drivesWithHeadAt s p := by
  have hs : (s.driveOperation DriveUnit.loadHead).selected = s.selected.loaded := by
    simp [State.selected, State.drive, DriveUnit.loadHead_eq]
  simp only [State.driveOperation_drives, State.driveOperation_board, hs, h, PerDrive.set_set]
  rfl

theorem drives_loaded (s : State) :
    (s.driveOperation DriveUnit.loadHead).drives = drivesWithHeadAt s s.selected.trackPosition := by
  simp [DriveUnit.loadHead_eq, drivesWithHeadAt, DriveUnit.loaded]

/-- The state in which the move of a command is computed: head loaded, phase Seeking, STATUS[5] set. -/
def State.moving (s : State) : State := (s.driveOperation DriveUnit.loadHead).atSeekEntry

/-- The whole move of a latched Type I command on entry to Seeking, in closed form (R180 to R185). -/
theorem latchedMove_closed (s : State) (h : isTypeIKind s.latch.cmdKind = true) :
    ∃ m, latchedMove s.moving = some m ∧ m.target = moveTarget s s.latch.cmdKind ∧
      m.tracksPassed = movePassed s s.latch.cmdKind ∧ HeadMoved s.moving m.state ∧
      m.state.drives = drivesWithHeadAt s (movePosition s s.latch.cmdKind) := by
  have hl : s.moving.latch = s.latch := rfl
  have hsel : s.moving.selected = s.selected.loaded := by
    simp [State.moving, State.atSeekEntry, State.selected, State.drive, DriveUnit.loadHead_eq]
  have step : ∀ (f : DriveUnit → DriveUnit × List Signal) p, (f s.selected.loaded).1 = s.selected.loadedAt p →
      (s.moving.driveOperation f).drives = drivesWithHeadAt s p := fun f p hf => drives_loadedAt s f p hf
  have hin : s.selected.loaded.stepIn.1 = s.selected.loadedAt (positionInward s.selected 1) := by
    rw [DriveUnit.stepIn_record]; simp [DriveUnit.loadedAt, DriveUnit.loaded, positionInward]; rfl
  have hout : s.selected.loaded.stepOut.1 = s.selected.loadedAt (positionOutward s.selected 1) := by
    rw [DriveUnit.stepOut_record]; simp [DriveUnit.loadedAt, DriveUnit.loaded, positionOutward]; rfl
  unfold latchedMove
  rw [hl]
  cases hk : s.latch.cmdKind <;> rw [hk] at h <;> first | (cases h; done) | skip
  · exact ⟨_, rfl, rfl, rfl, restoreMove_moved _, step _ 0 (by
      rw [DriveUnit.restoreHead_record]
      split
      · next h0 => rw [DriveUnit.loadedAt, ← h0]
      · simp [DriveUnit.loadedAt, DriveUnit.loaded])⟩
  · refine ⟨_, rfl, rfl, rfl, seekMove_moved _, ?_⟩
    have many : ∀ dir n, 1 ≤ n → (s.selected.loaded.stepMany dir n).1 = s.selected.loadedAt
        (match dir with | .inward => positionInward s.selected n | .outward => positionOutward s.selected n) := by
      intro dir n hn
      obtain ⟨n, rfl⟩ : ∃ k, n = k + 1 := ⟨n - 1, by omega⟩
      cases dir
      · rw [DriveUnit.stepMany_inward]; simp [DriveUnit.loadedAt, DriveUnit.loaded, positionInward]; rfl
      · rw [DriveUnit.stepMany_outward]; simp [DriveUnit.loadedAt, DriveUnit.loaded, positionOutward]; rfl
    have ht : s.moving.regs.track = s.regs.track := rfl
    have hd : s.moving.regs.data = s.regs.data := rfl
    simp only [seekMove, movePosition, movePassed, ht, hd]
    split
    · next h1 => exact step _ _ (many .inward _ (by unfold absDiff; omega))
    · split
      · next h1 => exact step _ _ (many .outward _ (by unfold absDiff; omega))
      · exact drives_loaded s
  · simp only [stepMove, moveTarget, movePosition]
    rw [show s.moving.stepDirection = s.stepDirection from rfl]
    cases s.stepDirection
    · exact ⟨_, rfl, rfl, rfl, stepInMove_moved _, step _ _ hin⟩
    · exact ⟨_, rfl, rfl, rfl, stepOutMove_moved _, step _ _ hout⟩
  · exact ⟨_, rfl, rfl, rfl, stepInMove_moved _, step _ _ hin⟩
  · exact ⟨_, rfl, rfl, rfl, stepOutMove_moved _, step _ _ hout⟩

/-- `EnterSeeking` of a Type I command without confusion, in closed form (R180). -/
theorem enterSeeking_closed (s : State) (h : isTypeIKind s.latch.cmdKind = true) (hc : seekConfused s = false) :
    ∃ t, enterSeeking (s.driveOperation DriveUnit.loadHead) = .next t ∧
      t.regs = { s.regs with status := putBit s.regs.status spinUpBit true, track := moveTarget s s.latch.cmdKind } ∧
      t.seq = { s.seq with phase := .seeking, cyclesRemaining := (seekCycles s (movePassed s s.latch.cmdKind) : Int) } ∧
      t.latch = s.latch ∧ t.stepDirection = s.stepDirection ∧
      t.drives = drivesWithHeadAt s (movePosition s s.latch.cmdKind) ∧ RestUnchanged s t := by
  obtain ⟨m, hm, h1, h2, h3, h4⟩ := latchedMove_closed s h
  have hcf : seekConfused (s.driveOperation DriveUnit.loadHead) = false := hc
  rw [enterSeeking_eq, hcf, show (s.driveOperation DriveUnit.loadHead).atSeekEntry = s.moving from rfl, hm]
  refine ⟨_, rfl, ?_, ?_, ?_, ?_, ?_, ?_⟩
  · simp only [Move.finish, h1]; rw [h3.eq]; rfl
  · simp only [Move.finish, h2]; rw [h3.eq]; rfl
  · simp only [Move.finish]; rw [h3.eq]; rfl
  · simp only [Move.finish]; rw [h3.eq]; rfl
  · exact h4
  · have e := h3.eq
    constructor <;> simp only [Move.finish, imagesUnchanged] <;> rw [e] <;> first | rfl | exact fun _ _ _ => rfl

/-- `EnterSeeking` of a Type I command in confusion, in closed form (R187). -/
theorem enterSeeking_confused (s : State) (hc : seekConfused s = true) :
    enterSeeking (s.driveOperation DriveUnit.loadHead)
      = .next ((s.moving.setConfusion true).setCycles (s.cfg.confusionTime : Int)) := by
  have hcf : seekConfused (s.driveOperation DriveUnit.loadHead) = true := hc
  rw [enterSeeking_eq, hcf]; rfl

end Sys2Proof.Machine
end

