-- ==== Sys2Proof/Laws/Completion.lean ====
section
/-! SUPPORT. The status bits as masks, completion in closed form (spec/41_sequencer.md R150), and what a poll does
(R145, R146). -/

namespace Sys2Proof.Machine

/-! ### Status bits as masks -/

theorem putBit_busy_clear (v : Byte) : putBit v busyBit false = v &&& 0xFE := by revert v; decide
theorem putBit_request_set (v : Byte) : putBit v requestBit true = v ||| 0x02 := by revert v; decide
theorem putBit_request_clear (v : Byte) : putBit v requestBit false = v &&& 0xFD := by revert v; decide
theorem putBit_lostData_set (v : Byte) : putBit v lostDataBit true = v ||| 0x04 := by revert v; decide
theorem putBit_error_set (v : Byte) : putBit v errorBit true = v ||| 0x10 := by revert v; decide
theorem putBit_spinUp_set (v : Byte) : putBit v spinUpBit true = v ||| 0x20 := by revert v; decide
theorem putBit_recordType_clear (v : Byte) : putBit v recordTypeBit false = v &&& 0xDF := by revert v; decide
theorem putBit_writeProtect_set (v : Byte) : putBit v writeProtectBit true = v ||| 0x40 := by revert v; decide
theorem putBit_motor_clear (v : Byte) : putBit v motorBit false = v &&& 0x7F := by revert v; decide

/-- `LostDataCheck` in closed form (R155). -/
theorem State.lostDataCheck_eq (s : State) : s.lostDataCheck = { s with regs.status := lostDataStatus s } := by
  simp only [State.lostDataCheck, lostDataStatus, State.setError, State.setStatusBit, putBit_lostData_set]
  split <;> rfl

/-! ### Completion -/

theorem State.complete_regs_eq (s : State) (raise : Bool) :
    (s.complete raise).regs
      = { s.regs with status := putBit s.regs.status busyBit false, intrq := s.regs.intrq || raise } := by
  cases raise <;>
    simp [State.complete, State.setStatusBit, State.setIntrq, State.setPhase, State.setClass, State.updateDrive]

theorem State.complete_seq_eq (s : State) (raise : Bool) :
    (s.complete raise).seq = { s.seq with phase := .idle, activeCommandClass := .none } := by
  cases raise <;> rfl

theorem State.complete_rest (s : State) (raise : Bool) : RestUnchanged s (s.complete raise) :=
  ⟨by simp, by simp, by simp, by simp, by simp, by simp, fun _ _ _ => by simp [State.imageByte, State.disk], by simp, by simp,
    by simp⟩

theorem RestUnchanged.trans {s t u : State} (h : RestUnchanged s t) (k : RestUnchanged t u) : RestUnchanged s u :=
  ⟨k.cfg.trans h.cfg, k.rotating.trans h.rotating, k.xfer.trans h.xfer, k.wt.trans h.wt, k.board.trans h.board,
    k.disks.trans h.disks, fun d hd o => (k.images d hd o).trans (h.images d hd o), k.inputs.trans h.inputs,
    k.answer.trans h.answer, k.draws.trans h.draws⟩

/-! ### Polls -/

/-- A poll in which the phase's wait ends runs the phase's expiry (R146). -/
theorem poll_expires (n : Nat) (s : State) (h : Expires n s) (hp : s.seq.phase ≠ .idle) :
    poll n s = phaseExpiry (s.setCycles (s.seq.cyclesRemaining - n)) := by
  obtain ⟨h1, h2⟩ := h
  rw [poll, if_neg (by omega), if_neg hp]
  exact if_neg (by simp; omega)

/-- A poll in which it does not end only counts (R145). -/
theorem poll_counts (n : Nat) (s : State) (hn : 1 ≤ n) (hp : s.seq.phase ≠ .idle) (hc : (n : Int) < s.seq.cyclesRemaining) :
    poll n s = .next (s.setCycles (s.seq.cyclesRemaining - n)) := by
  rw [poll, if_neg (by omega), if_neg hp]
  exact if_pos (by simp; omega)

/-- What the checks of `DoTransferPrepare` leave certain when they pass (R154). -/
theorem transferChecks_ok {s : State} {g : Geometry} (h : transferChecks s = .ok g) :
    1 ≤ g.sectorCount.val ∧ 1 ≤ g.sectorSize ∧
      (isSectorClass s.seq.activeCommandClass = true → s.regs.sector.toNat < g.sectorCount.val) := by
  unfold transferChecks at h
  simp only at h
  split at h
  · cases h
  split at h
  · cases h
  split at h
  · cases h
  split at h
  · cases h
  next h1 =>
  split at h
  · cases h
  split at h
  · cases h
  next h2 =>
  cases h
  simp only [not_or] at h1
  refine ⟨by omega, by omega, fun hc => ?_⟩
  simpa [hc] using h2

/-- The status bit a failed check sets (R154). -/
theorem transferChecks_error {s : State} {bit : Nat} (h : transferChecks s = .error bit) :
    bit = writeProtectBit ∨ bit = errorBit := by
  unfold transferChecks at h
  simp only at h
  repeat' split at h
  all_goals cases h <;> simp

/-- `EndOfSector` writes no image byte (R205). -/
theorem endOfSector_disks (isWrite : Bool) (s : State) : (endOfSector isWrite s).disks = s.disks := by
  unfold endOfSector
  simp only
  repeat' split
  all_goals simp

end Sys2Proof.Machine
end

