-- ==== Sys2Proof/Laws/Invariant.lean ====
section
/-! SUPPORT. The part of the invariant that does not speak of the sequencer position, what each shared operation does to it,
and the invariant of a state that has just completed a command. -/

namespace Sys2Proof.Machine

/-- The invariant's clauses about registers, latched fields, drives and images. -/
structure Basic (s : State) : Prop where
  drq_status : s.regs.drq = true → s.statusBit requestBit = true
  no_crc_error : s.statusBit crcErrorBit = false
  step_rate : s.latch.stepRateSel < 4
  id_index : s.wt.idIndex ≤ 3
  id_size : s.wt.idSeen = true → 1 ≤ s.wt.sectorSize
  head_in_range : ∀ d, (s.drive d).trackPosition ≤ (s.drive d).lastTrack
  images_canonical : ∀ d h, Memory.wf ((s.disk d).side h).bytes = true

theorem Invariant.basic {s : State} (h : Invariant s) : Basic s :=
  ⟨h.drq_status, h.no_crc_error, h.step_rate, h.id_index, h.id_size, h.head_in_range, h.images_canonical⟩

/-- The basic clauses look only at DRQ, STATUS, the latched fields, the scan, the drives and the images. -/
theorem Basic.congr {s t : State} (h : Basic s) (hdrq : t.regs.drq = s.regs.drq)
    (hstatus : t.regs.status = s.regs.status) (hlatch : t.latch = s.latch) (hwt : t.wt = s.wt)
    (hdrives : t.drives = s.drives) (hdisks : t.disks = s.disks) : Basic t := by
  obtain ⟨h1, h2, h3, h4, h5, h6, h7⟩ := h
  refine ⟨?_, ?_, ?_, ?_, ?_, ?_, ?_⟩ <;>
    simp_all [State.statusBit, State.drive, State.disk]

/-- An update of a drive that keeps the head in range keeps the basic clauses. -/
theorem Basic.updateDrive {s : State} (h : Basic s) (d : DriveNo) (f : DriveUnit → DriveUnit)
    (hf : (f (s.drive d)).trackPosition ≤ (f (s.drive d)).lastTrack) : Basic (s.updateDrive d f) := by
  refine ⟨h.drq_status, h.no_crc_error, h.step_rate, h.id_index, h.id_size, fun e => ?_, h.images_canonical⟩
  by_cases hd : d = e
  · subst hd; simpa [State.drive] using hf
  · simpa [State.drive, hd] using h.head_in_range e

/-- A status bit other than Data Request and CRC Error may be written freely. -/
theorem Basic.setStatusBit {s : State} (h : Basic s) (i : Nat) (b : Bool) (hi : i < 8) (h1 : i ≠ 1) (h3 : i ≠ 3) :
    Basic (s.setStatusBit i b) := by
  refine ⟨fun hd => ?_, ?_, h.step_rate, h.id_index, h.id_size, h.head_in_range, h.images_canonical⟩
  · simpa [hi, h1] using h.drq_status hd
  · simpa [hi, h3] using h.no_crc_error

theorem Basic.setError {s : State} (h : Basic s) (i : Nat) (hi : i < 8) (h1 : i ≠ 1) (h3 : i ≠ 3) :
    Basic (s.setError i) := h.setStatusBit i true hi h1 h3

theorem Basic.setDrq {s : State} (h : Basic s) : Basic s.setDrq := by
  refine ⟨fun _ => by simp, ?_, h.step_rate, h.id_index, h.id_size, h.head_in_range, h.images_canonical⟩
  simpa using h.no_crc_error

theorem Basic.withdrawDrq {s : State} (h : Basic s) : Basic s.withdrawDrq := by
  refine ⟨fun hd => by simp at hd, ?_, h.step_rate, h.id_index, h.id_size, h.head_in_range, h.images_canonical⟩
  simpa using h.no_crc_error

theorem Basic.clearDrq {s : State} (h : Basic s) : Basic s.clearDrq := by
  unfold State.clearDrq; split
  · exact h.withdrawDrq
  · exact h

theorem Basic.lostDataCheck {s : State} (h : Basic s) : Basic s.lostDataCheck := by
  unfold State.lostDataCheck; split
  · exact h.setError _ (by decide) (by decide) (by decide)
  · exact h

theorem Basic.statusInit {s : State} (h : Basic s) : Basic s.statusInit := by
  refine ⟨fun hd => by simp at hd, by simp, h.step_rate, h.id_index, h.id_size, h.head_in_range, h.images_canonical⟩

theorem Basic.writeByte {s : State} (h : Basic s) (d : DriveNo) (k : Head) (offset : Nat) (v : Byte) :
    Basic (s.writeByte d k offset v) :=
  ⟨h.drq_status, h.no_crc_error, h.step_rate, h.id_index, h.id_size, h.head_in_range,
    s.writeByte_canonical d k offset v h.images_canonical⟩

theorem Basic.readByte {s : State} (h : Basic s) (d : DriveNo) (k : Head) (offset : Nat) :
    Basic (s.readByte d k offset).2 := by
  rcases s.readByte_cases d k offset with ⟨b, -, e⟩ | ⟨-, e⟩
  · rw [e]; exact h
  · rw [e]; exact h.congr rfl rfl rfl rfl rfl rfl

theorem Basic.moved {s t : State} (h : Basic s) (hm : HeadMoved s t) : Basic t := by
  have hr := hm.range h.head_in_range
  refine ⟨?_, ?_, ?_, ?_, ?_, hr, ?_⟩ <;> rw [hm.eq]
  exacts [h.drq_status, h.no_crc_error, h.step_rate, h.id_index, h.id_size, h.images_canonical]

/-- The basic clauses are all that completion needs: `Complete` re-establishes the whole invariant (R150). -/
theorem Basic.complete {s : State} (h : Basic s) (raise : Bool) : Invariant (s.complete raise) where
  busy_iff := by simp
  not_completing := by simp
  active_iff := by simp [isTransferClass]
  seeking_class := by simp
  settling_class := by simp
  prepare_class := by simp
  transfer_class := by simp
  typeI_kind := by simp
  drq_status := by simpa using h.drq_status
  typeI_no_drq := by simp
  transfer_drq := by simp [isTransferClass]
  no_crc_error := by simpa using h.no_crc_error
  cycles_nonneg := by simp
  confusion_phase := by simp
  step_rate := by simpa using h.step_rate
  id_index := by simpa using h.id_index
  id_size := by simpa using h.id_size
  context := by simp
  head_in_range := by
    intro d
    have := h.head_in_range d
    simp only [State.drive, State.complete_drives, PerDrive.get_set, State.selected] at this ⊢
    split
    · next e => subst e; exact this
    · exact this
  images_canonical := by
    intro d k
    simpa [State.disk] using h.images_canonical d k

/-- Taking an error re-establishes the whole invariant. -/
theorem Basic.abort {s : State} (h : Basic s) (bit : Nat) (hi : bit < 8) (h1 : bit ≠ 1) (h3 : bit ≠ 3) :
    Invariant (s.abort bit) :=
  (h.setError bit hi h1 h3).complete true

end Sys2Proof.Machine
end

