-- ==== Sys2Proof/Laws/PerInstr.lean ====
section
/-! SUPPORT. A statement about every command, one lemma for each constructor: the encoding selects the command
(spec/30_encoding.md R91), whatever its operands. -/

namespace Sys2Proof.Laws

/-- The encoding of a command decodes to a command of the same kind. -/
def EncodingSelects.Statement (i : Instr) : Prop := commandKind (decode (encode i)) = commandKind i

theorem encoding_selects_mod4 (f : Nat → Byte) (k : CmdKind) (h : ∀ r, r < 4 → commandKind (decode (f r)) = k) (r : Nat) :
    commandKind (decode (f (r % 4))) = k := h _ (Nat.mod_lt _ (by decide))

theorem EncodingSelects.restore (h v : Bool) (r : Nat) : EncodingSelects.Statement (.restore h v r) := by
  exact encoding_selects_mod4 (fun r => BitVec.ofNat 8 (0x00 + 8 * h.toNat + 4 * v.toNat + r)) .restore
    (by revert h v; decide) r

theorem EncodingSelects.seek (h v : Bool) (r : Nat) : EncodingSelects.Statement (.seek h v r) := by
  exact encoding_selects_mod4 (fun r => BitVec.ofNat 8 (0x10 + 8 * h.toNat + 4 * v.toNat + r)) .seek
    (by revert h v; decide) r

theorem EncodingSelects.step (u h v : Bool) (r : Nat) : EncodingSelects.Statement (.step u h v r) := by
  exact encoding_selects_mod4 (fun r => BitVec.ofNat 8 (0x20 + 16 * u.toNat + 8 * h.toNat + 4 * v.toNat + r)) .step
    (by revert u h v; decide) r

theorem EncodingSelects.stepin (u h v : Bool) (r : Nat) : EncodingSelects.Statement (.stepin u h v r) := by
  exact encoding_selects_mod4 (fun r => BitVec.ofNat 8 (0x40 + 16 * u.toNat + 8 * h.toNat + 4 * v.toNat + r)) .stepIn
    (by revert u h v; decide) r

theorem EncodingSelects.stepout (u h v : Bool) (r : Nat) : EncodingSelects.Statement (.stepout u h v r) := by
  exact encoding_selects_mod4 (fun r => BitVec.ofNat 8 (0x60 + 16 * u.toNat + 8 * h.toNat + 4 * v.toNat + r)) .stepOut
    (by revert u h v; decide) r

theorem typeII_selects (base : Nat) (k : CmdKind)
    (h : ∀ m e : Bool, ∀ y, y < 2 → ∀ z, z < 4 →
      commandKind (decode (BitVec.ofNat 8 (base + 16 * m.toNat + 4 * e.toNat + 8 * y + z))) = k)
    (m e : Bool) (x : Nat) :
    commandKind (decode (BitVec.ofNat 8 (base + 16 * m.toNat + 4 * e.toNat + 8 * (x / 4 % 2) + x % 4))) = k :=
  h m e _ (Nat.mod_lt _ (by decide)) _ (Nat.mod_lt _ (by decide))

theorem EncodingSelects.rdsec (m e : Bool) (x : Nat) : EncodingSelects.Statement (.rdsec m e x) :=
  typeII_selects 0x80 .readSector (by decide) m e x

theorem EncodingSelects.wrsec (m e : Bool) (x : Nat) : EncodingSelects.Statement (.wrsec m e x) :=
  typeII_selects 0xA0 .writeSector (by decide) m e x

theorem typeIII_selects (base : Nat) (k : CmdKind) (h : ∀ y, y < 16 → commandKind (decode (BitVec.ofNat 8 (base + y))) = k)
    (x : Nat) : commandKind (decode (BitVec.ofNat 8 (base + x % 16))) = k := h _ (Nat.mod_lt _ (by decide))

theorem EncodingSelects.rdaddr (x : Nat) : EncodingSelects.Statement (.rdaddr x) := typeIII_selects 0xC0 .readAddress (by decide) x

theorem EncodingSelects.forceint (i3 i2 : Bool) (x : Nat) : EncodingSelects.Statement (.forceint i3 i2 x) := by
  exact encoding_selects_mod4 (fun r => BitVec.ofNat 8 (0xD0 + 8 * i3.toNat + 4 * i2.toNat + r)) .forceInterrupt
    (by revert i3 i2; decide) x

theorem EncodingSelects.rdtrk (x : Nat) : EncodingSelects.Statement (.rdtrk x) := typeIII_selects 0xE0 .readTrack (by decide) x

theorem EncodingSelects.wrtrk (x : Nat) : EncodingSelects.Statement (.wrtrk x) := typeIII_selects 0xF0 .writeTrack (by decide) x

end Sys2Proof.Laws
end

