-- ==== Sys2Proof/Laws/Sequencer.lean ====
section
/-! SUPPORT. What the procedures of the sequencer do to the invariant: each establishes it again and answers a next state
(spec/41_sequencer.md, spec/43_type2_commands.md, spec/44_type3_commands.md). -/

namespace Sys2Proof.Machine

/-- A command on its way into a phase of its own: busy, a class active, no confusion. -/
structure Entering (s : State) : Prop where
  basic : Basic s
  busy : s.statusBit busyBit = true
  active : s.seq.activeCommandClass = .typeI ∨ isTransferClass s.seq.activeCommandClass = true
  kind : s.seq.activeCommandClass = .typeI → isTypeIKind s.latch.cmdKind = true
  typeI_no_drq : s.seq.activeCommandClass = .typeI → s.regs.drq = false
  transfer_drq : isTransferClass s.seq.activeCommandClass = true → s.statusBit requestBit = s.regs.drq
  no_confusion : s.seq.confusion = false

theorem isTransferClass_ne_typeI {c : CommandClass} (h : isTransferClass c = true) : c ≠ .typeI := by rintro rfl; cases h

/-- The invariant of a busy state from its parts. -/
theorem invariant_of_active {t : State} (b : Basic t) (busy : t.statusBit busyBit = true)
  (hp : t.seq.phase ≠ .idle) (hc : t.seq.phase ≠ .completing)
  (active : t.seq.activeCommandClass = .typeI ∨ isTransferClass t.seq.activeCommandClass = true)
  (h1 : t.seq.phase = .seeking → t.seq.activeCommandClass = .typeI)
  (h2 : t.seq.phase = .settling → isSectorClass t.seq.activeCommandClass = true)
  (h3 : t.seq.phase = .transferPrepare → isTransferClass t.seq.activeCommandClass = true)
  (h4 : t.seq.phase = .transferByte → isTransferClass t.seq.activeCommandClass = true ∧ TransferContextOk t)
  (kind : t.seq.activeCommandClass = .typeI → isTypeIKind t.latch.cmdKind = true)
  (nodrq : t.seq.activeCommandClass = .typeI → t.regs.drq = false)
  (tdrq : isTransferClass t.seq.activeCommandClass = true → t.statusBit requestBit = t.regs.drq)
  (cyc : 0 ≤ t.seq.cyclesRemaining)
  (conf : t.seq.confusion = true → t.seq.phase = .seeking) : Invariant t where
  busy_iff := by simp [busy, hp]
  not_completing := hc
  active_iff := by simp [hp, active]
  seeking_class := h1
  settling_class := h2
  prepare_class := h3
  transfer_class h := (h4 h).1
  typeI_kind := kind
  drq_status := b.drq_status
  typeI_no_drq := nodrq
  transfer_drq := tdrq
  no_crc_error := b.no_crc_error
  cycles_nonneg _ := cyc
  confusion_phase h _ := conf h
  step_rate := b.step_rate
  id_index := b.id_index
  id_size := b.id_size
  context h := (h4 h).2
  head_in_range := b.head_in_range
  images_canonical := b.images_canonical

theorem Entering.enterPhase_invariant {s : State} (e : Entering s) (p : Phase) (n : Nat)
   (hp : p = .spinUp ∨ (p = .settling ∧ isSectorClass s.seq.activeCommandClass = true) ∨ (p = .transferPrepare ∧ isTransferClass s.seq.activeCommandClass = true)) :
   Invariant (s.enterPhase p n) := by
  refine invariant_of_active (e.basic.congr rfl rfl rfl rfl rfl rfl) e.busy ?_ ?_ e.active ?_ ?_ ?_ ?_ e.kind e.typeI_no_drq e.transfer_drq ?_ ?_ <;>
  rcases hp with rfl | ⟨rfl, h⟩ | ⟨rfl, h⟩ <;> simp_all [e.no_confusion]

theorem Entering.enterSeeking_invariant {s t : State} (e : Entering s) (hc : s.seq.activeCommandClass = .typeI) (h : enterSeeking s = .next t) : Invariant t := by
  have hb : Basic s.atSeekEntry := by
    have h1 : Basic (s.setPhase .seeking) := e.basic.congr rfl rfl rfl rfl rfl rfl
    exact h1.setStatusBit _ _ (by decide) (by decide) (by decide)
  have hbz : s.atSeekEntry.statusBit busyBit = true := by
    have := e.busy
    simp only [State.atSeekEntry]
    rw [State.statusBit_setStatusBit _ _ _ _ (by decide)]
    simpa [State.statusBit] using this
  rcases enterSeeking_cases s t h with ⟨-, rfl⟩ | ⟨-, m, -, hm, rfl⟩
  · refine invariant_of_active (hb.congr rfl rfl rfl rfl rfl rfl) hbz (by simp [State.atSeekEntry]) (by simp [State.atSeekEntry]) (by simp [State.atSeekEntry, hc]) ?_ ?_ ?_ ?_ e.kind e.typeI_no_drq ?_ ?_ ?_ <;> simp_all [State.atSeekEntry, isTransferClass]
  · have hmb := hb.moved hm
    have hbz' : m.state.statusBit busyBit = true := by rw [hm.eq]; exact hbz
    have hph : m.state.seq = s.atSeekEntry.seq := by rw [hm.eq]
    have hl : m.state.latch = s.latch := by rw [hm.eq]; rfl
    have hd : m.state.regs.drq = s.regs.drq := by rw [hm.eq]; rfl
    have hh := e.kind hc
    have hh2 := e.typeI_no_drq hc
    have hcf := e.no_confusion
    refine invariant_of_active (hmb.congr rfl rfl rfl rfl rfl rfl) hbz' ?_ ?_ ?_ ?_ ?_ ?_ ?_ ?_ ?_ ?_ ?_ ?_ <;>
     simp [Move.finish, hph, State.atSeekEntry, hc, isTransferClass, hl, hd, hh, hh2]

theorem Entering.loadHead {s : State} (e : Entering s) : Entering (s.driveOperation DriveUnit.loadHead) := by
  have hm : HeadMoved s (s.driveOperation DriveUnit.loadHead) := .driveOperation s _ (by rw [DriveUnit.loadHead_eq]; exact DriveUnit.operated_loaded _)
  exact ⟨e.basic.moved hm, e.busy, e.active, e.kind, e.typeI_no_drq, e.transfer_drq, e.no_confusion⟩

/-- `BeginCommandPhase` establishes the invariant (R143). -/
theorem Entering.begin_invariant {s t : State} (e : Entering s) (h : beginCommandPhase s = .next t) : Invariant t := by
  have el := Entering.loadHead e
  unfold beginCommandPhase at h
  simp only at h
  split at h
  · next hc => exact Entering.enterSeeking_invariant el hc h
  · next hc =>
    split at h <;> cases h
    · exact Entering.enterPhase_invariant el _ _ (.inr (.inl ⟨rfl, by rw [hc]; rfl⟩))
    · exact Entering.enterPhase_invariant el _ 0 (.inr (.inr ⟨rfl, by rw [hc]; rfl⟩))
  · next hc =>
    split at h <;> cases h
    · exact Entering.enterPhase_invariant el _ _ (.inr (.inl ⟨rfl, by rw [hc]; rfl⟩))
    · exact Entering.enterPhase_invariant el _ 0 (.inr (.inr ⟨rfl, by rw [hc]; rfl⟩))
  · next hc => cases h; exact Entering.enterPhase_invariant el _ 0 (.inr (.inr ⟨rfl, by rw [hc]; rfl⟩))
  · next hc => cases h; exact Entering.enterPhase_invariant el _ 0 (.inr (.inr ⟨rfl, by rw [hc]; rfl⟩))
  · cases h
  · cases h

/-- `BeginCommandPhase` answers a next state (R143). -/
theorem Entering.begin_completes {s : State} (e : Entering s) : ∃ t, beginCommandPhase s = .next t := by
  have el := Entering.loadHead e
  unfold beginCommandPhase
  simp only
  split
  · next hc => exact enterSeeking_completes _ (el.kind hc)
  · split <;> exact ⟨_, rfl⟩
  · split <;> exact ⟨_, rfl⟩
  · exact ⟨_, rfl⟩
  · exact ⟨_, rfl⟩
  · next hc => have := el.active; rw [hc] at this; simp [isTransferClass] at this
  · next hc => have := el.active; rw [hc] at this; simp [isTransferClass] at this

/-- acceptCommand_accepted -/
structure Accepted (s : State) : Prop where
  basic : Basic s
  drq : s.regs.drq = false
  req : s.statusBit requestBit = false
  conf : s.seq.confusion = false

theorem acceptCommand_accepted (i : Instr) (l : LatchedFields) (s : State) (h : Basic s) (hl : l.stepRateSel < 4) : Accepted (acceptCommand i l s) where
  basic := ⟨by simp [acceptCommand], by simp [acceptCommand], hl, h.id_index, h.id_size, h.head_in_range, h.images_canonical⟩
  drq := by simp [acceptCommand]
  req := by simp [acceptCommand]
  conf := by simp [acceptCommand]

theorem Accepted.setDirection {s : State} (a : Accepted s) (dir : StepDirection) : Accepted (s.setDirection dir) :=
  ⟨a.basic.congr rfl rfl rfl rfl rfl rfl, a.drq, a.req, a.conf⟩

theorem Basic.setIntrq {s : State} (h : Basic s) (b : Bool) : Basic (s.setIntrq b) := h.congr rfl rfl rfl rfl rfl rfl
theorem Basic.setCommand {s : State} (h : Basic s) (v : Byte) : Basic (s.setCommand v) := h.congr rfl rfl rfl rfl rfl rfl

theorem Accepted.entering (cls : CommandClass) (s : State) (a : Accepted s) (hc : cls = .typeI ∧ isTypeIKind s.latch.cmdKind = true ∨ isTransferClass cls = true) :
   Entering (((s.setClass cls).setStatusBit busyBit true).setStatusBit motorBit true) := by
  have hb : Basic (s.setClass cls) := a.basic.congr rfl rfl rfl rfl rfl rfl
  refine ⟨(hb.setStatusBit _ _ (by decide) (by decide) (by decide)).setStatusBit _ _ (by decide) (by decide) (by decide), by simp, ?_, ?_, ?_, ?_, a.conf⟩
  · simp; rcases hc with ⟨h, -⟩ | h <;> simp [h]
  · intro h; simp at h; rcases hc with ⟨-, h'⟩ | h'
    · exact h'
    · subst h; cases h'
  · intro _; exact a.drq
  · intro _
    rw [State.statusBit_setStatusBit _ _ _ _ (by decide), State.statusBit_setStatusBit _ _ _ _ (by decide)]
    simpa [a.drq, State.statusBit] using a.req

/-- Starting an accepted command establishes the invariant (R140). -/
theorem Accepted.start_invariant {cls : CommandClass} {s t : State} (a : Accepted s) (hc : cls = .typeI ∧ isTypeIKind s.latch.cmdKind = true ∨ isTransferClass cls = true)
   (h : startCommand cls s = .next t) : Invariant t := by
  have e := Accepted.entering cls s a hc
  unfold startCommand at h
  simp only at h
  split at h
  · exact Entering.begin_invariant e h
  · cases h; exact Entering.enterPhase_invariant e _ _ (.inl rfl)

/-- Starting an accepted command answers a next state (R140). -/
theorem Accepted.start_completes {cls : CommandClass} {s : State} (a : Accepted s) (hc : cls = .typeI ∧ isTypeIKind s.latch.cmdKind = true ∨ isTransferClass cls = true) :
   ∃ t, startCommand cls s = .next t := by
  have e := Accepted.entering cls s a hc
  unfold startCommand
  simp only
  split
  · exact Entering.begin_completes e
  · exact ⟨_, rfl⟩

theorem Invariant.pending {s : State} {a : Bool} (hc : Invariant (s.complete a)) : Invariant ((s.complete a).setClass .forceInterrupt) :=
  ⟨hc.busy_iff, hc.not_completing, by simp [isTransferClass], by simp, by simp, by simp, by simp, by simp, hc.drq_status, by simp, by simp [isTransferClass], hc.no_crc_error, by simp, by simp, hc.step_rate, hc.id_index, hc.id_size, by simp, hc.head_in_range, hc.images_canonical⟩

/-! ### Expiries -/
theorem Invariant.entering {s : State} (h : Invariant s) (hp : s.seq.phase ≠ .idle) (hc : s.seq.phase ≠ .seeking) : Entering s :=
  ⟨h.basic, h.busy_iff.2 hp, h.active_iff.1 hp, h.typeI_kind, h.typeI_no_drq, h.transfer_drq, by
    cases e : s.seq.confusion
    · rfl
    · exact absurd (h.confusion_phase e hp) hc⟩

theorem Entering.setStatusBit {s : State} (e : Entering s) (i : Nat) (b : Bool) (hi : i < 8) (h0 : i ≠ 0) (h1 : i ≠ 1) (h3 : i ≠ 3) : Entering (s.setStatusBit i b) :=
  ⟨e.basic.setStatusBit i b hi h1 h3, by rw [State.statusBit_setStatusBit _ _ _ _ hi]; simpa [h0] using e.busy, e.active, e.kind, e.typeI_no_drq,
   fun h => by rw [State.statusBit_setStatusBit _ _ _ _ hi]; simpa [h1] using e.transfer_drq h, e.no_confusion⟩

theorem Entering.setCycles {s : State} (e : Entering s) (n : Int) : Entering (s.setCycles n) :=
  ⟨e.basic.congr rfl rfl rfl rfl rfl rfl, e.busy, e.active, e.kind, e.typeI_no_drq, e.transfer_drq, e.no_confusion⟩

/-- The end of Seeking establishes the invariant (R186). -/
theorem seekExpiry_invariant {s : State} (h : Basic s) : Invariant (seekExpiry s) := by
  simp only [seekExpiry]
  refine Basic.complete ?_ _
  refine (Basic.setStatusBit (Basic.setStatusBit ?_ _ _ (by decide) (by decide) (by decide)) _ _ (by decide) (by decide) (by decide))
  split
  · exact h.setError _ (by decide) (by decide) (by decide)
  · exact h

theorem Basic.xfer {s : State} (h : Basic s) (x : Transfer) : Basic { s with xfer := x } := h.congr rfl rfl rfl rfl rfl rfl
theorem Basic.setData {s : State} (h : Basic s) (v : Byte) : Basic (s.setData v) := h.congr rfl rfl rfl rfl rfl rfl
theorem Basic.setSector {s : State} (h : Basic s) (v : Byte) : Basic (s.setSector v) := h.congr rfl rfl rfl rfl rfl rfl
theorem Basic.setByteCount {s : State} (h : Basic s) (v : Nat) : Basic (s.setByteCount v) := h.congr rfl rfl rfl rfl rfl rfl
theorem Basic.setRotating {s : State} (h : Basic s) (v : Nat) : Basic (s.setRotating v) := h.congr rfl rfl rfl rfl rfl rfl
theorem Basic.advanceTransfer {s : State} (h : Basic s)  : Basic (s.advanceTransfer) := h.congr rfl rfl rfl rfl rfl rfl
theorem Basic.aimAt {s : State} (h : Basic s) (n) : Basic (s.aimAt n) := h.congr rfl rfl rfl rfl rfl rfl
theorem Basic.setScan {s : State} (h : Basic s) (w : WriteTrackScan) (h1 : w.idIndex ≤ 3) (h2 : w.idSeen = true → 1 ≤ w.sectorSize) : Basic (s.setScan w) :=
  ⟨h.drq_status, h.no_crc_error, h.step_rate, h1, h2, h.head_in_range, h.images_canonical⟩

/-- A transfer between two bytes: busy, a transfer class, the request line as STATUS[1], a latched geometry. -/
structure Moving (s : State) : Prop where
  basic : Basic s
  busy : s.statusBit busyBit = true
  active : isTransferClass s.seq.activeCommandClass = true
  drq : s.statusBit requestBit = s.regs.drq
  conf : s.seq.confusion = false
  count_pos : 1 ≤ s.xfer.sectorCount
  count_le : s.xfer.sectorCount ≤ 255
  size_pos : 1 ≤ s.xfer.sectorSize

theorem Moving.inv {s t : State} (m : Moving s) (hp : t.seq.phase = .transferByte) (hcl : t.seq.activeCommandClass = s.seq.activeCommandClass) (hcf : t.seq.confusion = s.seq.confusion) (hcy : 0 ≤ t.seq.cyclesRemaining)
  (ht : t = { s with seq := t.seq })
  (h1 : s.seq.activeCommandClass ≠ .readAddress → s.regs.sector.toNat < s.xfer.sectorCount)
  (h2 : s.seq.activeCommandClass ≠ .writeTrack ∨ s.wt.state = .data → 1 ≤ s.xfer.byteCountRemaining)
  (h3 : s.seq.activeCommandClass = .readAddress → s.xfer.byteCountRemaining ≤ 6) : Invariant t := by
  have nt := isTransferClass_ne_typeI m.active
  have e1 : t.regs = s.regs := by rw [ht]
  have e2 : t.xfer = s.xfer := by rw [ht]
  have e3 : t.wt = s.wt := by rw [ht]
  have e4 : t.latch = s.latch := by rw [ht]
  have e5 : t.drives = s.drives := by rw [ht]
  have e6 : t.disks = s.disks := by rw [ht]
  have sb : ∀ j, t.statusBit j = s.statusBit j := fun j => by simp [State.statusBit, e1]
  refine invariant_of_active (m.basic.congr (by rw [e1]) (by rw [e1]) e4 e3 e5 e6) (by rw [sb]; exact m.busy) (by simp [hp]) (by simp [hp]) (.inr (by rw [hcl]; exact m.active)) (by simp [hp]) (by simp [hp]) (by simp [hp]) ?_ ?_ ?_ ?_ hcy ?_
  · intro _
    refine ⟨by rw [hcl]; exact m.active, ?_, ?_, ?_, ?_, ?_, ?_⟩ <;> simp only [e1, e2, e3, hcl]
    exacts [m.count_pos, m.count_le, m.size_pos, h1, h2, h3]
  · intro h; exact absurd (hcl ▸ h) nt
  · intro h; exact absurd (hcl ▸ h) nt
  · intro _; rw [sb, e1]; exact m.drq
  · intro h; rw [hcf, m.conf] at h; cases h

theorem Moving.await {s : State} (m : Moving s) (hp : s.seq.phase = .transferByte)
  (h1 : s.seq.activeCommandClass ≠ .readAddress → s.regs.sector.toNat < s.xfer.sectorCount)
  (h2 : s.seq.activeCommandClass ≠ .writeTrack ∨ s.wt.state = .data → 1 ≤ s.xfer.byteCountRemaining)
  (h3 : s.seq.activeCommandClass = .readAddress → s.xfer.byteCountRemaining ≤ 6) : Invariant s.awaitByte :=
  m.inv hp rfl rfl (by simp) rfl h1 h2 h3

theorem Moving.begin {s : State} (m : Moving s)
  (h1 : s.seq.activeCommandClass ≠ .readAddress → s.regs.sector.toNat < s.xfer.sectorCount)
  (h2 : s.seq.activeCommandClass ≠ .writeTrack ∨ s.wt.state = .data → 1 ≤ s.xfer.byteCountRemaining)
  (h3 : s.seq.activeCommandClass = .readAddress → s.xfer.byteCountRemaining ≤ 6) : Invariant s.beginTransfer :=
  m.inv rfl rfl rfl (by simp) rfl h1 h2 h3

theorem Moving.congr {s t : State} (m : Moving s) (b : Basic t) (h1 : t.statusBit busyBit = s.statusBit busyBit) (h2 : t.seq = s.seq) (h3 : t.statusBit requestBit = t.regs.drq)
  (h4 : t.xfer.sectorCount = s.xfer.sectorCount) (h5 : t.xfer.sectorSize = s.xfer.sectorSize) : Moving t :=
  ⟨b, h1.trans m.busy, by rw [h2]; exact m.active, h3, by rw [h2]; exact m.conf, by rw [h4]; exact m.count_pos, by rw [h4]; exact m.count_le, by rw [h5]; exact m.size_pos⟩

theorem Moving.setDrq {s : State} (m : Moving s) : Moving s.setDrq := m.congr m.basic.setDrq (by simp) (by simp) (by simp) (by simp) (by simp)
theorem Moving.withdrawDrq {s : State} (m : Moving s) : Moving s.withdrawDrq := m.congr m.basic.withdrawDrq (by simp) (by simp) (by simp) (by simp) (by simp)
theorem Moving.lostDataCheck {s : State} (m : Moving s) : Moving s.lostDataCheck := m.congr m.basic.lostDataCheck (by simp) (by simp) (by simp [m.drq]) (by simp) (by simp)
theorem Moving.setData {s : State} (m : Moving s) (v) : Moving (s.setData v) := m.congr (m.basic.setData v) rfl rfl m.drq rfl rfl
theorem Moving.setSector {s : State} (m : Moving s) (v) : Moving (s.setSector v) := m.congr (m.basic.setSector v) rfl rfl m.drq rfl rfl
theorem Moving.setByteCount {s : State} (m : Moving s) (v) : Moving (s.setByteCount v) := m.congr (m.basic.setByteCount v) rfl rfl m.drq rfl rfl
theorem Moving.advanceTransfer {s : State} (m : Moving s)  : Moving (s.advanceTransfer) := m.congr (m.basic.advanceTransfer) rfl rfl m.drq rfl rfl
theorem Moving.aimAt {s : State} (m : Moving s) (n)  : Moving (s.aimAt n) := m.congr (m.basic.aimAt n) rfl rfl m.drq rfl rfl
theorem Moving.aimAtSector {s : State} (m : Moving s)  : Moving (s.aimAtSector) := m.aimAt _
theorem Moving.writeByte {s : State} (m : Moving s) (d k o v) : Moving (s.writeByte d k o v) := m.congr (m.basic.writeByte d k o v) rfl rfl m.drq rfl rfl
theorem Moving.readByte {s : State} (m : Moving s) (d k o) : Moving (s.readByte d k o).2 := m.congr (m.basic.readByte d k o) (by simp) (by simp) (by simp [m.drq]) (by simp) (by simp)
theorem Moving.setScan {s : State} (m : Moving s) (w : WriteTrackScan) (h1 : w.idIndex ≤ 3) (h2 : w.idSeen = true → 1 ≤ w.sectorSize) : Moving (s.setScan w) := m.congr (m.basic.setScan w h1 h2) rfl rfl m.drq rfl rfl

/-- `EndOfSector` establishes the invariant (R205). -/
theorem Moving.endOfSector_invariant (w : Bool) {s : State} (m : Moving s) (hp : s.seq.phase = .transferByte) (hc : isSectorClass s.seq.activeCommandClass = true) : Invariant (endOfSector w s) := by
  have hr : s.seq.activeCommandClass ≠ .readAddress := by rintro h; rw [h] at hc; cases hc
  unfold endOfSector
  simp only
  split
  · exact m.basic.complete _
  · split
    · exact (m.basic.setSector _).complete _
    · next h =>
      have h' : (s.regs.sector + 1).toNat < s.xfer.sectorCount := by simpa [State.sectorPastTrack] using h
      have m1 := (m.setSector (s.regs.sector + 1)).aimAtSector
      split
      · exact m1.setDrq.await (by simpa using hp) (by intro _; simpa [State.aimAtSector] using h') (by intro _; simpa [State.aimAtSector] using m.size_pos) (by intro h; exact absurd h (by simpa using hr))
      · exact m1.await (by simpa using hp) (by intro _; simpa [State.aimAtSector] using h') (by intro _; simpa [State.aimAtSector] using m.size_pos) (by intro h; exact absurd h (by simpa using hr))

theorem Invariant.moving {s : State} (h : Invariant s) (hp : s.seq.phase = .transferByte) : Moving s := by
  have hpi : s.seq.phase ≠ .idle := by simp [hp]
  have c := h.context hp
  have e := h.entering hpi (by simp [hp])
  exact ⟨h.basic, e.busy, h.transfer_class hp, h.transfer_drq (h.transfer_class hp), e.no_confusion, c.count_pos, c.count_le, c.size_pos⟩

theorem Moving.setCycles {s : State} (m : Moving s) (n) : Moving (s.setCycles n) := ⟨m.basic.congr rfl rfl rfl rfl rfl rfl, m.busy, m.active, m.drq, m.conf, m.count_pos, m.count_le, m.size_pos⟩

/-- A transfer at a byte expiry. -/
structure MovingByte (s : State) : Prop extends Moving s where
  phase : s.seq.phase = .transferByte
  context : TransferContextOk s

theorem MovingByte.readSectorByte_invariant {s : State} (m : MovingByte s) (hc : s.seq.activeCommandClass = .typeIIRead) : Invariant (readSectorByte s) := by
  have m1 := (((m.toMoving.lostDataCheck.readByte s.xfer.drive s.xfer.head s.xfer.offset).setData (s.lostDataCheck.readByte s.xfer.drive s.xfer.head s.xfer.offset).1).setDrq).advanceTransfer
  have hs := m.context.sector_on_track (by simp [hc])
  simp only [readSectorByte]
  split
  · exact Moving.endOfSector_invariant false (by simpa using m1) (by simpa using m.phase) (by simp [hc, isSectorClass])
  · next h =>
    refine Moving.await (by simpa using m1) (by simpa using m.phase) (by intro _; simpa using hs) ?_ (by simp [hc])
    intro _; exact Nat.one_le_iff_ne_zero.2 h

theorem MovingByte.writeSectorByte_invariant {s : State} (m : MovingByte s) (hc : s.seq.activeCommandClass = .typeIIWrite) : Invariant (writeSectorByte s) := by
  have m1 := (((m.toMoving.lostDataCheck.withdrawDrq).writeByte s.xfer.drive s.xfer.head s.xfer.offset s.regs.data)).advanceTransfer
  have hs := m.context.sector_on_track (by simp [hc])
  simp only [writeSectorByte]
  split
  · exact Moving.endOfSector_invariant true (by simpa using m1) (by simpa using m.phase) (by simp [hc, isSectorClass])
  · next h =>
    refine Moving.await (by simpa using m1.setDrq) (by simpa using m.phase) (by intro _; simpa using hs) ?_ (by simp [hc])
    intro _; exact Nat.one_le_iff_ne_zero.2 (by simpa using h)

theorem MovingByte.readAddressByte_invariant {s : State} (m : MovingByte s) (hc : s.seq.activeCommandClass = .readAddress) : Invariant (readAddressByte s) := by
  have m1 := ((m.toMoving.lostDataCheck).setData (addressByte s.lostDataCheck (6 - s.xfer.byteCountRemaining))).setDrq.setByteCount (s.xfer.byteCountRemaining - 1)
  have hs := m.context.header_bytes hc
  simp only [readAddressByte]
  split
  · refine Basic.complete (Basic.setRotating ?_ _) _
    simpa using m1.basic
  · next h =>
    refine Moving.await (by simpa using m1) (by simpa using m.phase) (by simp [hc]) ?_ (by intro _; simp; omega)
    intro _; simp at h ⊢; omega

theorem MovingByte.writeTrackByte_invariant {s : State} (m : MovingByte s) (hc : s.seq.activeCommandClass = .writeTrack) : Invariant (writeTrackByte s) := by
  have hs := m.context.sector_on_track (by simp [hc])
  have m1 := m.toMoving.lostDataCheck.withdrawDrq
  simp only [writeTrackByte]
  generalize hu : s.lostDataCheck.withdrawDrq = u at m1
  have huw : u.wt = s.wt := by rw [← hu]; simp
  have hux : u.xfer = s.xfer := by rw [← hu]; simp
  have hus : u.seq = s.seq := by rw [← hu]; simp
  have hur : u.regs.sector = s.regs.sector := by rw [← hu]; simp
  have hup : u.seq.phase = .transferByte := by rw [hus]; exact m.phase
  have fin : ∀ v : State, Moving v → v.seq.phase = .transferByte → v.seq.activeCommandClass = .writeTrack → v.regs.sector.toNat < v.xfer.sectorCount → (v.wt.state = .data → 1 ≤ v.xfer.byteCountRemaining) →
      Invariant (if v.seq.phase = .transferByte then v.setDrq.awaitByte else v) := by
    intro v mv hp hcl hsec hb
    rw [if_pos hp]
    exact mv.setDrq.await (by simpa using hp) (by intro _; simpa using hsec) (fun h => h.elim (fun h => absurd hcl (by simpa using h)) (fun h => by simpa using hb (by simpa using h))) (by simp [hcl])
  split
  · next hw =>
    unfold scanByte
    split
    · exact fin _ (m1.setScan _ (by simp) (by simpa using m1.basic.id_size)) hup (by simp [hus, hc]) (by simpa [hur, hux] using hs) (by simp)
    · split
      · next h =>
        refine fin _ ((m1.setScan _ (by simpa using m1.basic.id_index) (by simpa using m1.basic.id_size)).aimAt _) hup (by simp [hus, hc]) (by simpa [hur, hux] using hs) ?_
        intro _; simpa using m1.basic.id_size h.2
      · have := fin _ m1 hup (by simp [hus, hc]) (by simpa [hur, hux] using hs) (by simp [hw])
        rwa [if_pos hup] at this
  · next hw =>
    unfold idByte
    split
    · next h => exact fin _ (m1.setScan _ (by simp; omega) (by simpa using m1.basic.id_size)) hup (by simp [hus, hc]) (by simpa [hur, hux] using hs) (by simp [hw])
    · exact fin _ (m1.setScan _ (by simpa using m1.basic.id_index) (by intro _; exact Nat.mul_pos (by decide) (Nat.two_pow_pos _))) hup (by simp [hus, hc]) (by simpa [hur, hux] using hs) (by simp)
  · next hw =>
    have m2 := (m1.writeByte u.xfer.drive u.xfer.head u.xfer.offset u.regs.data).advanceTransfer
    unfold dataByte
    simp only
    generalize hv : (u.writeByte u.xfer.drive u.xfer.head u.xfer.offset u.regs.data).advanceTransfer = v at m2
    have hvs : v.seq = u.seq := by rw [← hv]; simp
    have hvw : v.wt = u.wt := by rw [← hv]; simp
    have hvr : v.regs.sector = u.regs.sector := by rw [← hv]; simp
    have hvx : v.xfer.sectorCount = u.xfer.sectorCount := by rw [← hv]; simp
    split
    · have m3 := (m2.setSector (v.regs.sector + 1)).setScan { v.wt with idSeen := false, state := .scan } (by simpa using m2.basic.id_index) (by simp)
      have : ((v.setSector (v.regs.sector + 1)).wt) = v.wt := rfl
      split
      · next h =>
        have hi := m3.basic.complete true
        have : ((((v.setSector (v.regs.sector + 1)).setScan { v.wt with idSeen := false, state := .scan }).complete true).seq.phase ≠ .transferByte) := by simp
        rw [if_neg this]; exact hi
      · next h => exact fin _ m3 (by simpa [hvs] using hup) (by simp [hvs, hus, hc]) (by simpa [State.sectorPastTrack] using h) (by simp)
    · next h => exact fin _ m2 (by simpa [hvs] using hup) (by simp [hvs, hus, hc]) (by simpa [hvr, hvx, hur, hux] using hs) (fun _ => Nat.one_le_iff_ne_zero.2 h)

/-- A byte expiry establishes the invariant (R156). -/
theorem MovingByte.doTransferByte_invariant {s t : State} (m : MovingByte s) (h : doTransferByte s = .next t) : Invariant t := by
  unfold doTransferByte at h
  split at h <;> cases h
  · next hc => exact MovingByte.readSectorByte_invariant m hc
  · next hc => exact MovingByte.writeSectorByte_invariant m hc
  · next hc => exact MovingByte.readAddressByte_invariant m hc
  · next hc => exact MovingByte.writeTrackByte_invariant m hc

/-- `DoTransferPrepare` establishes the invariant (R154). -/
theorem Entering.doTransferPrepare_invariant {s t : State} (e : Entering s) (hc : isTransferClass s.seq.activeCommandClass = true) (h : doTransferPrepare s = .next t) : Invariant t := by
  have e1 := e.setStatusBit recordTypeBit false (by decide) (by decide) (by decide) (by decide)
  have hcu' : (s.setStatusBit recordTypeBit false).seq.activeCommandClass ≠ .typeI := isTransferClass_ne_typeI hc
  unfold doTransferPrepare at h
  simp only at h
  split at h
  · next b hb => cases h; rcases transferChecks_error hb with rfl | rfl <;> exact e1.basic.abort _ (by decide) (by decide) (by decide)
  · next g hg =>
    obtain ⟨g1, g2, g3⟩ := transferChecks_ok hg
    generalize s.setStatusBit recordTypeBit false = u at *
    have hcu : isTransferClass u.seq.activeCommandClass = true := e1.active.resolve_left (hcu' )
    have m : Moving (latchGeometry g u) := ⟨e1.basic.congr rfl rfl rfl rfl rfl rfl, e1.busy, hcu, e1.transfer_drq hcu, e1.no_confusion, g1, by simp [latchGeometry]; omega, g2⟩
    unfold prepareTransfer at h
    split at h <;> cases h
    · next hcl =>
      exact m.aimAtSector.begin (fun _ => g3 (by rw [show u.seq = (latchGeometry g u).seq from rfl, hcl]; rfl)) (fun _ => g2) (by intro h; simp at h hcl; rw [hcl] at h; cases h)
    · next hcl =>
      exact m.aimAtSector.setDrq.begin (fun _ => g3 (by rw [show u.seq = (latchGeometry g u).seq from rfl, hcl]; rfl)) (fun _ => g2) (by intro h; simp at h hcl; rw [hcl] at h; cases h)
    · next hcl =>
      exact (m.setByteCount 6).begin (fun h => absurd hcl h) (fun _ => by simp) (fun _ => by simp)
    · next hcl =>
      unfold prepareWriteTrack
      split
      · exact m.basic.complete _
      · next h => exact ((m.setScan _ (by simp) (by simp)).setDrq).begin (by intro _; simpa [State.sectorPastTrack] using h) (by rintro (h | h) <;> simp_all) (by intro h; simp at h hcl; rw [hcl] at h; cases h)

theorem doTransferPrepare_completes {s : State} (hc : isTransferClass s.seq.activeCommandClass = true) : ∃ t, doTransferPrepare s = .next t := by
  unfold doTransferPrepare
  simp only
  split
  · exact ⟨_, rfl⟩
  · unfold prepareTransfer
    split
    any_goals exact ⟨_, rfl⟩
    all_goals next h => rw [show s.seq.activeCommandClass = _ from h] at hc; cases hc

theorem doTransferByte_completes {s : State} (hc : isTransferClass s.seq.activeCommandClass = true) : ∃ t, doTransferByte s = .next t := by
  unfold doTransferByte
  split
  any_goals exact ⟨_, rfl⟩
  all_goals next h => rw [h] at hc; cases hc

theorem Invariant.setCycles {s : State} (h : Invariant s) (n : Int) (hn : s.seq.phase ≠ .idle → 0 ≤ n) : Invariant (s.setCycles n) :=
  ⟨h.busy_iff, h.not_completing, h.active_iff, h.seeking_class, h.settling_class, h.prepare_class, h.transfer_class, h.typeI_kind, h.drq_status, h.typeI_no_drq, h.transfer_drq, h.no_crc_error, hn, h.confusion_phase, h.step_rate, h.id_index, h.id_size, fun hp => ⟨(h.context hp).1, (h.context hp).2, (h.context hp).3, (h.context hp).4, (h.context hp).5, (h.context hp).6⟩, h.head_in_range, h.images_canonical⟩

/-- In an Idle state only the basic clauses and the class matter. -/
theorem Invariant.of_idle {s t : State} (h : Invariant s) (hp : s.seq.phase = .idle) (b : Basic t) (hb : t.statusBit busyBit = false) (hs : t.seq.phase = .idle)
   (hc : t.seq.activeCommandClass = s.seq.activeCommandClass ∨ t.seq.activeCommandClass = .none ∨ t.seq.activeCommandClass = .forceInterrupt) : Invariant t := by
  have hn : ¬ (t.seq.activeCommandClass = .typeI ∨ isTransferClass t.seq.activeCommandClass = true) := by
    rcases hc with hc | hc | hc
    · rw [hc]; exact fun ha => h.active_iff.2 ha hp
    · rw [hc]; simp [isTransferClass]
    · rw [hc]; simp [isTransferClass]
  have h1 : t.seq.activeCommandClass ≠ .typeI := fun h => hn (.inl h)
  have h2 : isTransferClass t.seq.activeCommandClass = false := by simpa using fun h => hn (.inr h)
  exact ⟨by simp [hb, hs], by simp [hs], by simp [hs, h1, h2], by simp [hs], by simp [hs], by simp [hs], by simp [hs], by simp [h1], b.drq_status, by simp [h1], by simp [h2], b.no_crc_error, by simp [hs], by simp [hs], b.step_rate, b.id_index, b.id_size, by simp [hs], b.head_in_range, b.images_canonical⟩

theorem Invariant.notBusy {s : State} (h : Invariant s) (hp : s.seq.phase = .idle) : s.statusBit busyBit = false := by
  have := h.busy_iff; simpa [hp] using this

/-- The spin-down tick keeps the invariant (R151). -/
theorem spinDownTick_invariant {s : State} (n : Nat) (h : Invariant s) (hp : s.seq.phase = .idle) : Invariant (spinDownTick n s) := by
  have hb := h.basic
  have nb := h.notBusy hp
  unfold spinDownTick
  split
  · have b1 := hb.updateDrive s.board.selDrive (fun D => D.spinDown n) (hb.head_in_range _)
    simp only
    split
    · refine Invariant.of_idle h hp ?_ ?_ ?_ ?_
      · exact (b1.setStatusBit motorBit false (by decide) (by decide) (by decide)).updateDrive _ _ (b1.head_in_range _)
      · rw [State.statusBit_updateDrive, State.statusBit_setStatusBit _ _ _ _ (by decide)]; simpa using nb
      · simpa using hp
      · simp
    · exact Invariant.of_idle h hp b1 (by simpa using nb) (by simpa using hp) (by simp)
  · exact h

end Sys2Proof.Machine
end

