-- ==== Sys2Proof/Tests/Slice0.lean ====
section
/-! SUPPORT. Tests: the smoke tests of WellFormed, the written-out command bytes, one-step tests whose expected values stand in
spec/95_test_vectors.md, and for every obligation with hypotheses a state that meets them. -/

namespace Sys2Proof.Tests

open Sys2Proof.Machine

/-! ## WellFormed refuses each ill-formed term -/

theorem test_restore_rate : (Instr.restore true false 4).wellFormed = false := by decide
theorem test_seek_rate : (Instr.seek true false 4).wellFormed = false := by decide
theorem test_step_rate : (Instr.step true true false 4).wellFormed = false := by decide
theorem test_stepin_rate : (Instr.stepin true true false 4).wellFormed = false := by decide
theorem test_stepout_rate : (Instr.stepout true true false 4).wellFormed = false := by decide
theorem test_rdsec_ignored : (Instr.rdsec true true 8).wellFormed = false := by decide
theorem test_wrsec_ignored : (Instr.wrsec true true 8).wellFormed = false := by decide
theorem test_rdaddr_ignored : (Instr.rdaddr 16).wellFormed = false := by decide
theorem test_forceint_ignored : (Instr.forceint true true 4).wellFormed = false := by decide
theorem test_rdtrk_ignored : (Instr.rdtrk 16).wellFormed = false := by decide
theorem test_wrtrk_ignored : (Instr.wrtrk 16).wellFormed = false := by decide
theorem test_config_byte_time : ({ Config.testVectors with byteTime := 0 } : Config).wellFormed = false := by decide
theorem test_config_spin_down : ({ Config.testVectors with spinDownTime := 0 } : Config).wellFormed = false := by decide

/-! ## Written-out words (spec/95_test_vectors.md 3.1, R92 to R96) -/

theorem test_decode_restore : decode 0b00001111 = .restore true true 3 := by decide
theorem test_decode_seek : decode 0b00010110 = .seek false true 2 := by decide
theorem test_decode_step : decode 0b00110100 = .step true false true 0 ∧ decode 0b00100001 = .step false false false 1 := by
  decide
theorem test_decode_stepin : decode 0b01001011 = .stepin false true false 3 ∧ decode 0b01011011 = .stepin true true false 3 := by
  decide
theorem test_decode_stepout : decode 0b01100000 = .stepout false false false 0 := by decide
theorem test_decode_rdsec : decode 0b10010100 = .rdsec true true 0 ∧ decode 0b10001011 = .rdsec false false 7 := by decide
theorem test_decode_wrsec : decode 0b10100100 = .wrsec false true 0 ∧ decode 0b10110000 = .wrsec true false 0 := by decide
theorem test_decode_rdaddr : decode 0b11001111 = .rdaddr 15 := by decide
theorem test_decode_forceint : decode 0b11010100 = .forceint false true 0 ∧ decode 0b11011011 = .forceint true false 3 := by
  decide
theorem test_decode_rdtrk : decode 0b11101111 = .rdtrk 15 := by decide
theorem test_decode_wrtrk : decode 0b11110111 = .wrtrk 7 := by decide
theorem test_table_word : decodeTableWord 8 0xA4 = some (.wrsec false true 0) ∧ decodeTableWord 16 0xA4 = none := by decide
theorem test_no_byte : (match decodeBytes [] with | .error .noCommandByte => true | .ok _ => false) = true := by decide

/-! ## States -/

/-- A small image like Image S of spec/95_test_vectors.md: two sectors of 2 bytes on side 0 of tracks 0 and 10. -/
def image : DiskImage :=
  { isOpen := true, isWriteProtected := false, mediaDensity := .double, sectorBias := false
    side0 := { tracks := [(0, { sectorCount := 2, sectorSize := 2, baseOffset := 0 }),
                          (10, { sectorCount := 2, sectorSize := 2, baseOffset := 256 })]
               bytes := [(0, 0xE5), (1, 0xE6), (2, 0xE7), (3, 0xE8), (256, 0xFA)] }
    side1 := .empty }

/-- Idle with the given drive position, media and registers; `status` 0x80 is "motor on". -/
def idle (tracks : TracksPerDisk) (position : Nat) (status track sector data : Byte) : State :=
  { State.reset with
    regs := { cmd := 0, status := status, track := track, sector := sector, data := data, intrq := false, drq := false }
    board := { selDrive := .drive0, selHead := .side0, selDensity := .double }
    drives := { drive0 := { trackPosition := position, tracksPerDisk := tracks, headLoaded := false, doorClosed := true,
                            writeProtected := false, available := true, motorSpinDownRemaining := 200 }
                drive1 := .powerOn }
    disks := { drive0 := image, drive1 := .absent } }

/-- Busy in a phase: the class, the countdown and the remaining bytes of a transfer of sector 0 of track 0. -/
def busy (phase : Phase) (cls : CommandClass) (cycles : Int) (remaining : Nat) : State :=
  { idle .eighty 3 0x81 0 0 0x42 with
    seq := { phase := phase, activeCommandClass := cls, cyclesRemaining := cycles, confusion := false }
    xfer := { drive := .drive0, head := .side0, sectorCount := 2, sectorSize := 2, base := 0, offset := 2 - remaining,
              byteCountRemaining := remaining } }

/-- A value of the next state, if there is one. -/
def after {α : Type} (r : Result) (f : State → α) : Option α :=
  match r with
  | .next t => some (f t)
  | .fault _ => none
  | .refused _ => none

/-! ## One step of each command -/

/-- T17: h = 1 with the motor off. -/
theorem test_restore_without_spin_up :
    after (exec (decode 0x08) (idle .eighty 5 0x00 0 0 0)) (fun t => (t.regs.status, t.selected.trackPosition, t.seq.phase))
      = some (0xA1, 0, .seeking) := by decide

/-- T16: the wait comes from the register, not from the head. -/
theorem test_restore_wait :
    after (exec (decode 0x07) (idle .eighty 2 0x80 255 0 0)) (fun t => (t.regs.track, t.selected.trackPosition, t.seq.cyclesRemaining))
      = some (0, 0, 7680) := by decide

/-- T12: no move, the verify delay alone. -/
theorem test_seek_verify :
    after (exec (decode 0x14) (idle .forty 0 0x80 5 0 5)) (fun t => (t.regs.track, t.selected.trackPosition, t.seq.cyclesRemaining))
      = some (5, 0, 30) := by decide

/-- By hand from R182, R124, R129: three steps outward by two from position 3 clamp at 0, one Overstep; 3 * 12 cycles. -/
theorem test_seek_outward :
    after (exec (decode 0x11) (idle .forty 3 0x80 8 0 5))
        (fun t => (t.regs.track, t.selected.trackPosition, t.seq.cyclesRemaining, t.io.signals.count .overstep))
      = some (5, 0, 36, 1) := by decide

/-- T7: TRACK wraps outward, the head stays at 0. -/
theorem test_step_wraps :
    after (exec (decode 0x20) { idle .forty 0 0x80 0 0 0 with stepDirection := .outward })
        (fun t => (t.regs.track, t.selected.trackPosition, t.seq.cyclesRemaining, t.stepDirection))
      = some (255, 0, 6, .outward) := by decide

/-- T3: verify delay, bit 4 without effect. -/
theorem test_step_verify :
    after (exec (decode 0x34) (idle .forty 4 0x80 2 0 0))
        (fun t => (t.regs.track, t.selected.trackPosition, t.seq.cyclesRemaining, t.regs.cmd))
      = some (3, 6, 36, 0x34) := by decide

/-- T8: TRACK wraps to 0, the head is clamped without Overstep. -/
theorem test_stepin_clamped :
    after (exec (decode 0x43) (idle .forty 38 0x80 255 0 0))
        (fun t => (t.regs.track, t.selected.trackPosition, t.seq.cyclesRemaining, t.io.signals.count .overstep))
      = some (0, 39, 30, 0) := by decide

/-- T4. -/
theorem test_stepout_moves :
    after (exec (decode 0x60) (idle .forty 6 0x80 3 0 0))
        (fun t => (t.regs.track, t.selected.trackPosition, t.seq.cyclesRemaining, t.stepDirection))
      = some (2, 4, 6, .outward) := by decide

/-- T21: the direction is set although the command waits in SpinUp and will not move. -/
theorem test_stepout_spins_up :
    after (exec (decode 0x60) { idle .forty 14 0x00 7 0 0 with board.selDensity := .single })
        (fun t => (t.seq.phase, t.seq.cyclesRemaining, t.regs.status, t.regs.track, t.stepDirection))
      = some (.spinUp, 100, 0x81, 7, .outward) := by decide

/-- X3: Record Not Found at the first poll. -/
theorem test_rdsec_past_track :
    after (poll 1 { idle .eighty 3 0x81 0 2 0 with
        seq := { phase := .transferPrepare, activeCommandClass := .typeIIRead, cyclesRemaining := 0, confusion := false } })
        (fun t => (t.regs.status, t.regs.intrq, t.seq.phase))
      = some (0x90, true, .idle) := by decide

/-- R203: the byte comes from the transfer's offset, the request rises. -/
theorem test_rdsec_byte :
    after (poll 4 (busy .transferByte .typeIIRead 4 1)) (fun t => (t.regs.data, t.regs.status, t.regs.drq, t.regs.intrq))
      = some (0xE6, 0x82, true, true) := by decide

/-- X8: Write Protect wins over Record Not Found. -/
theorem test_wrsec_protected :
    after (poll 1 { idle .eighty 3 0x81 0 9 0 with
        seq := { phase := .transferPrepare, activeCommandClass := .typeIIWrite, cyclesRemaining := 0, confusion := false }
        disks.drive0.isWriteProtected := true })
        (fun t => (t.regs.status, t.regs.intrq))
      = some (0xC0, true) := by decide

/-- R143: e = 1 settles. -/
theorem test_wrsec_settles :
    after (exec (decode 0xA4) (idle .eighty 3 0x80 0 0 0)) (fun t => (t.seq.phase, t.seq.cyclesRemaining, t.selected.headLoaded))
      = some (.settling, 30, true) := by decide

/-- A2: with the counter at 9 the third byte is 0x0A. -/
theorem test_rdaddr_third_byte :
    after (poll 4 { busy .transferByte .readAddress 4 4 with rotatingSectorCounter := 9 })
        (fun t => (t.regs.data, t.regs.drq, t.xfer.byteCountRemaining))
      = some (0x0A, true, 3) := by decide

/-- A6: the sixth byte advances the counter modulo the sector count. -/
theorem test_rdaddr_last_byte :
    after (poll 4 { busy .transferByte .readAddress 4 1 with rotatingSectorCounter := 1 })
        (fun t => (t.regs.data, t.rotatingSectorCounter, t.seq.phase, t.regs.intrq))
      = some (0xC1, 0, .idle, true) := by decide

/-- F1: busy clears, DRQ and Data Request stay. -/
theorem test_forceint_mid_transfer :
    after (exec (decode 0xD0) { busy .transferByte .typeIIRead 4 1 with regs.status := 0x87, regs.drq := true })
        (fun t => (t.seq.phase, t.regs.status, t.regs.intrq, t.regs.drq, t.xfer.byteCountRemaining))
      = some (.idle, 0x86, false, true, 1) := by decide

/-- R251, R33: in the confusion sub-phase 0xDC raises INTRQ now, leaves a deferred interrupt pending and clears the flag. -/
theorem test_forceint_both :
    after (exec (decode 0xDC) { busy .seeking .typeI 4 1 with seq.confusion := true })
        (fun t => (t.regs.intrq, t.seq.activeCommandClass, t.regs.status, t.seq.confusion))
      = some (true, .forceInterrupt, 0x80, false) := by decide

/-- K1: with the motor off only Record Not Found is set, and the countdown is loaded. -/
theorem test_rdtrk_motor_off :
    after (exec (decode 0xE0) (idle .eighty 0 0x00 0 0 0))
        (fun t => (t.regs.status, t.regs.intrq, t.seq.phase, t.selected.motorSpinDownRemaining))
      = some (0x10, true, .idle, 200) := by decide

/-- K2: the result bits of the previous command are cleared. -/
theorem test_rdtrk_clears :
    after (exec (decode 0xEF) (idle .eighty 0 0xA4 0 0 0)) (fun t => (t.regs.status, t.regs.cmd)) = some (0x90, 0xEF) := by decide

/-- W2: the budget is exhausted at prepare, no error. -/
theorem test_wrtrk_no_budget :
    after (poll 1 { idle .eighty 3 0x81 0 2 0 with
        seq := { phase := .transferPrepare, activeCommandClass := .writeTrack, cyclesRemaining := 0, confusion := false } })
        (fun t => (t.regs.status, t.regs.intrq, t.seq.phase))
      = some (0x80, true, .idle) := by decide

/-- R244: a data byte is stored, the last one of the block advances SECTOR. -/
theorem test_wrtrk_data :
    after (poll 4 { busy .transferByte .writeTrack 4 1 with
        wt := { state := .data, idIndex := 3, idSeen := true, sectorSize := 128 } })
        (fun t => (t.imageByte .drive0 .side0 1, t.imageByte .drive0 .side0 0, t.regs.sector, t.wt.idSeen))
      = some (some 0x42, some 0xE5, 1, false) := by decide

/-- M: the sector bias is added on a read and subtracted on a write. -/
theorem test_sector_bias :
    after (writeSectorRegister 0 { idle .eighty 0 0x80 0 5 0 with disks.drive0.sectorBias := true })
        (fun t => (t.regs.sector, (hostRead .sector t).io.readData))
      = some (255, some 0) := by decide

/-- A step takes the first event and leaves the byte read for the host. -/
theorem test_step_reads :
    after (step { idle .eighty 0 0x80 7 0 0 with io.inputs := [.hostRead .track, .poll 1] })
        (fun t => (t.io.readData, t.io.inputs))
      = some (some 7, [.poll 1]) := by decide

/-- The first command after power-on runs through `withFetchWord`. -/
theorem test_fetch_word :
    after (step (State.reset.withFetchWord 8 0xE0)) (fun t => (t.regs.status, t.regs.intrq, t.regs.cmd))
      = some (0x10, true, 0xE0) := by decide

/-! ## Witnesses: for every obligation with hypotheses, a state and operands that meet them -/

theorem witness_DecodeEncodeAgree : (Instr.restore true true 3).wellFormed = true ∧ (Instr.wrsec true true 7).wellFormed = true ∧
    (Instr.wrtrk 15).wellFormed = true := by decide

theorem witness_CommandBytesDecode :
    fieldAt 0x0F 7 4 = 0x0 ∧ fieldAt 0x10 7 4 = 0x1 ∧ fieldAt 0x2F 7 4 = 0x2 ∧ fieldAt 0x30 7 4 = 0x3 ∧ fieldAt 0x4F 7 4 = 0x4 ∧
    fieldAt 0x50 7 4 = 0x5 ∧ fieldAt 0x6F 7 4 = 0x6 ∧ fieldAt 0x70 7 4 = 0x7 ∧ fieldAt 0x8F 7 4 = 0x8 ∧ fieldAt 0x90 7 4 = 0x9 ∧
    fieldAt 0xAF 7 4 = 0xA ∧ fieldAt 0xB0 7 4 = 0xB ∧ fieldAt 0xCF 7 4 = 0xC ∧ fieldAt 0xD0 7 4 = 0xD ∧ fieldAt 0xEF 7 4 = 0xE ∧
    fieldAt 0xFF 7 4 = 0xF := by decide

theorem witness_StepRunsEvent :
    (State.reset.withInputs [.hostWrite .command 0x16]).io.inputs = .hostWrite .command 0x16 :: [] ∧
    decodeTableWord 8 0x16 = some (.seek false true 2) ∧ State.reset.io.inputs = [] ∧
    (State.reset.withInputs [.hostWrite .track 1, .reset]).io.inputs = .hostWrite .track 1 :: [.reset] ∧
    (State.reset.withInputs [.hostWrite .sector 1]).io.inputs = .hostWrite .sector 1 :: [] ∧
    (State.reset.withInputs [.hostWrite .data 1]).io.inputs = .hostWrite .data 1 :: [] ∧
    (State.reset.withInputs [.hostRead .data]).io.inputs = .hostRead .data :: [] ∧
    (State.reset.withInputs [.poll 1]).io.inputs = .poll 1 :: [] ∧
    (State.reset.withInputs [.indexPulse]).io.inputs = .indexPulse :: [] ∧
    (State.reset.withInputs [.environment (.ejectMedia .drive0)]).io.inputs = .environment (.ejectMedia .drive0) :: [] ∧
    (State.reset.withInputs [.reset]).io.inputs = .reset :: [] := by decide

theorem witness_CommandsSpinUp :
    (startedClass (decode 0x07) ≠ .none ∧ (idle .forty 5 0x00 7 0 0).seq.phase = .idle ∧
      skipsSpinUp (idle .forty 5 0x00 7 0 0) (decode 0x07) = false) ∧
    (startedClass (decode 0xF0) ≠ .none ∧ skipsSpinUp (idle .forty 5 0x7E 7 0 0) (decode 0xF0) = false) := by decide

theorem witness_RestoreMoves :
    ((idle .forty 5 0x00 7 0 0).seq.phase = .idle ∧ skipsSpinUp (idle .forty 5 0x00 7 0 0) (.restore true false 0) = true ∧
      seekConfused (idle .forty 5 0x00 7 0 0) = false) ∧
    ((idle .eighty 0 0x80 255 0 0).seq.phase = .idle ∧ skipsSpinUp (idle .eighty 0 0x80 255 0 0) (.restore false true 3) = true ∧
      seekConfused (idle .eighty 0 0x80 255 0 0) = false) := by decide

theorem witness_SeekMoves :
    ((idle .forty 38 0x80 0 0 255).seq.phase = .idle ∧ skipsSpinUp (idle .forty 38 0x80 0 0 255) (.seek false false 0) = true ∧
      seekConfused (idle .forty 38 0x80 0 0 255) = false ∧
      (idle .forty 38 0x80 0 0 255).regs.track.toNat < (idle .forty 38 0x80 0 0 255).regs.data.toNat) ∧
    ((idle .forty 1 0x80 255 0 254).seq.phase = .idle ∧ skipsSpinUp (idle .forty 1 0x80 255 0 254) (.seek false false 0) = true ∧
      seekConfused (idle .forty 1 0x80 255 0 254) = false ∧
      (idle .forty 1 0x80 255 0 254).regs.data.toNat < (idle .forty 1 0x80 255 0 254).regs.track.toNat) ∧
    ((idle .forty 0 0x80 5 0 5).seq.phase = .idle ∧ skipsSpinUp (idle .forty 0 0x80 5 0 5) (.seek false false 0) = true ∧
      seekConfused (idle .forty 0 0x80 5 0 5) = false ∧
      ¬ (idle .forty 0 0x80 5 0 5).regs.data.toNat < (idle .forty 0 0x80 5 0 5).regs.track.toNat) := by decide

theorem witness_StepsMove :
    ((idle .forty 39 0x80 255 0 0).seq.phase = .idle ∧ skipsSpinUp (idle .forty 39 0x80 255 0 0) (.step true false false 0) = true ∧
      seekConfused (idle .forty 39 0x80 255 0 0) = false ∧ (idle .forty 39 0x80 255 0 0).stepDirection = .inward) ∧
    (skipsSpinUp { idle .forty 0 0x80 0 0 0 with stepDirection := .outward } (.step false false false 0) = true ∧
      seekConfused { idle .forty 0 0x80 0 0 0 with stepDirection := .outward } = false ∧
      ({ idle .forty 0 0x80 0 0 0 with stepDirection := .outward } : State).stepDirection = .outward) ∧
    skipsSpinUp (idle .forty 39 0x80 255 0 0) (.stepin true false false 0) = true ∧
    skipsSpinUp (idle .forty 39 0x80 255 0 0) (.stepout true false false 0) = true := by decide

theorem witness_ConfusedCommands :
    startedClass (decode 0x60) = .typeI ∧ ({ idle .forty 14 0x80 7 0 0 with board.selDensity := .single } : State).seq.phase = .idle ∧
    skipsSpinUp { idle .forty 14 0x80 7 0 0 with board.selDensity := .single } (decode 0x60) = true ∧
    seekConfused { idle .forty 14 0x80 7 0 0 with board.selDensity := .single } = true := by decide

theorem witness_TransfersStart :
    (idle .eighty 3 0x80 0 0 0).seq.phase = .idle ∧ (idle .eighty 3 0x80 0 0 0).statusBit motorBit = true ∧
    isTransferClass (startedClass (decode 0x84)) = true ∧ isTransferClass (startedClass (decode 0xA0)) = true ∧
    isTransferClass (startedClass (decode 0xC0)) = true ∧ isTransferClass (startedClass (decode 0xF0)) = true := by decide

theorem witness_ReadTrackCompletes : (idle .eighty 3 0x00 0 0 0).seq.phase = .idle := by decide

theorem witness_BusyWritesFault :
    commandKind (decode 0x00) ≠ .forceInterrupt ∧ commandKind (decode 0xE0) ≠ .forceInterrupt ∧
    (busy .transferByte .typeIIRead 4 1).seq.phase ≠ .idle := by decide

theorem witness_CommandsRearm :
    commandKind (decode 0xE0) ≠ .forceInterrupt ∧ commandKind (decode 0x10) ≠ .forceInterrupt ∧
    (idle .eighty 3 0xFE 0 0 0).seq.phase = .idle := by decide

theorem witness_StepOutAndRuns : 1 ≤ 30 ∧ (idle .forty 0 0x80 0 0 0).selected.trackPosition = 0 ∧
    (idle .forty 13 0x80 0 0 0).selected.trackPosition ≠ 0 := by decide

theorem witness_CompleteRule_motorOff :
    (idle .forty 0 0 0 0 0).statusBit motorBit = false ∧
      ∃ t, poll 200 ((idle .forty 0 0 0 0 0).complete true) = .next t :=
  ⟨by decide, _, rfl⟩

theorem witness_CompleteRule :
    (∃ t, exec (.forceint false true 0) (busy .transferByte .typeIIRead 4 1) = .next t ∧ t.seq.phase = .idle ∧
      t.regs.intrq = false) ∧
    ∃ t, runEvent .reset (busy .transferByte .typeIIRead 4 1) = .next t ∧ (busy .transferByte .typeIIRead 4 1).seq.phase ≠ .idle ∧
      t.seq.phase = .idle ∧ t.regs.intrq = false :=
  ⟨⟨_, rfl, by decide, by decide⟩, _, rfl, by decide, rfl, rfl⟩

theorem witness_RequestRules : ({ idle .forty 0 0x82 0 0 0 with regs.drq := true } : State).regs.drq = true ∧
    (idle .forty 0 0x82 0 0 0).regs.drq = false := by decide

theorem witness_SpinDownRule :
    1 ≤ 200 ∧ (idle .eighty 3 0x80 0 0 0).seq.phase = .idle ∧ 199 < (idle .eighty 3 0x80 0 0 0).selected.motorSpinDownRemaining ∧
    (0 < (idle .eighty 3 0x80 0 0 0).selected.motorSpinDownRemaining ∧
      (idle .eighty 3 0x80 0 0 0).selected.motorSpinDownRemaining ≤ 200) ∧
    State.reset.seq.phase = .idle ∧ State.reset.selected.motorSpinDownRemaining = 0 := by decide

theorem witness_WaitsCount :
    (1 ≤ 3 ∧ (busy .seeking .typeI 4 1).seq.phase ≠ .idle ∧ ((3 : Nat) : Int) < (busy .seeking .typeI 4 1).seq.cyclesRemaining) ∧
    ((busy .settling .typeIIRead 4 1).seq.phase = .settling ∧ 1 ≤ 4 ∧
      (busy .settling .typeIIRead 4 1).seq.cyclesRemaining ≤ ((4 : Nat) : Int)) := by decide

theorem witness_UnitPollsExact :
    1 ≤ 2 ∧ (busy .seeking .typeI 2 1).seq.phase ≠ .idle ∧ (busy .seeking .typeI 2 1).seq.cyclesRemaining = ((2 : Nat) : Int) ∧
    1 ≤ 1 ∧ 1 < 2 ∧ ∃ t, phaseExpiry (countedDown (busy .seeking .typeI 2 1) 0) = .next t :=
  ⟨by decide, by decide, by decide, by decide, by decide, _, rfl⟩

theorem witness_SpinUpEndsTransfer :
    (busy .spinUp .typeIIWrite 4 1).seq.phase = .spinUp ∧ Expires 4 (busy .spinUp .typeIIWrite 4 1) ∧
    isTransferClass (busy .spinUp .typeIIWrite 4 1).seq.activeCommandClass = true :=
  ⟨by decide, ⟨by decide, by decide⟩, by decide⟩

theorem witness_SpinUpEndsMove :
    (busy .spinUp .typeI 4 1).seq.phase = .spinUp ∧ Expires 5 (busy .spinUp .typeI 4 1) ∧
    (busy .spinUp .typeI 4 1).seq.activeCommandClass = .typeI ∧ isTypeIKind (busy .spinUp .typeI 4 1).latch.cmdKind = true ∧
    seekConfused (busy .spinUp .typeI 4 1) = false ∧
    seekConfused { busy .spinUp .typeI 4 1 with board.selDensity := .single } = true :=
  ⟨by decide, ⟨by decide, by decide⟩, by decide, by decide, by decide, by decide⟩

theorem witness_SeekEnds : (busy .seeking .typeI 4 1).seq.phase = .seeking ∧ Expires 64 (busy .seeking .typeI 4 1) :=
  ⟨by decide, by decide, by decide⟩

theorem witness_VerifyOnlyDelays :
    ∃ t, enterSeeking { busy .spinUp .typeI 0 1 with latch.verifyFlag := false } = .next t := ⟨_, rfl⟩

/-- One state for each check, the last at the boundary SECTOR = sector count. -/
theorem witness_PrepareChecks :
    (busy .transferPrepare .typeIIWrite 0 1).seq.phase = .transferPrepare ∧ Expires 1 (busy .transferPrepare .typeIIWrite 0 1) ∧
    isTransferClass (busy .transferPrepare .typeIIWrite 0 1).seq.activeCommandClass = true ∧
    isWriteClass (busy .transferPrepare .typeIIWrite 0 1).seq.activeCommandClass = true ∧
    (({ busy .transferPrepare .typeIIWrite 0 1 with disks.drive0.isWriteProtected := true } : State).disk .drive0).isWriteProtected = true ∧
    (({ busy .transferPrepare .readAddress 0 1 with disks.drive0.isOpen := false } : State).disk .drive0).isOpen = false ∧
    ((busy .transferPrepare .typeIIRead 0 1).disk .drive0).isOpen = true ∧
    (busy .transferPrepare .typeIIRead 0 1).geometry .drive0 .side1 0 = none ∧
    (busy .transferPrepare .typeIIRead 0 1).geometry .drive0 .side0 0
      = some { sectorCount := 2, sectorSize := 2, baseOffset := 0 } ∧
    ({ busy .transferPrepare .typeIIRead 0 1 with cfg.densityCheckOnTransfer := true } : State).cfg.densityCheckOnTransfer = true ∧
    isSectorClass (busy .transferPrepare .typeIIRead 0 1).seq.activeCommandClass = true ∧
    2 ≤ ({ busy .transferPrepare .typeIIRead 0 1 with regs.sector := 2 } : State).regs.sector.toNat :=
  ⟨by decide, ⟨by decide, by decide⟩, by decide, by decide, by decide, by decide, by decide, by decide, by decide, by decide,
    by decide, by decide⟩

/-- The zero cases of the third check. -/
theorem witness_PrepareChecks_zero :
    ({ busy .transferPrepare .typeIIRead 0 1 with disks.drive0.side0.tracks := [(0, ⟨0, 2, 0⟩)] } : State).geometry .drive0 .side0 0
      = some ⟨0, 2, 0⟩ ∧
    ({ busy .transferPrepare .typeIIRead 0 1 with disks.drive0.side0.tracks := [(0, ⟨2, 0, 0⟩)] } : State).geometry .drive0 .side0 0
      = some ⟨2, 0, 0⟩ := by decide

theorem witness_PrepareTransfers :
    (∀ cls, cls = CommandClass.typeIIRead ∨ cls = .typeIIWrite ∨ cls = .readAddress ∨ cls = .writeTrack →
      (busy .transferPrepare cls 0 1).seq.phase = .transferPrepare ∧ Expires 1 (busy .transferPrepare cls 0 1) ∧
      transferChecks (busy .transferPrepare cls 0 1) = .ok ⟨2, 2, 0⟩ ∧
      isTransferClass (busy .transferPrepare cls 0 1).seq.activeCommandClass = true) ∧
    (transferChecks { busy .transferPrepare .writeTrack 0 1 with regs.sector := 2 } = .ok ⟨2, 2, 0⟩ ∧
      (⟨2, 2, 0⟩ : Geometry).sectorCount.val ≤ ({ busy .transferPrepare .writeTrack 0 1 with regs.sector := 2 } : State).regs.sector.toNat) := by
  refine ⟨?_, rfl, by decide⟩
  rintro cls (rfl | rfl | rfl | rfl) <;> exact ⟨rfl, ⟨by decide, by decide⟩, rfl, rfl⟩

/-- A byte the image holds and one it does not, with two bytes to go and with one. -/
theorem witness_ReadByteRule :
    (busy .transferByte .typeIIRead 4 2).seq.phase = .transferByte ∧ Expires 4 (busy .transferByte .typeIIRead 4 2) ∧
    (busy .transferByte .typeIIRead 4 2).seq.activeCommandClass = .typeIIRead ∧
    1 < (busy .transferByte .typeIIRead 4 2).xfer.byteCountRemaining ∧
    (busy .transferByte .typeIIRead 4 1).xfer.byteCountRemaining = 1 ∧
    (busy .transferByte .typeIIRead 4 2).imageByte .drive0 .side0 0 = some 0xE5 ∧
    ({ busy .transferByte .typeIIRead 4 2 with xfer.offset := 99 } : State).imageByte .drive0 .side0 99 = none :=
  ⟨by decide, ⟨by decide, by decide⟩, by decide, by decide, by decide, by decide, by decide⟩

theorem witness_WriteByteRule :
    (busy .transferByte .typeIIWrite 4 2).seq.phase = .transferByte ∧ Expires 4 (busy .transferByte .typeIIWrite 4 2) ∧
    (busy .transferByte .typeIIWrite 4 2).seq.activeCommandClass = .typeIIWrite ∧
    1 < (busy .transferByte .typeIIWrite 4 2).xfer.byteCountRemaining ∧
    (busy .transferByte .typeIIWrite 4 1).xfer.byteCountRemaining = 1 :=
  ⟨by decide, ⟨by decide, by decide⟩, by decide, by decide, by decide⟩

/-- The sector count is 2: SECTOR 0 goes on, SECTOR 1 stops, SECTOR 255 wraps to 0 and goes on. -/
theorem witness_EndOfSectorRule :
    (busy .transferByte .typeIIRead 4 1).latch.multiSectorFlag = false ∧
    ({ busy .transferByte .typeIIRead 4 1 with latch.multiSectorFlag := true } : State).latch.multiSectorFlag = true ∧
    (busy .transferByte .typeIIRead 4 1).xfer.sectorCount ≤ ((1 : Byte) + 1).toNat ∧
    ((0 : Byte) + 1).toNat < (busy .transferByte .typeIIRead 4 1).xfer.sectorCount ∧
    ((255 : Byte) + 1).toNat < (busy .transferByte .typeIIRead 4 1).xfer.sectorCount := by decide

theorem witness_HeaderByteRule :
    ∀ k, k = 1 ∨ k = 2 ∨ k = 3 ∨ k = 4 ∨ k = 5 ∨ k = 6 →
      (busy .transferByte .readAddress 4 k).seq.phase = .transferByte ∧ Expires 4 (busy .transferByte .readAddress 4 k) ∧
      (busy .transferByte .readAddress 4 k).seq.activeCommandClass = .readAddress ∧
      1 ≤ (busy .transferByte .readAddress 4 k).xfer.byteCountRemaining ∧
      (busy .transferByte .readAddress 4 k).xfer.byteCountRemaining ≤ 6 := by
  rintro k (rfl | rfl | rfl | rfl | rfl | rfl) <;> exact ⟨rfl, ⟨by decide, by decide⟩, rfl, by decide, by decide⟩

/-- Scan with each kind of byte, and the ID field at its first and last byte. -/
theorem witness_FormatStreamRule :
    (busy .transferByte .writeTrack 4 1).seq.phase = .transferByte ∧ Expires 4 (busy .transferByte .writeTrack 4 1) ∧
    (busy .transferByte .writeTrack 4 1).seq.activeCommandClass = .writeTrack ∧
    (busy .transferByte .writeTrack 4 1).wt.state = .scan ∧ (busy .transferByte .writeTrack 4 1).wt.idSeen = false ∧
    ({ busy .transferByte .writeTrack 4 1 with regs.data := 0xFE } : State).regs.data = 0xFE ∧
    ({ busy .transferByte .writeTrack 4 1 with regs.data := 0xFB, wt.idSeen := true } : State).wt.idSeen = true ∧
    (busy .transferByte .writeTrack 4 1).regs.data ≠ 0xFE ∧ (busy .transferByte .writeTrack 4 1).regs.data ≠ 0xFB ∧
    ({ busy .transferByte .writeTrack 4 1 with wt.state := .id } : State).wt.state ≠ .data ∧
    ({ busy .transferByte .writeTrack 4 1 with wt.state := .id, wt.idIndex := 2 } : State).wt.idIndex < 3 ∧
    3 ≤ ({ busy .transferByte .writeTrack 4 1 with wt.state := .id, wt.idIndex := 3 } : State).wt.idIndex :=
  ⟨by decide, ⟨by decide, by decide⟩, by decide, by decide, by decide, by decide, by decide, by decide, by decide, by decide,
    by decide, by decide⟩

theorem witness_FormatDataRule :
    (busy .transferByte .writeTrack 4 2).seq.phase = .transferByte ∧ Expires 4 (busy .transferByte .writeTrack 4 2) ∧
    (busy .transferByte .writeTrack 4 2).seq.activeCommandClass = .writeTrack ∧
    ({ busy .transferByte .writeTrack 4 2 with wt.state := .data } : State).wt.state = .data ∧
    1 < (busy .transferByte .writeTrack 4 2).xfer.byteCountRemaining ∧
    (busy .transferByte .writeTrack 4 1).xfer.byteCountRemaining = 1 ∧
    ((busy .transferByte .writeTrack 4 1).regs.sector + 1).toNat < (busy .transferByte .writeTrack 4 1).xfer.sectorCount ∧
    (busy .transferByte .writeTrack 4 1).xfer.sectorCount
      ≤ (({ busy .transferByte .writeTrack 4 1 with regs.sector := 1 } : State).regs.sector + 1).toNat :=
  ⟨by decide, ⟨by decide, by decide⟩, by decide, by decide, by decide, by decide, by decide, by decide⟩

theorem witness_StatusReadRule :
    (busy .seeking .typeI 4 1).seq.activeCommandClass = .typeI ∧ (idle .eighty 3 0x80 0 0 0).seq.activeCommandClass ≠ .typeI := by
  decide

theorem witness_TrackRegisterRule :
    (idle .eighty 3 0x80 0 0 0).seq.phase = .idle ∧ (busy .seeking .typeI 4 1).seq.phase ≠ .idle ∧
    ∃ t, EnteredSeeking (.restore false false 0) (latchTypeI .restore false false 0) 0 0 0 .inward (idle .eighty 3 0x80 0 0 0) t :=
  ⟨by decide, by decide,
    (((acceptCommand (.restore false false 0) (latchTypeI .restore false false 0) (idle .eighty 3 0xA1 0 0 0)).enterPhase .seeking 0).setClass
      .typeI).updateDrive .drive0 (fun D => { D with headLoaded := true, trackPosition := 0 }) |>.setStatusBit 5 true |>.setStatusBit 0 true,
    ⟨by decide, by decide, by decide, by decide, by decide,
      ⟨by decide, by decide, by decide, by decide, by decide, by decide, fun _ _ _ => rfl, by decide, by decide, by decide⟩⟩⟩

theorem witness_SectorRegisterRule :
    ((idle .eighty 3 0x80 0 0 0).disk .drive0).sectorBias = false ∧
    (({ idle .eighty 3 0x80 0 0 0 with disks.drive0.sectorBias := true } : State).disk .drive0).sectorBias = true ∧
    (idle .eighty 3 0x80 0 0 0).seq.phase = .idle ∧ ∃ t, writeSectorRegister 0 (idle .eighty 3 0x80 0 0 0) = .next t :=
  ⟨by decide, by decide, by decide, _, rfl⟩

theorem witness_DataRegisterRule :
    ({ busy .transferByte .typeIIRead 4 1 with regs.drq := true } : State).regs.drq = true ∧
    (idle .eighty 3 0x80 0 0 0).regs.drq = false := by decide

theorem witness_IndexPulseRule :
    ((idle .eighty 3 0x80 0 0 0).statusBit motorBit = true ∧ (idle .eighty 3 0x80 0 0 0).seq.activeCommandClass ≠ .forceInterrupt) ∧
    ({ idle .eighty 3 0x80 0 0 0 with seq.activeCommandClass := .forceInterrupt } : State).seq.activeCommandClass = .forceInterrupt ∧
    (idle .eighty 3 0x7F 0 0 0).statusBit motorBit = false := by decide

theorem witness_EnvironmentFrame :
    ∃ t, environmentChange (.ejectMedia .drive0) (busy .seeking .typeI 4 1) = .next t ∧
      t.imageByte .drive0 .side0 0 ≠ (busy .seeking .typeI 4 1).imageByte .drive0 .side0 0 := ⟨_, rfl, by decide⟩

/-- Events in states of every phase, with the phase R144's table gives for each: the row's condition just met, and just
missed where the row has one. -/
def transitionRows : List (State × Event × Phase) :=
  let off := idle .eighty 3 0x00 0 0 0
  let on := idle .eighty 3 0x80 0 0 0
  let prepare := busy .transferPrepare .typeIIRead 0 1
  [(off, .hostWrite .command 0x84, .spinUp), (off, .hostWrite .command 0x18, .seeking), (off, .hostWrite .command 0xE0, .idle),
   (on, .hostWrite .command 0x84, .settling), (on, .hostWrite .command 0x80, .transferPrepare), (on, .poll 1, .idle),
   (on, .hostWrite .track 7, .idle), (on, .hostWrite .sector 1, .idle),
   (busy .spinUp .typeI 2 1, .poll 1, .spinUp), (busy .spinUp .typeI 2 1, .poll 2, .seeking),
   (busy .spinUp .writeTrack 2 1, .poll 2, .transferPrepare),
   (busy .settling .typeIIRead 2 1, .poll 2, .transferPrepare),
   (busy .seeking .typeI 2 1, .poll 1, .seeking), (busy .seeking .typeI 2 1, .poll 2, .idle),
   (prepare, .poll 1, .transferByte), ({ prepare with regs.track := 5 }, .poll 1, .idle),
   ({ prepare with regs.sector := 2 }, .poll 1, .idle),
   ({ prepare with seq.activeCommandClass := .writeTrack, regs.sector := 1 }, .poll 1, .transferByte),
   ({ prepare with seq.activeCommandClass := .writeTrack, regs.sector := 2 }, .poll 1, .idle),
   (busy .transferByte .typeIIRead 2 2, .poll 2, .transferByte), (busy .transferByte .typeIIRead 2 1, .poll 2, .idle),
   (busy .transferByte .typeIIRead 2 2, .hostRead .data, .transferByte),
   (busy .transferByte .typeIIWrite 2 2, .hostWrite .data 1, .transferByte),
   (busy .transferByte .typeIIRead 2 2, .indexPulse, .transferByte),
   (busy .transferByte .typeIIRead 2 2, .environment (.ejectMedia .drive0), .transferByte),
   (busy .transferByte .typeIIRead 2 2, .hostWrite .command 0xD0, .idle), (busy .transferByte .typeIIRead 2 2, .reset, .idle)]

/-- Every state of those rows meets the invariant. -/
theorem transitionRows_invariant (row : State × Event × Phase) (h : row ∈ transitionRows) : Invariant row.1 := by
  simp only [transitionRows, List.mem_cons, List.not_mem_nil, or_false] at h
  rcases h with rfl | rfl | rfl | rfl | rfl | rfl | rfl | rfl | rfl | rfl | rfl | rfl | rfl | rfl | rfl | rfl | rfl | rfl | rfl |
    rfl | rfl | rfl | rfl | rfl | rfl | rfl | rfl <;>
  exact {
    busy_iff := by decide, not_completing := by decide, active_iff := by decide, seeking_class := by decide
    settling_class := by decide, prepare_class := by decide, transfer_class := by decide, typeI_kind := by decide
    drq_status := by decide, typeI_no_drq := by decide, transfer_drq := by decide, no_crc_error := by decide
    cycles_nonneg := by decide, confusion_phase := by decide, step_rate := by decide, id_index := by decide
    id_size := by decide
    context := by
      first
      | exact fun h => absurd h (by decide)
      | exact fun _ => ⟨by decide, by decide, by decide, by decide, by decide, by decide⟩
    head_in_range := by intro d; cases d <;> decide
    images_canonical := by intro d h; cases d <;> cases h <;> decide }

/-- A busy state that meets the invariant: Seeking for two more cycles. -/
theorem seeking_invariant : Invariant (busy .seeking .typeI 2 1) :=
  transitionRows_invariant (busy .seeking .typeI 2 1, .poll 1, .seeking) (by simp [transitionRows])

theorem witness_InvariantKept : Invariant (busy .seeking .typeI 2 1) ∧ ∃ t, step (busy .seeking .typeI 2 1) = .next t :=
  ⟨seeking_invariant, _, rfl⟩

theorem witness_LegalEventsRun :
    Invariant { busy .seeking .typeI 2 1 with io.inputs := [.poll 1] } ∧
    ({ busy .seeking .typeI 2 1 with io.inputs := [.poll 1] } : State).nextEvent = some (.poll 1) := by
  have h := seeking_invariant
  exact ⟨⟨h.1, h.2, h.3, h.4, h.5, h.6, h.7, h.8, h.9, h.10, h.11, h.12, h.13, h.14, h.15, h.16, h.17,
    fun hp => absurd hp (by decide), h.19, h.20⟩, by decide⟩

/-- The states and events of the rows meet the hypotheses, and each row's phase is the one R144's table gives. -/
theorem witness_PhaseTransitions :
    (∀ row ∈ transitionRows, Invariant row.1) ∧
    ∀ row ∈ transitionRows, after (runEvent row.2.1 row.1) (fun t => t.seq.phase) = some row.2.2 :=
  ⟨transitionRows_invariant, by decide⟩

theorem witness_ImageWriters :
    ∃ t, runEvent (.poll 4) (busy .transferByte .typeIIWrite 4 1) = .next t ∧ (∀ c, Event.poll 4 ≠ .environment c) ∧
      t.imageByte .drive0 .side0 1 ≠ (busy .transferByte .typeIIWrite 4 1).imageByte .drive0 .side0 1 :=
  ⟨_, rfl, by simp, by decide⟩

theorem witness_InterruptSources :
    (∃ t, runEvent (.poll 4) (busy .seeking .typeI 4 1) = .next t ∧ (busy .seeking .typeI 4 1).regs.intrq = false ∧
      t.regs.intrq = true ∧ (busy .seeking .typeI 4 1).seq.phase ≠ .idle ∧ t.seq.phase = .idle) ∧
    ∃ t, runEvent (.hostRead .command) { idle .eighty 3 0x80 0 0 0 with regs.intrq := true } = .next t ∧
      t.regs.intrq = false :=
  ⟨⟨_, rfl, by decide, by decide, by decide, by decide⟩, _, rfl, by decide⟩

theorem witness_RequestSources :
    (∃ t, runEvent (.poll 4) (busy .transferByte .typeIIRead 4 1) = .next t ∧
      (busy .transferByte .typeIIRead 4 1).regs.drq = false ∧ t.regs.drq = true) ∧
    ∃ t, runEvent (.hostRead .data) { busy .transferByte .typeIIRead 4 1 with regs.drq := true } = .next t ∧ t.regs.drq = false :=
  ⟨⟨_, rfl, by decide, by decide⟩, _, rfl, by decide⟩

theorem witness_DriveChanges :
    (∃ t, runEvent (.hostWrite .command 0x40) (idle .eighty 3 0x80 0 0 0) = .next t ∧
      (t.drive .drive0).trackPosition ≠ ((idle .eighty 3 0x80 0 0 0).drive .drive0).trackPosition) ∧
    (∀ c, Event.hostWrite .command 0x40 ≠ .environment c) ∧ Event.hostWrite .command 0x40 ≠ .reset ∧
    DriveNo.drive1 ≠ (idle .eighty 3 0x80 0 0 0).board.selDrive :=
  ⟨⟨_, rfl, by decide⟩, by simp, by decide, by decide⟩

theorem witness_ErrorBitsSticky :
    (∃ t, runEvent (.hostWrite .command 0xD8) (idle .eighty 3 0xD4 0 0 0) = .next t) ∧ Event.hostWrite .command 0xD8 ≠ .reset ∧
    (∀ v, Event.hostWrite .command 0xD8 = .hostWrite .command v → commandKind (decode v) = .forceInterrupt) ∧
    (idle .eighty 3 0xD4 0 0 0).seq.phase ≠ .seeking ∧ (idle .eighty 3 0xD4 0 0 0).statusBit errorBit = true ∧
    (idle .eighty 3 0xD4 0 0 0).statusBit lostDataBit = true ∧ (idle .eighty 3 0xD4 0 0 0).statusBit writeProtectBit = true :=
  ⟨⟨_, rfl⟩, by decide, by rintro v h; cases h; decide, by decide, by decide, by decide, by decide⟩

theorem witness_RegisterWriters :
    (∃ t, runEvent (.hostWrite .command 0x40) (idle .eighty 3 0x80 0 0 0) = .next t ∧ t.regs.cmd ≠ 0 ∧ t.regs.track ≠ 0) ∧
    (∃ t, runEvent (.poll 4) { busy .transferByte .typeIIRead 4 1 with latch.multiSectorFlag := true } = .next t ∧
      t.regs.sector ≠ 0 ∧ t.regs.data ≠ 0x42) :=
  ⟨⟨_, rfl, by decide, by decide⟩, _, rfl, by decide, by decide⟩

theorem witness_TypeICommandRuns :
    startedClass (decode 0x16) = .typeI ∧ (idle .forty 0 0x80 0 0 30).seq.phase = .idle ∧
    skipsSpinUp (idle .forty 0 0x80 0 0 30) (decode 0x16) = true ∧ seekConfused (idle .forty 0 0x80 0 0 30) = false ∧
    630 = movePassed (idle .forty 0 0x80 0 0 30) (commandKind (decode 0x16))
        * stepRateCycles (idle .forty 0 0x80 0 0 30).cfg (latchedFields (decode 0x16)).stepRateSel
      + (if (latchedFields (decode 0x16)).verifyFlag then (idle .forty 0 0x80 0 0 30).cfg.verifyTime else 0) := by decide

theorem witness_RestoreAfterReset : 3 < 4 ∧ seekConfused (busy .transferByte .typeIIRead 4 1) = false := by decide

/-- Sector 1 of track 0, alone and as the last of a multi-sector read. -/
theorem witness_ReadSectorDelivers :
    (decode 0x80 = .rdsec false false 0 ∧ decode 0x90 = .rdsec true false 0) ∧
    (idle .eighty 3 0x80 0 0 0).seq.phase = .idle ∧ (idle .eighty 3 0x80 0 0 0).statusBit motorBit = true ∧
    (idle .eighty 3 0x80 0 0 0).cfg.wellFormed = true ∧ ((idle .eighty 3 0x80 0 0 0).disk .drive0).isOpen = true ∧
    (idle .eighty 3 0x80 0 0 0).cfg.densityCheckOnTransfer = false ∧
    (idle .eighty 3 0x80 0 0 0).geometry .drive0 .side0 0 = some ⟨2, 2, 0⟩ ∧
    (idle .eighty 3 0x80 0 0 0).regs.sector.toNat < (⟨2, 2, 0⟩ : Geometry).sectorCount.val ∧ 1 ≤ (⟨2, 2, 0⟩ : Geometry).sectorSize ∧
    ([0xE5, 0xE6, 0xE7, 0xE8] : List Byte).length
      = (if true then (⟨2, 2, 0⟩ : Geometry).sectorCount.val - (idle .eighty 3 0x80 0 0 0).regs.sector.toNat else 1) * 2 ∧
    HoldsBytes (idle .eighty 3 0x80 0 0 0) .drive0 .side0 (sectorOffset 0 0 2) [0xE5, 0xE6, 0xE7, 0xE8] := by
  refine ⟨by decide, by decide, by decide, by decide, by decide, by decide, by decide, by decide, by decide, by decide, ?_⟩
  unfold HoldsBytes; decide

theorem witness_WriteSectorStores :
    decode 0xA0 = .wrsec false false 0 ∧ (idle .eighty 3 0x80 10 1 0).seq.phase = .idle ∧
    (idle .eighty 3 0x80 10 1 0).statusBit motorBit = true ∧ (idle .eighty 3 0x80 10 1 0).cfg.wellFormed = true ∧
    ((idle .eighty 3 0x80 10 1 0).disk .drive0).isOpen = true ∧
    ((idle .eighty 3 0x80 10 1 0).disk .drive0).isWriteProtected = false ∧
    (idle .eighty 3 0x80 10 1 0).cfg.densityCheckOnTransfer = false ∧
    (idle .eighty 3 0x80 10 1 0).geometry .drive0 .side0 10 = some ⟨2, 2, 256⟩ ∧
    (idle .eighty 3 0x80 10 1 0).regs.sector.toNat < (⟨2, 2, 256⟩ : Geometry).sectorCount.val ∧
    1 ≤ (⟨2, 2, 256⟩ : Geometry).sectorSize ∧ ([1, 2] : List Byte).length = 1 * (⟨2, 2, 256⟩ : Geometry).sectorSize := by decide

theorem witness_FormatsOneSector :
    (busy .transferByte .writeTrack 4 1).seq.phase = .transferByte ∧
    (busy .transferByte .writeTrack 4 1).seq.activeCommandClass = .writeTrack ∧
    (busy .transferByte .writeTrack 4 1).wt.state = .scan ∧ (busy .transferByte .writeTrack 4 1).cfg.wellFormed = true ∧
    (busy .transferByte .writeTrack 4 1).seq.cyclesRemaining ≤ ((busy .transferByte .writeTrack 4 1).cfg.byteTime : Int) ∧
    (busy .transferByte .writeTrack 4 1).regs.sector.toNat + 1 < (busy .transferByte .writeTrack 4 1).xfer.sectorCount ∧
    ({ busy .transferByte .writeTrack 4 1 with regs.sector := 1 } : State).regs.sector.toNat + 1
      = (busy .transferByte .writeTrack 4 1).xfer.sectorCount ∧
    (busy .transferByte .writeTrack 4 1).xfer.sectorCount ≤ 255 ∧
    (List.replicate 128 (0xE5 : Byte)).length = 128 * 2 ^ ((0 : Byte).toNat % 4) :=
  ⟨by decide, by decide, by decide, by decide, by decide, by decide, by decide, by decide, by simp⟩

theorem witness_CommandsEnd :
    Invariant (busy .seeking .typeI 2 1) ∧ (busy .seeking .typeI 2 1).seq.activeCommandClass ≠ .writeTrack ∧
    (busy .seeking .typeI 2 1).seq.phase ≠ .idle := ⟨seeking_invariant, by decide, by decide⟩

end Sys2Proof.Tests
end

section
/-! The step inward (spec/40_drive_unit.md R123, R125, R129): its position on each medium, its feedback and its track-0
sensor. -/

namespace Sys2Proof.Machine

/-- Either medium has a track further in than track 0. -/
theorem DriveUnit.lastTrack_pos (D : DriveUnit) : 1 ≤ D.lastTrack := by
  unfold DriveUnit.lastTrack
  cases D.tracksPerDisk <;> decide

/-- The clamped step inward in numbers, one line for each medium (R129). -/
theorem DriveUnit.clampedStepIn_eq (D : DriveUnit) :
    min (D.trackPosition + D.stepSize) D.lastTrack =
      match D.tracksPerDisk with
      | .forty => min (D.trackPosition + 2) 39
      | .eighty => min (D.trackPosition + 1) 79 := by
  unfold DriveUnit.stepSize DriveUnit.lastTrack
  cases D.tracksPerDisk <;> rfl

/-- The feedback of `stepIn` (R123): the motor always, Overstep exactly from the last track. -/
theorem DriveUnit.stepIn_signals (D : DriveUnit) :
    D.stepIn.2 = if D.trackPosition = D.lastTrack then [.motorSpinning, .overstep] else [.motorSpinning] := by
  simp only [DriveUnit.stepIn, DriveUnit.loadHead_eq, DriveUnit.loaded_trackPosition, DriveUnit.loaded_lastTrack]
  split <;> rfl

/-- A step inward never ends at track 0: the step and the last track are both at least 1. -/
theorem DriveUnit.stepIn_isTrack00 (D : DriveUnit) : D.stepIn.1.isTrack00 = false := by
  have hstep := D.stepSize_pos
  have hlast := D.lastTrack_pos
  rw [DriveUnit.stepIn_record, DriveUnit.isTrack00, DriveUnit.loadedAt_trackPosition, decide_eq_false_iff_not]
  omega

/-- Settles O16, from the record, the feedback and the track-0 sensor after a step inward. -/
theorem stepInRule : Obligations.StepInRule := by
  intro D
  refine ⟨?record, D.stepIn_signals, D.stepIn_isTrack00⟩
  case record =>
    rw [DriveUnit.stepIn_record, DriveUnit.clampedStepIn_eq]
    rfl

end Sys2Proof.Machine
end

section
/-! Completion (spec/41_sequencer.md R150): what it writes, and that every way to the end of a command goes through it with
the interrupt raised, except Force Interrupt with i3 = 0 and Reset (R270, R275). -/

namespace Sys2Proof.Machine

/-! ### The spin-down of a motor that is off (R151) -/

/-- Clearing a status bit that is already clear changes nothing. -/
theorem putBit_false_of_clear (v : Byte) (i : Nat) (hi : i < 8) (h : v.getLsbD i = false) : putBit v i false = v := by
  refine BitVec.eq_of_getLsbD_eq fun j _ => ?_
  rw [putBit_getLsbD v i false j hi]
  split
  · next hij => rw [← hij, h]
  · rfl

/-- With the motor off the spin-down tick changes no register: the one bit it may clear is clear. -/
theorem spinDownTick_regs_of_motorOff (n : Nat) (s : State) (h : s.statusBit motorBit = false) :
    (spinDownTick n s).regs = s.regs := by
  have hclear : putBit s.regs.status motorBit false = s.regs.status := putBit_false_of_clear _ _ (by decide) h
  simp only [spinDownTick]
  split
  · split
    · simp only [State.setStatusBit, State.updateDrive, hclear]
    · rfl
  · rfl

/-- A poll of an Idle state is the spin-down tick (R146). -/
theorem poll_idle {n : Nat} {s t : State} (hp : s.seq.phase = .idle) (h : poll n s = .next t) : t = spinDownTick n s := by
  rw [poll, if_pos hp] at h
  split at h <;> cases h
  rfl

/-! ### What ends a command raises the interrupt

A procedure of the sequencer either leaves a phase in force or has gone through `Complete(true)`. -/

/-- If no command is in progress in this state, the interrupt line is up. -/
def State.RaisedIfIdle (s : State) : Prop := s.seq.phase = .idle → s.regs.intrq = true

theorem State.RaisedIfIdle.of_phase {s : State} {p : Phase} (h : s.seq.phase = p) (hp : p ≠ .idle) : s.RaisedIfIdle :=
  fun hi => absurd (h.symm.trans hi) hp

theorem State.complete_raisedIfIdle (s : State) : (s.complete true).RaisedIfIdle := fun _ => by simp

theorem State.abort_raisedIfIdle (s : State) (bit : Nat) : (s.abort bit).RaisedIfIdle := State.complete_raisedIfIdle _

/-- `EnterSeeking` enters Seeking in both of its forms (R180, R187). -/
theorem enterSeeking_phase {s t : State} (h : enterSeeking s = .next t) : t.seq.phase = .seeking := by
  obtain ⟨-, rfl⟩ | ⟨-, m, -, hm, rfl⟩ := enterSeeking_cases s t h
  · rfl
  · have hseq : m.state.seq = s.atSeekEntry.seq := by rw [hm.eq]
    simp [Move.finish, hseq, State.atSeekEntry]

/-- `BeginCommandPhase` leaves one of its three phases in force (R143). -/
theorem beginCommandPhase_phase {s t : State} (h : beginCommandPhase s = .next t) : t.seq.phase ≠ .idle := by
  simp only [beginCommandPhase] at h
  split at h
  · simp [enterSeeking_phase h]
  all_goals try split at h
  all_goals cases h
  all_goals simp

/-- A command that starts is in SpinUp or in its own phase (R140). -/
theorem startCommand_phase {cls : CommandClass} {s t : State} (h : startCommand cls s = .next t) : t.seq.phase ≠ .idle := by
  simp only [startCommand] at h
  split at h
  · exact beginCommandPhase_phase h
  · cases h
    simp

theorem endOfSector_raisedIfIdle (isWrite : Bool) {s : State} (hp : s.seq.phase = .transferByte) :
    (endOfSector isWrite s).RaisedIfIdle := by
  simp only [endOfSector]
  split
  · exact State.complete_raisedIfIdle _
  · split
    · exact State.complete_raisedIfIdle _
    · refine .of_phase (p := .transferByte) ?_ (by decide)
      split <;> simpa using hp

theorem readSectorByte_raisedIfIdle {s : State} (hp : s.seq.phase = .transferByte) : (readSectorByte s).RaisedIfIdle := by
  simp only [readSectorByte]
  split
  · exact endOfSector_raisedIfIdle false (by simpa using hp)
  · exact .of_phase (p := .transferByte) (by simpa using hp) (by decide)

theorem writeSectorByte_raisedIfIdle {s : State} (hp : s.seq.phase = .transferByte) : (writeSectorByte s).RaisedIfIdle := by
  simp only [writeSectorByte]
  split
  · exact endOfSector_raisedIfIdle true (by simpa using hp)
  · exact .of_phase (p := .transferByte) (by simpa using hp) (by decide)

theorem readAddressByte_raisedIfIdle {s : State} (hp : s.seq.phase = .transferByte) : (readAddressByte s).RaisedIfIdle := by
  simp only [readAddressByte]
  split
  · exact State.complete_raisedIfIdle _
  · exact .of_phase (p := .transferByte) (by simpa using hp) (by decide)

theorem scanByte_seq (b : Byte) (s : State) : (scanByte b s).seq = s.seq := by
  unfold scanByte
  split
  · rfl
  · split <;> rfl

theorem idByte_seq (b : Byte) (s : State) : (idByte b s).seq = s.seq := by
  unfold idByte
  split <;> rfl

theorem dataByte_raisedIfIdle (b : Byte) {s : State} (hp : s.seq.phase = .transferByte) : (dataByte b s).RaisedIfIdle := by
  simp only [dataByte]
  split
  · split
    · exact State.complete_raisedIfIdle _
    · exact .of_phase (p := .transferByte) (by simpa using hp) (by decide)
  · exact .of_phase (p := .transferByte) (by simpa using hp) (by decide)

/-- The wait for the next stream byte keeps the phase, so it keeps what the byte's own rule established. -/
theorem awaitStreamByte_raisedIfIdle {s : State} (h : s.RaisedIfIdle) :
    (if s.seq.phase = .transferByte then s.setDrq.awaitByte else s).RaisedIfIdle := by
  split
  · next hp => exact .of_phase (p := .transferByte) (by simpa using hp) (by decide)
  · exact h

theorem writeTrackByte_raisedIfIdle {s : State} (hp : s.seq.phase = .transferByte) : (writeTrackByte s).RaisedIfIdle := by
  have hseq : s.lostDataCheck.withdrawDrq.seq.phase = .transferByte := by simpa using hp
  simp only [writeTrackByte]
  refine awaitStreamByte_raisedIfIdle ?_
  split
  · exact .of_phase (p := .transferByte) (by rw [scanByte_seq, hseq]) (by decide)
  · exact .of_phase (p := .transferByte) (by rw [idByte_seq, hseq]) (by decide)
  · exact dataByte_raisedIfIdle _ hseq

theorem doTransferByte_raisedIfIdle {s t : State} (hp : s.seq.phase = .transferByte) (h : doTransferByte s = .next t) :
    t.RaisedIfIdle := by
  unfold doTransferByte at h
  split at h <;> cases h
  · exact readSectorByte_raisedIfIdle hp
  · exact writeSectorByte_raisedIfIdle hp
  · exact readAddressByte_raisedIfIdle hp
  · exact writeTrackByte_raisedIfIdle hp

/-- Write Track enters TransferByte, or ends at once without budget (R240). -/
theorem prepareWriteTrack_raisedIfIdle (s : State) : (prepareWriteTrack s).RaisedIfIdle := by
  unfold prepareWriteTrack
  split
  · exact State.complete_raisedIfIdle _
  · exact .of_phase (p := .transferByte) (by simp) (by decide)

theorem prepareTransfer_raisedIfIdle {s t : State} (h : prepareTransfer s = .next t) : t.RaisedIfIdle := by
  unfold prepareTransfer at h
  split at h <;> cases h
  · exact .of_phase (p := .transferByte) rfl (by decide)
  · exact .of_phase (p := .transferByte) rfl (by decide)
  · exact .of_phase (p := .transferByte) rfl (by decide)
  · exact prepareWriteTrack_raisedIfIdle _

theorem doTransferPrepare_raisedIfIdle {s t : State} (h : doTransferPrepare s = .next t) : t.RaisedIfIdle := by
  simp only [doTransferPrepare] at h
  split at h
  · cases h
    exact State.abort_raisedIfIdle _ _
  · exact prepareTransfer_raisedIfIdle h

/-- Every expiry that ends a command raises the interrupt (R146, R150). -/
theorem phaseExpiry_raisedIfIdle {s t : State} (h : phaseExpiry s = .next t) : t.RaisedIfIdle := by
  unfold phaseExpiry at h
  split at h
  · exact fun hi => absurd hi (beginCommandPhase_phase h)
  · cases h
    exact .of_phase (p := .transferPrepare) rfl (by decide)
  · cases h
    exact State.complete_raisedIfIdle _
  · exact doTransferPrepare_raisedIfIdle h
  · next hp => exact doTransferByte_raisedIfIdle hp h
  · cases h
  · cases h

/-- Every poll that ends a command raises the interrupt. -/
theorem poll_raisedIfIdle {n : Nat} {s t : State} (hp : s.seq.phase ≠ .idle) (h : poll n s = .next t) : t.RaisedIfIdle := by
  rcases Nat.eq_zero_or_pos n with rfl | hn
  · cases h
  rcases lt_or_ge (n : Int) s.seq.cyclesRemaining with hc | hc
  · rw [poll_counts n s hn hp hc] at h
    cases h
    exact fun hi => absurd hi hp
  · rw [poll_expires n s ⟨hn, hc⟩ hp] at h
    exact phaseExpiry_raisedIfIdle h

/-! ### Command writes and the other events -/

theorem whenIdle_next {s t : State} {k : State → Result} (h : whenIdle s k = .next t) : k s = .next t := by
  unfold whenIdle at h
  split at h
  · exact h
  · cases h

/-- A Force Interrupt leaves the interrupt line at i3 (R250). -/
theorem execForceint_intrq {i3 i2 : Bool} {x : Nat} {s t : State} (h : execForceint i3 i2 x s = .next t) :
    t.regs.intrq = i3 := by
  cases h
  cases i2 <;> simp

/-- Of the commands only Force Interrupt with i3 = 0 leaves the subsystem Idle without raising the interrupt: the others
start a phase, or complete at once as Read Track does (R230). -/
theorem exec_raisedIfIdle {i : Instr} {s t : State} (h : exec i s = .next t) (hi : ∀ i2 x, i ≠ .forceint false i2 x) :
    t.RaisedIfIdle := by
  cases i
  case forceint i3 i2 x =>
    cases i3
    · exact absurd rfl (hi i2 x)
    · exact fun _ => execForceint_intrq h
  case rdtrk x =>
    simp only [exec, execRdtrk] at h
    have hend := whenIdle_next h
    cases hend
    exact State.abort_raisedIfIdle _ _
  all_goals
    simp only [exec, execRestore, execSeek, execStep, execStepin, execStepout, execRdsec, execWrsec, execRdaddr,
      execWrtrk] at h
    have hstart := whenIdle_next h
    exact fun hidle => absurd hidle (startCommand_phase hstart)

theorem exec_idle_unraised {i : Instr} {s t : State} (h : exec i s = .next t) (hp : t.seq.phase = .idle)
    (hq : t.regs.intrq = false) : ∃ i2 x, i = .forceint false i2 x := by
  by_contra hno
  have hup : t.regs.intrq = true := exec_raisedIfIdle h (fun i2 x hi => hno ⟨i2, x, hi⟩) hp
  rw [hq] at hup
  cases hup

theorem hostRead_phase (reg : HostRegister) (s : State) : (hostRead reg s).seq.phase = s.seq.phase := by
  cases reg <;> simp [hostRead, readStatus, readTrack, readSector, readData]

theorem writeTrackRegister_phase {v : Byte} {s t : State} (h : writeTrackRegister v s = .next t) :
    t.seq.phase = s.seq.phase := by
  unfold writeTrackRegister at h
  split at h <;> cases h
  rfl

theorem writeSectorRegister_phase {v : Byte} {s t : State} (h : writeSectorRegister v s = .next t) :
    t.seq.phase = s.seq.phase := by
  unfold writeSectorRegister at h
  split at h <;> cases h
  rfl

theorem indexPulse_phase {s t : State} (h : indexPulse s = .next t) : t.seq.phase = s.seq.phase := by
  unfold indexPulse at h
  split at h
  · split at h <;> cases h <;> rfl
  · cases h

theorem changeTracksPerDisk_phase {d : DriveNo} {tracks : TracksPerDisk} {position : Nat} {s t : State}
    (h : changeTracksPerDisk d tracks position s = .next t) : t.seq.phase = s.seq.phase := by
  simp only [changeTracksPerDisk] at h
  split at h
  · cases h
    rfl
  · split at h <;> cases h
    rfl

theorem environmentChange_phase {change : EnvChange} {s t : State} (h : environmentChange change s = .next t) :
    t.seq.phase = s.seq.phase := by
  cases change
  case setTracksPerDisk => exact changeTracksPerDisk_phase h
  all_goals
    cases h
    rfl

/-- The events that can end a command: a poll, a command write and Reset; every other one leaves the phase alone. -/
theorem runEvent_phase {e : Event} {s t : State} (h : runEvent e s = .next t) :
    (∃ n, e = .poll n) ∨ (∃ v, e = .hostWrite .command v) ∨ e = .reset ∨ t.seq.phase = s.seq.phase := by
  cases e
  case poll n => exact .inl ⟨n, rfl⟩
  case reset => exact .inr (.inr (.inl rfl))
  case hostRead reg =>
    cases h
    exact .inr (.inr (.inr (hostRead_phase reg s)))
  case indexPulse => exact .inr (.inr (.inr (indexPulse_phase h)))
  case environment => exact .inr (.inr (.inr (environmentChange_phase h)))
  case hostWrite reg v =>
    cases reg
    case command => exact .inr (.inl ⟨v, rfl⟩)
    case data =>
      cases h
      exact .inr (.inr (.inr (by simp [writeDataRegister])))
    case track => exact .inr (.inr (.inr (writeTrackRegister_phase h)))
    case sector => exact .inr (.inr (.inr (writeSectorRegister_phase h)))

/-- An event that ends a command with the interrupt line down is Reset or a Force Interrupt with i3 = 0. -/
theorem runEvent_ends_unraised {e : Event} {s t : State} (h : runEvent e s = .next t) (hs : s.seq.phase ≠ .idle)
    (hp : t.seq.phase = .idle) (hq : t.regs.intrq = false) :
    e = .reset ∨ ∃ v i2 x, e = .hostWrite .command v ∧ decode v = .forceint false i2 x := by
  obtain ⟨n, rfl⟩ | ⟨v, rfl⟩ | rfl | hphase := runEvent_phase h
  · have hup : t.regs.intrq = true := poll_raisedIfIdle hs h hp
    rw [hq] at hup
    cases hup
  · obtain ⟨i2, x, hi⟩ := exec_idle_unraised h hp hq
    exact .inr ⟨v, i2, x, rfl, hi⟩
  · exact .inl rfl
  · exact absurd (hphase.symm.trans hp) hs

/-- Settles O18, from the closed form of completion, the spin-down with the motor off, and the ways a command can end. -/
theorem completeRule : Obligations.CompleteRule := by
  refine ⟨fun s raise => ?closedForm, fun n s raise t hm h => ?motorOff, fun i s t h hp hq => exec_idle_unraised h hp hq,
    fun e s t h hs hp hq => runEvent_ends_unraised h hs hp hq⟩
  case closedForm =>
    refine ⟨?_, s.complete_seq_eq raise, by simp, by simp, by simp [drivesAfterComplete], s.complete_rest raise⟩
    rw [State.complete_regs_eq, putBit_busy_clear]
  case motorOff =>
    have hm' : (s.complete raise).statusBit motorBit = false := by
      rw [State.statusBit_complete, if_neg (by decide), hm]
    rw [poll_idle (by simp) h, spinDownTick_regs_of_motorOff n _ hm']

end Sys2Proof.Machine
end

section
/-! The verify flag (spec/42_type1_commands.md R188): the moves, the confusion sub-phase and the end of Seeking do not read
it; only the wait a move loads does (R180). -/

namespace Sys2Proof.Machine

/-! ### The latched verify flag and the moves -/

/-- The same state with the verify flag latched as `v`. -/
def State.withVerify (s : State) (v : Bool) : State := { s with latch.verifyFlag := v }

/-- The same move, made in a state whose verify flag is `v`. -/
def Move.withVerify (m : Move) (v : Bool) : Move := { m with state := m.state.withVerify v }

/-- SEEK compares TRACK with DATA and steps the selected head: three directions, none reads the flag (R182). -/
theorem seekMove_withVerify (s : State) (v : Bool) : seekMove (s.withVerify v) = (seekMove s).withVerify v := by
  rcases lt_trichotomy s.regs.track.toNat s.regs.data.toNat with hin | hstay | hout
  · simp [seekMove, Move.withVerify, State.withVerify, State.driveOperation, State.selected, State.drive, hin]
  · simp [seekMove, Move.withVerify, State.withVerify, hstay]
  · simp [seekMove, Move.withVerify, State.withVerify, State.driveOperation, State.selected, State.drive, hout, hout.asymm]

/-- STEP reads the step direction alone (R183). -/
theorem stepMove_withVerify (s : State) (v : Bool) : stepMove (s.withVerify v) = (stepMove s).withVerify v := by
  have hdir : (s.withVerify v).stepDirection = s.stepDirection := rfl
  unfold stepMove
  rw [hdir]
  cases s.stepDirection <;> rfl

/-- No command's move reads the verify flag (R181 to R185). -/
theorem latchedMove_withVerify (s : State) (v : Bool) :
    latchedMove (s.withVerify v) = (latchedMove s).map (·.withVerify v) := by
  have hkind : (s.withVerify v).latch.cmdKind = s.latch.cmdKind := rfl
  unfold latchedMove
  rw [hkind]
  cases s.latch.cmdKind
  case seek => exact congrArg some (seekMove_withVerify s v)
  case step => exact congrArg some (stepMove_withVerify s v)
  all_goals rfl

/-! ### The wait of a move -/

/-- `VERIFY_TIME` is the flag's one term in the wait (R180). -/
theorem seekCycles_verified (s : State) (n : Nat) (hv : s.latch.verifyFlag = false) :
    seekCycles (s.withVerify true) n = seekCycles s n + s.cfg.verifyTime := by
  simp [seekCycles, State.withVerify, hv]

/-- The same state with the verify flag set and a wait that is longer by `n`. -/
def State.verifiedFor (s : State) (n : Nat) : State := (s.withVerify true).setCycles (s.seq.cyclesRemaining + n)

/-- So a verified move differs from the plain one in the flag itself and in that term of the wait. -/
theorem Move.finish_verified (m : Move) (hv : m.state.latch.verifyFlag = false) :
    (m.withVerify true).finish = m.finish.verifiedFor m.state.cfg.verifyTime := by
  have hwait : ((seekCycles (m.state.withVerify true) m.tracksPassed : Nat) : Int)
      = (seekCycles m.state m.tracksPassed : Int) + (m.state.cfg.verifyTime : Int) := by
    rw [seekCycles_verified m.state m.tracksPassed hv, Nat.cast_add]
  calc (m.withVerify true).finish
      = ((m.state.withVerify true).setTrack m.target).setCycles
          (seekCycles (m.state.withVerify true) m.tracksPassed : Int) := rfl
    _ = m.finish.verifiedFor m.state.cfg.verifyTime := by rw [hwait]; rfl

/-! ### The entry and the end of Seeking -/

/-- In the confusion sub-phase the flag adds nothing: its wait is `CONFUSION_TIME` alone (R187). -/
theorem enterSeeking_verified_confused {s t : State} (hc : seekConfused s = true) (h : enterSeeking s = .next t) :
    enterSeeking (s.withVerify true) = .next (t.verifiedFor 0) := by
  have hcv : seekConfused (s.withVerify true) = true := hc
  rw [enterSeeking_eq, if_pos hc] at h
  rw [enterSeeking_eq, if_pos hcv]
  cases h
  exact congrArg Host.Outcome.next (by rw [State.verifiedFor, Nat.cast_zero, add_zero]; rfl)

/-- On a move the flag adds `VERIFY_TIME` to the wait (R180). -/
theorem enterSeeking_verified_moving {s t : State} (hv : s.latch.verifyFlag = false) (hc : seekConfused s = false)
    (h : enterSeeking s = .next t) : enterSeeking (s.withVerify true) = .next (t.verifiedFor s.cfg.verifyTime) := by
  obtain ⟨hc', -⟩ | ⟨-, m, hm, hmoved, rfl⟩ := enterSeeking_cases s t h
  · rw [hc] at hc'
    cases hc'
  have hcv : seekConfused (s.withVerify true) = false := hc
  have hmove : latchedMove (s.withVerify true).atSeekEntry = some (m.withVerify true) := by
    have hentry : (s.withVerify true).atSeekEntry = s.atSeekEntry.withVerify true := rfl
    rw [hentry, latchedMove_withVerify, hm, Option.map_some]
  have hflag : m.state.latch.verifyFlag = false := by
    rw [hmoved.eq]
    exact hv
  have hcfg : m.state.cfg = s.cfg := by
    rw [hmoved.eq]
    rfl
  rw [enterSeeking_eq, hcv, hmove, ← hcfg, ← m.finish_verified hflag]
  rfl

/-- What the end of Seeking reports does not depend on the flag (R186). -/
theorem seekExpiry_withVerify (s : State) (v : Bool) : seekExpiry (s.withVerify v) = (seekExpiry s).withVerify v := by
  have hconf : (s.withVerify v).seq.confusion = s.seq.confusion := rfl
  unfold seekExpiry
  rw [hconf]
  cases s.seq.confusion <;> rfl

/-- Settles O26, from the entry of Seeking in its two forms and its end. -/
theorem verifyOnlyDelays : Obligations.VerifyOnlyDelays := by
  intro s t h
  refine ⟨?entry, seekExpiry_withVerify (s.withVerify false) true⟩
  case entry =>
    cases hc : seekConfused s with
    | false => exact enterSeeking_verified_moving (s := s.withVerify false) rfl hc h
    | true => exact enterSeeking_verified_confused (s := s.withVerify false) hc h

end Sys2Proof.Machine
end

section
/-! The encoding (spec/30_encoding.md R91 to R97, R100, R110): decode and encode are inverse to each other, and the high nibble
selects the command. -/

namespace Sys2Proof

/-! ### One finite check for each format of the field layout -/

theorem decode_encode_restore : ∀ r < 4, ∀ h v, decode (encode (.restore h v r)) = .restore h v r := by decide
theorem decode_encode_seek : ∀ r < 4, ∀ h v, decode (encode (.seek h v r)) = .seek h v r := by decide
theorem decode_encode_step : ∀ r < 4, ∀ u h v, decode (encode (.step u h v r)) = .step u h v r := by decide
theorem decode_encode_stepin : ∀ r < 4, ∀ u h v, decode (encode (.stepin u h v r)) = .stepin u h v r := by decide
theorem decode_encode_stepout : ∀ r < 4, ∀ u h v, decode (encode (.stepout u h v r)) = .stepout u h v r := by decide
theorem decode_encode_rdsec : ∀ x < 8, ∀ m e, decode (encode (.rdsec m e x)) = .rdsec m e x := by decide
theorem decode_encode_wrsec : ∀ x < 8, ∀ m e, decode (encode (.wrsec m e x)) = .wrsec m e x := by decide
theorem decode_encode_rdaddr : ∀ x < 16, decode (encode (.rdaddr x)) = .rdaddr x := by decide
theorem decode_encode_forceint : ∀ x < 4, ∀ i3 i2, decode (encode (.forceint i3 i2 x)) = .forceint i3 i2 x := by decide
theorem decode_encode_rdtrk : ∀ x < 16, decode (encode (.rdtrk x)) = .rdtrk x := by decide
theorem decode_encode_wrtrk : ∀ x < 16, decode (encode (.wrtrk x)) = .wrtrk x := by decide

/-- Decoding the byte of a well-formed command gives the command back, operands included (R110). -/
theorem decode_encode (i : Instr) (hi : i.wellFormed = true) : decode (encode i) = i := by
  cases i <;> simp only [Instr.wellFormed, decide_eq_true_eq] at hi
  case restore h v r => exact decode_encode_restore r hi h v
  case seek h v r => exact decode_encode_seek r hi h v
  case step u h v r => exact decode_encode_step r hi u h v
  case stepin u h v r => exact decode_encode_stepin r hi u h v
  case stepout u h v r => exact decode_encode_stepout r hi u h v
  case rdsec m e x => exact decode_encode_rdsec x hi m e
  case wrsec m e x => exact decode_encode_wrsec x hi m e
  case rdaddr x => exact decode_encode_rdaddr x hi
  case forceint i3 i2 x => exact decode_encode_forceint x hi i3 i2
  case rdtrk x => exact decode_encode_rdtrk x hi
  case wrtrk x => exact decode_encode_wrtrk x hi

/-- Every byte is a well-formed command (R100). -/
theorem decode_wellFormed (v : Byte) : (decode v).wellFormed = true := by
  revert v
  decide

/-- No bit of a command byte is dropped: encoding what it decodes to gives the byte back. -/
theorem encode_decode (v : Byte) : encode (decode v) = v := by
  revert v
  decide

/-- Settles O1, one direction for each format and the other for every byte. -/
theorem decodeEncodeAgree : Obligations.DecodeEncodeAgree :=
  ⟨decode_encode, fun v => ⟨decode_wellFormed v, encode_decode v⟩⟩

/-- The command a high nibble selects (R91). -/
def nibbleKind : Nat → CmdKind
  | 0x0 => .restore
  | 0x1 => .seek
  | 0x2 | 0x3 => .step
  | 0x4 | 0x5 => .stepIn
  | 0x6 | 0x7 => .stepOut
  | 0x8 | 0x9 => .readSector
  | 0xA | 0xB => .writeSector
  | 0xC => .readAddress
  | 0xD => .forceInterrupt
  | 0xE => .readTrack
  | _ => .writeTrack

theorem commandKind_decode (v : Byte) : commandKind (decode v) = nibbleKind (fieldAt v 7 4) := by
  revert v
  decide

/-- Settles O2: the kind is a function of the nibble, and the written-out bytes are computed. -/
theorem commandBytesDecode : Obligations.CommandBytesDecode := by
  refine ⟨fun v => ?nibble, by decide⟩
  case nibble =>
    have pair : ∀ {a b k}, nibbleKind a = k → nibbleKind b = k → fieldAt v 7 4 = a ∨ fieldAt v 7 4 = b →
        nibbleKind (fieldAt v 7 4) = k := by
      rintro a b k ha hb (h | h)
      · rw [h, ha]
      · rw [h, hb]
    rw [commandKind_decode]
    exact ⟨fun h => by rw [h]; rfl, fun h => by rw [h]; rfl, pair rfl rfl, pair rfl rfl, pair rfl rfl, pair rfl rfl,
      pair rfl rfl, fun h => by rw [h]; rfl, fun h => by rw [h]; rfl, fun h => by rw [h]; rfl, fun h => by rw [h]; rfl⟩

/-- The high nibble 0xD is Force Interrupt and no other command (R91). -/
theorem commandKind_decode_eq_forceInterrupt (v : Byte) :
    commandKind (decode v) = .forceInterrupt ↔ fieldAt v 7 4 = 0xD := by
  revert v
  decide

end Sys2Proof
end

section
/-! Single events (spec/20_memory.md R60 to R65, R74; spec/45_type4_force_interrupt.md R254; spec/70_reset_and_hazards.md R300,
R313): the queue, the register window, the index pulse, Reset and the environment. -/

namespace Sys2Proof.Machine

/-! ### One step is one event (R12, R74) -/

theorem step_of_nil {s : State} (h : s.io.inputs = []) : step s = .next s := by
  simp only [step, takeEvent, h]

theorem step_of_cons {s : State} {e : Event} {rest : List Event} (h : s.io.inputs = e :: rest) :
    step s = runEvent e s.eventState := by
  simp only [step, takeEvent, State.eventState, h, List.tail_cons]

/-- The table's 8-bit word is decoded as the byte it is (R90). -/
theorem decodeTableWord_eight {w : Nat} {i : Instr} (h : decodeTableWord 8 w = some i) :
    decode (BitVec.ofNat 8 (w % 2 ^ 8)) = i := by
  simpa [decodeTableWord, tableBytes, decodeBytes] using h

/-- Settles O3: the queue hands its first event to `runEvent`, whose arms are the meanings named. -/
theorem stepRunsEvent : Obligations.StepRunsEvent := by
  refine ⟨fun s v rest h => step_of_cons h, fun s w i hi => ?fetch, fun s h => step_of_nil h,
    fun s v rest h => step_of_cons h, fun s v rest h => step_of_cons h, fun s v rest h => step_of_cons h,
    fun s reg rest h => step_of_cons h, fun s n rest h => step_of_cons h, fun s rest h => step_of_cons h,
    fun s c rest h => step_of_cons h, fun s rest h => step_of_cons h⟩
  case fetch =>
    rw [step_of_cons (s := s.withFetchWord 8 w) rfl, ← decodeTableWord_eight hi]
    rfl

/-! ### Writes while busy (R142, R310) -/

/-- Settles O12: every command but Force Interrupt goes through `whenIdle`. -/
theorem busyWritesFault : Obligations.BusyWritesFault := by
  refine ⟨fun i s hi h => ?command, fun v s h => if_neg h, fun v s h => if_neg h⟩
  case command =>
    cases i
    case forceint => exact absurd rfl hi
    all_goals exact if_neg h

/-! ### The data request (R152, R153) -/

theorem State.setDrq_eq (s : State) : s.setDrq = { s with regs.drq := true, regs.status := s.regs.status ||| 0x02 } := by
  rw [← putBit_request_set]
  rfl

theorem State.clearDrq_of_drq {s : State} (h : s.regs.drq = true) :
    s.clearDrq = { s with regs.drq := false, regs.status := s.regs.status &&& 0xFD } := by
  rw [← putBit_request_clear, State.clearDrq, if_pos h]
  rfl

theorem State.clearDrq_of_no_drq {s : State} (h : s.regs.drq = false) : s.clearDrq = s := by
  rw [State.clearDrq, h]
  rfl

/-- Settles O19. -/
theorem requestRules : Obligations.RequestRules :=
  fun s => ⟨s.setDrq_eq, State.clearDrq_of_drq, State.clearDrq_of_no_drq⟩

/-! ### The register window (R61, R63, R64, R65) -/

theorem putBit_request_toggle (v : Byte) : putBit v requestBit (!v.getLsbD requestBit) = v ^^^ 0x02 := by
  revert v
  decide

/-- Settles O35, by the class: the toggle flips bit 1 during Type I and does nothing else. -/
theorem statusReadRule : Obligations.StatusReadRule := by
  refine fun s => ⟨fun hc => ?typeI, fun hc => ?other⟩
  case typeI =>
    simp only [hostRead, readStatus, State.toggleIndexBit, if_pos hc]
    rw [← putBit_request_toggle]
    rfl
  case other =>
    simp only [hostRead, readStatus, State.toggleIndexBit, if_neg hc]
    rfl

/-- Settles O36; during Seeking TRACK holds the target since the entry (R180). -/
theorem trackRegisterRule : Obligations.TrackRegisterRule := by
  refine ⟨fun s => rfl, fun v s h => if_pos h, fun v s h => if_neg h, fun i l target passed position dir s t h => ?target⟩
  case target =>
    calc (hostRead .track t).io.readData = some t.regs.track := rfl
      _ = some target := by rw [h.regs]

theorem sectorBias_of_none {s : State} (h : (s.disk s.board.selDrive).sectorBias = false) : sectorBias s = 0 := by
  simp [sectorBias, h]

theorem sectorBias_of_one {s : State} (h : (s.disk s.board.selDrive).sectorBias = true) : sectorBias s = 1 := by
  simp [sectorBias, h]

theorem readSector_eq (s : State) : hostRead .sector s = s.answer (s.regs.sector + sectorBias s) := rfl

theorem writeSectorRegister_idle {s : State} (h : s.seq.phase = .idle) (v : Byte) :
    writeSectorRegister v s = .next (s.setSector (v - sectorBias s)) := if_pos h

/-- Settles O37: the bias is 0 or 1, and what is subtracted on a write is added on the read. -/
theorem sectorRegisterRule : Obligations.SectorRegisterRule := by
  refine ⟨fun s hb => ?read0, fun s hb => ?read1, fun v s h hb => ?write0, fun v s h hb => ?write1, fun v s t h => ?back⟩
  case read0 =>
    rw [readSector_eq, sectorBias_of_none hb, add_zero]
    rfl
  case read1 =>
    rw [readSector_eq, sectorBias_of_one hb]
    rfl
  case write0 =>
    rw [writeSectorRegister_idle h, sectorBias_of_none hb, sub_zero]
    rfl
  case write1 =>
    rw [writeSectorRegister_idle h, sectorBias_of_one hb]
    rfl
  case back =>
    by_cases hp : s.seq.phase = .idle
    · rw [writeSectorRegister_idle hp] at h
      cases h
      have hbias : sectorBias (s.setSector (v - sectorBias s)) = sectorBias s := rfl
      rw [readSector_eq, State.answer_readData, hbias, State.setSector_sector, BitVec.sub_add_cancel]
    · rw [writeSectorRegister, if_neg hp] at h
      cases h

/-- Settles O38, by whether a request is pending. -/
theorem dataRegisterRule : Obligations.DataRegisterRule := by
  refine fun s v => ⟨fun hd => ⟨?readPending, ?writePending⟩, fun hd => ⟨?readQuiet, ?writeQuiet⟩⟩
  case readPending =>
    simp only [hostRead, readData, State.clearDrq_of_drq hd]
    rfl
  case writePending => exact State.clearDrq_of_drq (s := s.setData v) hd
  case readQuiet =>
    simp only [hostRead, readData, State.clearDrq_of_no_drq hd]
    rfl
  case writeQuiet => exact State.clearDrq_of_no_drq (s := s.setData v) hd

/-- The address of a register decodes to it. -/
theorem registerAt_busAddress (c : Config) (reg : HostRegister) : registerAt c (busAddress c reg) = some reg := by
  rw [registerAt, busAddress, if_neg (by omega), Nat.add_sub_cancel_left]
  cases reg <;> rfl

/-- Settles O39: below BASE there is no register, and above it the four offsets have one each. -/
theorem windowAddresses : Obligations.WindowAddresses := by
  refine fun c address reg => ⟨fun h => ?decoded, fun h => by rw [h, registerAt_busAddress]⟩
  case decoded =>
    unfold registerAt at h
    split at h
    · cases h
    · next hlow =>
      have haddress : address = c.base + (address - c.base) := by omega
      rw [haddress]
      split at h <;> cases h
      all_goals
        next hoffset => rw [hoffset, busAddress, registerOffset]

/-! ### The index pulse (R254) -/

/-- Settles O40. -/
theorem indexPulseRule : Obligations.IndexPulseRule := by
  refine fun s => ⟨fun hm hc => ?fires, fun hm hc => ?nothing, fun hm => ?stopped⟩
  case fires =>
    rw [indexPulse, if_pos hm, if_pos hc]
    rfl
  case nothing => rw [indexPulse, if_pos hm, if_neg hc]
  case stopped => rw [indexPulse, hm, if_neg (by decide)]

/-! ### Reset (R50, R300) -/

theorem resetEvent_drive (s : State) (d : DriveNo) : (resetEvent s).drive d = (s.drive d).afterReset := by
  cases d <;> rfl

/-- Settles O41: the Reset event and the power-on state write the same table. -/
theorem resetRule : Obligations.ResetRule := by
  refine ⟨fun s => ?event, rfl, rfl, rfl, rfl, rfl, rfl, rfl, rfl, rfl, rfl, rfl, rfl, fun d => ?powerOn⟩
  case event =>
    exact ⟨rfl, rfl, rfl, rfl, rfl, rfl, rfl, rfl, rfl, rfl, rfl, rfl, resetEvent_drive s, rfl, rfl, rfl, fun _ _ _ => rfl⟩
  case powerOn => cases d <;> exact ⟨rfl, rfl⟩

/-! ### The environment (R313, R283) -/

/-- Everything but the drives, the board's inputs and the images is unchanged. -/
structure ControllerUnchanged (s t : State) : Prop where
  cfg : t.cfg = s.cfg
  regs : t.regs = s.regs
  seq : t.seq = s.seq
  latch : t.latch = s.latch
  direction : t.stepDirection = s.stepDirection
  rotating : t.rotatingSectorCounter = s.rotatingSectorCounter
  xfer : t.xfer = s.xfer
  wt : t.wt = s.wt
  io : t.io = s.io

/-- A change of the media geometry that is possible ends in an update of that drive's record, which keeps the head or puts
it where the event says (R42). -/
theorem changeTracksPerDisk_cases {d : DriveNo} {tracks : TracksPerDisk} {position : Nat} {s t : State}
    (h : changeTracksPerDisk d tracks position s = .next t) :
    ∃ p, p ≤ trackCount tracks - 1 ∧ (p = (s.drive d).trackPosition ∨ p = position) ∧
      t = s.updateDrive d fun _ => { s.drive d with tracksPerDisk := tracks, trackPosition := p } := by
  simp only [changeTracksPerDisk] at h
  split at h
  · next hin =>
    cases h
    exact ⟨_, hin, .inl rfl, rfl⟩
  · split at h
    · next hin =>
      cases h
      exact ⟨position, hin, .inr rfl, rfl⟩
    · cases h

theorem environmentChange_controller {c : EnvChange} {s t : State} (h : environmentChange c s = .next t) :
    ControllerUnchanged s t := by
  cases c
  case setTracksPerDisk d tracks position =>
    obtain ⟨p, -, -, rfl⟩ := changeTracksPerDisk_cases h
    exact ⟨rfl, rfl, rfl, rfl, rfl, rfl, rfl, rfl, rfl⟩
  all_goals
    cases h
    exact ⟨rfl, rfl, rfl, rfl, rfl, rfl, rfl, rfl, rfl⟩

/-- An update of an image that keeps both of its byte lists changes no byte. -/
theorem State.imageByte_updateDisk (s : State) (d : DriveNo) (f : DiskImage → DiskImage)
    (hf : ∀ i h, ((f i).side h).bytes = (i.side h).bytes) : imagesUnchanged s (s.updateDisk d f) := by
  intro d' h offset
  simp only [State.imageByte, State.disk, State.updateDisk_disks, PerDrive.get_set]
  split
  · next hd => rw [hf, hd]
  · rfl

/-- An update of drive `d`'s image changes no byte of the other drive's. -/
theorem State.imageByte_updateDisk_ne (s : State) {d d' : DriveNo} (f : DiskImage → DiskImage) (h : Head) (offset : Nat)
    (hd : d ≠ d') : (s.updateDisk d f).imageByte d' h offset = s.imageByte d' h offset := by
  simp [State.imageByte, State.disk, hd]

/-- Only a change of media or of contents changes an image byte, and only of its own drive (R283). -/
theorem environmentChange_imageByte {c : EnvChange} {s t : State} (h : environmentChange c s = .next t) {d : DriveNo}
    {k : Head} {offset : Nat} (hne : t.imageByte d k offset ≠ s.imageByte d k offset) :
    (∃ image, c = .insertMedia d image) ∨ c = .ejectMedia d := by
  cases c
  case insertMedia d' image =>
    cases h
    by_cases hd : d' = d
    · exact .inl ⟨image, by rw [hd]⟩
    · exact absurd (s.imageByte_updateDisk_ne _ k offset hd) hne
  case ejectMedia d' =>
    cases h
    by_cases hd : d' = d
    · exact .inr (by rw [hd])
    · exact absurd (s.imageByte_updateDisk_ne _ k offset hd) hne
  case setTracksPerDisk d' tracks position =>
    obtain ⟨p, -, -, rfl⟩ := changeTracksPerDisk_cases h
    exact absurd rfl hne
  case setImageOpen | setImageWriteProtect | setMediaDensity | setSectorBias =>
    cases h
    exact absurd (s.imageByte_updateDisk _ _ (fun i k => by cases k <;> rfl) d k offset) hne
  all_goals
    cases h
    exact absurd rfl hne

/-- Settles O42. -/
theorem environmentFrame : Obligations.EnvironmentFrame := by
  intro c s t h
  obtain ⟨hcfg, hregs, hseq, hlatch, hdir, hrot, hxfer, hwt, hio⟩ := environmentChange_controller h
  exact ⟨hregs, hseq, hlatch, hdir, hrot, hxfer, hwt, hcfg, hio, fun d k offset => environmentChange_imageByte h⟩

end Sys2Proof.Machine
end

section
/-! The command write (spec/41_sequencer.md R140 to R143; spec/42_type1_commands.md R180 to R187; spec/44_type3_commands.md
R230; spec/45_type4_force_interrupt.md R250): what each command has done when its write is over. -/

namespace Sys2Proof.Machine

/-! ### What a beginning command leaves alone -/

/-- Accepting a command writes registers, latched fields, direction and sequencer position alone. -/
theorem State.begun_rest (s : State) (i : Instr) : RestUnchanged s (s.begun i) :=
  ⟨rfl, rfl, rfl, rfl, rfl, rfl, fun _ _ _ => rfl, rfl, rfl, rfl⟩

theorem State.begun_seq (s : State) (i : Instr) :
    (s.begun i).seq = { s.seq with activeCommandClass := startedClass i, confusion := false } := rfl

theorem State.driveOperation_rest (s : State) (f : DriveUnit → DriveUnit × List Signal) :
    RestUnchanged s (s.driveOperation f) := ⟨rfl, rfl, rfl, rfl, rfl, rfl, fun _ _ _ => rfl, rfl, rfl, rfl⟩

theorem State.enterPhase_rest (s : State) (p : Phase) (n : Int) : RestUnchanged s (s.enterPhase p n) :=
  ⟨rfl, rfl, rfl, rfl, rfl, rfl, fun _ _ _ => rfl, rfl, rfl, rfl⟩

/-- A command that starts a phase latches no step direction unless it is Step-In or Step-Out (R97). -/
theorem directionAfter_transfer {i : Instr} (h : isTransferClass (startedClass i) = true) (dir : StepDirection) :
    directionAfter i dir = dir := by
  cases i <;> first | rfl | cases h

theorem startedClass_ne_none_of_transfer {i : Instr} (h : isTransferClass (startedClass i) = true) :
    startedClass i ≠ .none := by
  intro hnone
  rw [hnone] at h
  cases h

/-! ### What a command write does, by the way it goes on (R140) -/

/-- Into SpinUp. -/
theorem exec_spinUp {i : Instr} {s : State} (hc : startedClass i ≠ .none) (hp : s.seq.phase = .idle)
    (hskip : skipsSpinUp s i = false) :
    exec i s = .next ((s.begun i).enterPhase .spinUp (s.cfg.spinUpTime : Int)) := by
  rw [exec_starts i s hc hp, hskip]
  rfl

/-- Into the phase of its class. -/
theorem exec_begins {i : Instr} {s : State} (hc : startedClass i ≠ .none) (hp : s.seq.phase = .idle)
    (hskip : skipsSpinUp s i = true) : exec i s = beginCommandPhase (s.begun i) := by
  rw [exec_starts i s hc hp, if_pos hskip]

/-- Into Seeking. -/
theorem exec_seeks {i : Instr} {s : State} (hc : startedClass i = .typeI) (hp : s.seq.phase = .idle)
    (hskip : skipsSpinUp s i = true) :
    exec i s = enterSeeking ((s.begun i).driveOperation DriveUnit.loadHead) := by
  rw [exec_begins (by simp [hc]) hp hskip, beginCommandPhase_typeI _ hc]

/-- Settles O4: without the motor and without h the command is begun and SpinUp entered, nothing else. -/
theorem commandsSpinUp : Obligations.CommandsSpinUp := by
  intro i s hc hp hskip
  refine ⟨_, exec_spinUp hc hp hskip, rfl, s.begun_regs i, rfl, rfl, rfl, rfl, ?rest⟩
  case rest => exact (s.begun_rest i).trans (State.enterPhase_rest _ _ _)

/-- Settles O9: with the motor on the head is loaded and the phase of the class entered. -/
theorem transfersStart : Obligations.TransfersStart := by
  intro i s hc hp hm
  have hskip : skipsSpinUp s i = true := by simp [skipsSpinUp, hm]
  have hbegins := exec_begins (startedClass_ne_none_of_transfer hc) hp hskip
  refine ⟨_, hbegins.trans (beginCommandPhase_transfer _ hc), s.begun_regs i, rfl, rfl, directionAfter_transfer hc _,
    drives_loaded (s.begun i), ?rest⟩
  case rest =>
    exact (s.begun_rest i).trans ((State.driveOperation_rest _ _).trans (State.enterPhase_rest _ _ _))

/-! ### The moves -/

/-- STATUS on entry to Seeking inside a command write (R180). -/
theorem spinUp_after_begun : putBit (0x81 : Byte) spinUpBit true = 0xA1 := by decide

theorem startedClass_typeI {i : Instr} (h : startedClass i = .typeI) :
    isTypeIKind (commandKind i) = true ∧ (latchedFields i).cmdKind = commandKind i := by
  cases i <;> first | exact ⟨rfl, rfl⟩ | cases h

/-- The target of a command's move, computed when the command has begun: its own direction is already set (R97). -/
theorem moveTarget_begun (s : State) (i : Instr) : moveTarget (s.begun i) (commandKind i) = moveTarget s (commandKind i) := by
  cases i <;> rfl

theorem movePassed_begun (s : State) (i : Instr) : movePassed (s.begun i) (commandKind i) = movePassed s (commandKind i) := by
  cases i <;> rfl

theorem movePosition_begun (s : State) (i : Instr) :
    movePosition (s.begun i) (commandKind i) = movePosition s (commandKind i) := by
  cases i <;> rfl

/-- A Type I command that skips SpinUp, without a density mismatch: its whole move is made inside the write (R140, R180). -/
theorem exec_enters_seeking {i : Instr} {s : State} (hc : startedClass i = .typeI) (hp : s.seq.phase = .idle)
    (hskip : skipsSpinUp s i = true) (hconf : seekConfused s = false) :
    ∃ t, exec i s = .next t ∧
      EnteredSeeking i (latchedFields i) (moveTarget s (commandKind i)) (movePassed s (commandKind i))
        (movePosition s (commandKind i)) (directionAfter i s.stepDirection) s t := by
  obtain ⟨hkind, hlatched⟩ := startedClass_typeI hc
  have hk : (s.begun i).latch.cmdKind = commandKind i := hlatched
  obtain ⟨t, ht, hregs, hseq, hlatch, hdir, hdrives, hrest⟩ :=
    enterSeeking_closed (s.begun i) (by rw [hk, hkind]) hconf
  rw [hk, moveTarget_begun, s.begun_regs] at hregs
  rw [hk, movePassed_begun, s.begun_seq, hc] at hseq
  rw [hk, movePosition_begun] at hdrives
  simp only [spinUp_after_begun] at hregs
  exact ⟨t, (exec_seeks hc hp hskip).trans ht, hregs, hseq, hlatch, hdir, hdrives, (s.begun_rest i).trans hrest⟩

/-- Settles O5. -/
theorem restoreMoves : Obligations.RestoreMoves :=
  fun _ _ _ _ hp hskip hconf => exec_enters_seeking rfl hp hskip hconf

theorem absDiff_of_le {a b : Nat} (h : b ≤ a) : absDiff a b = a - b := by
  unfold absDiff
  omega

theorem absDiff_of_ge {a b : Nat} (h : a ≤ b) : absDiff a b = b - a := by
  unfold absDiff
  omega

/-- Where SEEK leaves the head, by the direction of the move (R182). -/
theorem movePosition_seek (s : State) :
    movePosition s .seek =
      if s.regs.track.toNat < s.regs.data.toNat then
        positionInward s.selected (s.regs.data.toNat - s.regs.track.toNat)
      else if s.regs.data.toNat < s.regs.track.toNat then
        positionOutward s.selected (s.regs.track.toNat - s.regs.data.toNat)
      else s.selected.trackPosition := by
  simp only [movePosition, movePassed]
  split
  · next hin => rw [absDiff_of_le hin.le]
  · split
    · next hout => rw [absDiff_of_ge hout.le]
    · rfl

/-- Settles O6. -/
theorem seekMoves : Obligations.SeekMoves := by
  intro h v r s hp hskip hconf
  rw [← movePosition_seek]
  exact exec_enters_seeking (i := .seek h v r) rfl hp hskip hconf

/-- Settles O7: STEP moves in the direction that stands, the other two in their own. -/
theorem stepsMove : Obligations.StepsMove := by
  refine ⟨fun u h v r s hp hskip hconf => ?step, fun u h v r s hp hskip hconf => ?stepIn,
    fun u h v r s hp hskip hconf => ?stepOut⟩
  case step =>
    obtain ⟨t, ht, hmoved⟩ := exec_enters_seeking (i := .step u h v r) rfl hp hskip hconf
    have hdir : directionAfter (.step u h v r) s.stepDirection = s.stepDirection := rfl
    simp only [commandKind, moveTarget, movePassed, movePosition, hdir] at hmoved
    refine ⟨t, ht, fun hin => ?_, fun hout => ?_⟩
    · rwa [hin] at hmoved
    · rwa [hout] at hmoved
  case stepIn => exact exec_enters_seeking (i := .stepin u h v r) rfl hp hskip hconf
  case stepOut => exact exec_enters_seeking (i := .stepout u h v r) rfl hp hskip hconf

/-- Settles O8: with a density mismatch the entry of Seeking moves nothing. -/
theorem confusedCommands : Obligations.ConfusedCommands := by
  intro i s hc hp hskip hconf
  refine ⟨_, (exec_seeks hc hp hskip).trans (enterSeeking_confused _ hconf), ?regs, ?seq, rfl, rfl,
    drives_loaded (s.begun i), ?rest⟩
  case regs =>
    have hregs : ((s.begun i).moving.setConfusion true).regs
        = { (s.begun i).regs with status := putBit (s.begun i).regs.status spinUpBit true } := rfl
    simp only [s.begun_regs, spinUp_after_begun] at hregs
    exact hregs
  case seq =>
    rw [← hc]
    rfl
  case rest => exact (s.begun_rest i).trans ⟨rfl, rfl, rfl, rfl, rfl, rfl, fun _ _ _ => rfl, rfl, rfl, rfl⟩

/-! ### Read Track and Force Interrupt -/

theorem acceptCommand_regs (i : Instr) (l : LatchedFields) (s : State) :
    (acceptCommand i l s).regs
      = { s.regs with cmd := encode i, status := s.regs.status &&& 0x81, intrq := false, drq := false } := rfl

theorem acceptCommand_rest (i : Instr) (l : LatchedFields) (s : State) : RestUnchanged s (acceptCommand i l s) :=
  ⟨rfl, rfl, rfl, rfl, rfl, rfl, fun _ _ _ => rfl, rfl, rfl, rfl⟩

theorem State.abort_rest (s : State) (bit : Nat) : RestUnchanged s (s.abort bit) :=
  RestUnchanged.trans (t := s.setError bit) ⟨rfl, rfl, rfl, rfl, rfl, rfl, fun _ _ _ => rfl, rfl, rfl, rfl⟩
    (State.complete_rest _ true)

theorem State.abort_regs (s : State) (bit : Nat) :
    (s.abort bit).regs =
      { s.regs with status := putBit (putBit s.regs.status bit true) busyBit false, intrq := true } := by
  rw [State.abort, State.complete_regs_eq, Bool.or_true]
  rfl

theorem execRdtrk_idle {s : State} (hp : s.seq.phase = .idle) (x : Nat) :
    exec (.rdtrk x) s = .next ((acceptCommand (.rdtrk x) (latchTypeIII .readTrack) s).abort errorBit) := if_pos hp

theorem readTrack_status (v : Byte) :
    putBit (putBit (v &&& 0x81) errorBit true) busyBit false = (v &&& 0x80) ||| 0x10 := by
  revert v
  decide

/-- Settles O10: Read Track takes the error at once. -/
theorem readTrackCompletes : Obligations.ReadTrackCompletes := by
  intro x s hp
  refine ⟨_, execRdtrk_idle hp x, ?regs, ?seq, by simp [State.abort]; rfl, by simp [State.abort]; rfl, ?drives,
    by simp [State.abort]; rfl, (acceptCommand_rest _ _ s).trans (State.abort_rest _ _)⟩
  case regs =>
    rw [State.abort_regs, acceptCommand_regs]
    simp only [readTrack_status]
  case seq =>
    rw [State.abort, State.complete_seq_eq]
    rfl
  case drives =>
    simp only [State.abort, State.complete_drives]
    rfl

/-- The state a Force Interrupt completes: CMD written, INTRQ and the confusion flag cleared (R250, R33). -/
def State.interrupted (s : State) (i : Instr) : State := ((s.setCommand (encode i)).setIntrq false).setConfusion false

theorem execForceint_eq (i3 i2 : Bool) (x : Nat) (s : State) :
    exec (.forceint i3 i2 x) s = .next (((s.interrupted (.forceint i3 i2 x)).complete i3).setClass
      (if i2 then .forceInterrupt else .none)) := by
  cases i2 <;> cases i3 <;> rfl

/-- Settles O11: Force Interrupt is completion with i3, and i2 leaves the class that marks a deferred interrupt. -/
theorem forceInterruptEnds : Obligations.ForceInterruptEnds := by
  intro i3 i2 x s
  refine ⟨_, execForceint_eq i3 i2 x s, ?regs, ?seq, by simp; rfl, by simp; rfl, by simp; rfl, by simp; rfl, ?rest⟩
  case regs =>
    rw [State.setClass_regs, State.complete_regs_eq, putBit_busy_clear]
    cases i3 <;> rfl
  case seq => cases i3 <;> rfl
  case rest =>
    have hstart : RestUnchanged s (s.interrupted (.forceint i3 i2 x)) :=
      ⟨rfl, rfl, rfl, rfl, rfl, rfl, fun _ _ _ => rfl, rfl, rfl, rfl⟩
    exact hstart.trans ((State.complete_rest _ i3).trans ⟨rfl, rfl, rfl, rfl, rfl, rfl, fun _ _ _ => rfl, rfl, rfl, rfl⟩)

/-! ### Acceptance, and what an earlier command left behind (R6, R141, R276) -/

/-- The commands that start no phase are Read Track and Force Interrupt. -/
theorem startedClass_none {i : Instr} (h : startedClass i = .none) :
    (∃ x, i = .rdtrk x) ∨ ∃ i3 i2 x, i = .forceint i3 i2 x := by
  cases i
  case rdtrk x => exact .inl ⟨x, rfl⟩
  case forceint i3 i2 x => exact .inr ⟨i3, i2, x, rfl⟩
  all_goals cases h

theorem startedClass_active {i : Instr} (h : startedClass i ≠ .none) :
    startedClass i = .typeI ∨ isTransferClass (startedClass i) = true := by
  cases i <;> first | exact .inl rfl | exact .inr rfl | exact absurd rfl h

theorem exec_completes (i : Instr) {s : State} (hp : s.seq.phase = .idle) : ∃ t, exec i s = .next t := by
  by_cases hc : startedClass i = .none
  · obtain ⟨x, rfl⟩ | ⟨i3, i2, x, rfl⟩ := startedClass_none hc
    · exact ⟨_, execRdtrk_idle hp x⟩
    · exact ⟨_, execForceint_eq i3 i2 x s⟩
  · rw [exec_starts i s hc hp]
    split
    · obtain hI | htransfer := startedClass_active hc
      · obtain ⟨hkind, hlatched⟩ := startedClass_typeI hI
        rw [beginCommandPhase_typeI _ hI]
        exact enterSeeking_completes _ (by simpa [hlatched] using hkind)
      · exact ⟨_, beginCommandPhase_transfer _ htransfer⟩
    · exact ⟨_, rfl⟩

/-- A state as an earlier command may have left it: other result bits `w`, other lines, flag and class. -/
def State.withLeftovers (s : State) (w : Byte) (intrq drq confusion : Bool) (c : CommandClass) : State :=
  { s with regs.status := (s.regs.status &&& 0x81) ||| (w &&& 0x7E), regs.intrq := intrq, regs.drq := drq,
           seq.confusion := confusion, seq.activeCommandClass := c }

theorem leftovers_keepBusyMotor (v w : Byte) : ((v &&& 0x81) ||| (w &&& 0x7E)) &&& 0x81 = v &&& 0x81 := by
  simp [BitVec.and_or_distrib_right, BitVec.and_assoc]

theorem statusBit_motor_of_masked (s : State) : s.statusBit motorBit = (s.regs.status &&& 0x81).getLsbD motorBit := by
  rw [keepBusyMotor_getLsbD]
  rfl

/-- The command write clears or overwrites all of it (R141). -/
theorem begun_withLeftovers (s : State) (i : Instr) (w : Byte) (a b c : Bool) (k : CommandClass) :
    (s.withLeftovers w a b c k).begun i = s.begun i := by
  have hstatus : (s.withLeftovers w a b c k).regs.status &&& 0x81 = s.regs.status &&& 0x81 := leftovers_keepBusyMotor _ _
  simp only [State.begun, acceptCommand, State.statusInit, State.setStatusBit, State.setClass, State.setDirection,
    State.setConfusion, State.setIntrq, State.setLatch, State.setCommand, hstatus]
  rfl

theorem skipsSpinUp_withLeftovers (s : State) (i : Instr) (w : Byte) (a b c : Bool) (k : CommandClass) :
    skipsSpinUp (s.withLeftovers w a b c k) i = skipsSpinUp s i := by
  have hstatus : (s.withLeftovers w a b c k).regs.status &&& 0x81 = s.regs.status &&& 0x81 := leftovers_keepBusyMotor _ _
  rw [skipsSpinUp, skipsSpinUp, statusBit_motor_of_masked, statusBit_motor_of_masked s, hstatus]

/-- Read Track clears or overwrites all of it too: the class falls when it completes. -/
theorem readTrackNoOp_withLeftovers (s : State) (x : Nat) (w : Byte) (a b c : Bool) (k : CommandClass) :
    readTrackNoOp (acceptCommand (.rdtrk x) (latchTypeIII .readTrack) (s.withLeftovers w a b c k))
      = readTrackNoOp (acceptCommand (.rdtrk x) (latchTypeIII .readTrack) s) := by
  have hstatus : (s.withLeftovers w a b c k).regs.status &&& 0x81 = s.regs.status &&& 0x81 := leftovers_keepBusyMotor _ _
  simp only [acceptCommand, State.statusInit, State.setConfusion, State.setIntrq, State.setLatch, State.setCommand, hstatus]
  rfl

theorem exec_withLeftovers {i : Instr} {s : State} (hi : commandKind i ≠ .forceInterrupt) (hp : s.seq.phase = .idle)
    (w : Byte) (a b c : Bool) (k : CommandClass) : exec i (s.withLeftovers w a b c k) = exec i s := by
  by_cases hc : startedClass i = .none
  · obtain ⟨x, rfl⟩ | ⟨i3, i2, x, rfl⟩ := startedClass_none hc
    · rw [execRdtrk_idle hp, execRdtrk_idle (s := s.withLeftovers w a b c k) hp]
      exact congrArg _ (readTrackNoOp_withLeftovers s x w a b c k)
    · exact absurd rfl hi
  · rw [exec_starts i s hc hp, exec_starts i (s.withLeftovers w a b c k) hc hp, begun_withLeftovers,
      skipsSpinUp_withLeftovers]
    rfl

/-- Settles O13. -/
theorem commandsRearm : Obligations.CommandsRearm :=
  ⟨fun i _ hp => exec_completes i hp, fun _ _ w a b c k hi hp => exec_withLeftovers hi hp w a b c k⟩

end Sys2Proof.Machine
end

section
/-! Time (spec/41_sequencer.md R145 to R148, R151; spec/42_type1_commands.md R186): an Idle poll, a poll inside a wait, unit
polls, and the ends of SpinUp, Settling and Seeking. -/

namespace Sys2Proof.Machine

/-! ### The Idle poll (R151) -/

theorem poll_of_idle {n : Nat} {s : State} (hn : 1 ≤ n) (hp : s.seq.phase = .idle) : poll n s = .next (spinDownTick n s) := by
  rw [poll, if_neg (by omega), if_pos hp]

@[simp] theorem State.selected_updateDrive (s : State) (f : DriveUnit → DriveUnit) :
    (s.updateDrive s.board.selDrive f).selected = f s.selected := by
  simp [State.selected, State.drive]

theorem spinDownTick_stopped {s : State} (n : Nat) (h : s.selected.motorSpinDownRemaining = 0) : spinDownTick n s = s := by
  rw [spinDownTick, if_neg (by omega)]

theorem spinDownTick_counts {s : State} {n : Nat} (h : n < s.selected.motorSpinDownRemaining) :
    spinDownTick n s = s.updateDrive s.board.selDrive fun D => D.spinDown n := by
  simp only [spinDownTick, State.selected_updateDrive, DriveUnit.spinDown]
  rw [if_pos (by omega), if_neg (by omega)]

theorem spinDownTick_stops {s : State} {n : Nat} (hpos : 0 < s.selected.motorSpinDownRemaining)
    (h : s.selected.motorSpinDownRemaining ≤ n) :
    spinDownTick n s = ((s.updateDrive s.board.selDrive fun D => D.spinDown n).setStatusBit motorBit false).updateDrive
      s.board.selDrive DriveUnit.unloadHead := by
  simp only [spinDownTick, State.selected_updateDrive, DriveUnit.spinDown, State.updateDrive_board]
  rw [if_pos hpos, if_pos (by omega)]

/-- Settles O20, by the three cases of the countdown. -/
theorem spinDownRule : Obligations.SpinDownRule := by
  refine fun n s hn hp => ⟨fun h => ?stopped, fun h => ?counts, fun hpos h => ?stops⟩
  case stopped => rw [poll_of_idle hn hp, spinDownTick_stopped n h]
  case counts =>
    rw [poll_of_idle hn hp, spinDownTick_counts h]
    rfl
  case stops =>
    have hzero : s.selected.motorSpinDownRemaining - n = 0 := by omega
    have hunit : ((s.drives.get s.board.selDrive).spinDown n).unloadHead
        = { s.selected with motorSpinDownRemaining := 0, headLoaded := false } := by
      rw [← hzero]
      rfl
    rw [poll_of_idle hn hp, spinDownTick_stops hpos h, ← hunit, ← putBit_motor_clear]
    simp [State.updateDrive, State.setStatusBit]

/-! ### Inside a wait (R145, R148) -/

/-- Settles O21. -/
theorem waitsCount : Obligations.WaitsCount := by
  refine ⟨fun n s hn hp hc => poll_counts n s hn hp hc, fun n s hp h => ?settling⟩
  case settling =>
    rw [poll_expires n s h (by simp [hp]), phaseExpiry, State.setCycles_phase, hp]
    rfl

/-! ### Scripts -/

/-- The state between two events of a script: nothing pending, the previous event's answer and feedback gone. -/
def State.quiet (s : State) : State := { s with io := { s.io with inputs := [], readData := none, signals := [] } }

@[simp] theorem State.quiet_quiet (s : State) : s.quiet.quiet = s.quiet := rfl

theorem step_withInputs (s : State) (e : Event) : step (s.withInputs [e]) = runEvent e s.quiet := rfl

theorem runScript_cons {e : Event} {s t : State} (h : runEvent e s.quiet = .next t) (es : List Event) :
    runScript (e :: es) s = (runScript es t).map fun r => (r.1, t.io.readData.toList ++ r.2) := by
  rw [runScript, step_withInputs, h]

/-- An event that answers nothing adds nothing to what the script returns. -/
theorem runScript_cons_silent {e : Event} {s t : State} (h : runEvent e s.quiet = .next t) (hr : t.io.readData = none)
    (es : List Event) : runScript (e :: es) s = runScript es t := by
  rw [runScript_cons h, hr]
  exact Option.map_id'

/-- A host read adds the byte it answers. -/
theorem runScript_cons_answer {e : Event} {s t u : State} {b : Byte} {bs : List Byte} {es : List Event}
    (h : runEvent e s.quiet = .next t) (hr : t.io.readData = some b) (hes : runScript es t = some (u, bs)) :
    runScript (e :: es) s = some (u, b :: bs) := by
  rw [runScript_cons h, hr, hes]
  rfl

theorem runScript_single {e : Event} {s t : State} (h : runEvent e s.quiet = .next t) :
    runScript [e] s = some (t, t.io.readData.toList) := by
  rw [runScript_cons h]
  simp [runScript]

/-- The first event of a script is run in the quiet state, so a script that is not empty may start there. -/
theorem runScript_quiet (e : Event) (es : List Event) (s : State) : runScript (e :: es) s.quiet = runScript (e :: es) s := rfl

theorem runScript_append {es fs : List Event} {s t : State} {bs : List Byte} (h : runScript es s = some (t, bs)) :
    runScript (es ++ fs) s = (runScript fs t).map fun r => (r.1, bs ++ r.2) := by
  induction es generalizing s bs with
  | nil =>
    cases h
    exact (Option.map_id').symm
  | cons e es ih =>
    rw [runScript] at h
    rw [List.cons_append, runScript]
    cases hstep : step (s.withInputs [e]) with
    | fault r => rw [hstep] at h; cases h
    | refused r => rw [hstep] at h; cases h
    | next u =>
      rw [hstep] at h
      obtain ⟨⟨t', bs'⟩, hes, heq⟩ := Option.map_eq_some_iff.1 h
      cases heq
      simp [ih hes, Option.map_map, Function.comp_def]

theorem runScript_append_silent {es fs : List Event} {s t : State} (h : runScript es s = some (t, [])) :
    runScript (es ++ fs) s = runScript fs t := by
  rw [runScript_append h]
  exact Option.map_id'

/-! ### Unit polls (R321) -/

theorem unitPolls_succ (n : Nat) : unitPolls (n + 1) = .poll 1 :: unitPolls n := rfl

theorem unitPolls_add (m n : Nat) : unitPolls (m + n) = unitPolls m ++ unitPolls n := List.replicate_add _ _ _

theorem countedDown_eq (s : State) (c : Nat) : countedDown s c = s.quiet.setCycles (c : Int) := rfl

theorem quiet_eq_countedDown {s : State} {c : Nat} (h : s.seq.cyclesRemaining = (c : Int)) : s.quiet = countedDown s c := by
  rw [countedDown_eq, ← h]
  rfl

theorem quiet_countedDown (s : State) (c : Nat) : (countedDown s c).quiet = countedDown s c := rfl

/-- `k` unit polls of a wait of more than `k` cycles only count. -/
theorem unitPolls_count {s : State} (hp : s.seq.phase ≠ .idle) :
    ∀ k c, k < c → runScript (unitPolls k) (countedDown s c) = some (countedDown s (c - k), [])
  | 0, _, _ => rfl
  | k + 1, c, hk => by
    have hpoll : poll 1 (countedDown s c).quiet = .next (countedDown s (c - 1)) := by
      rw [quiet_countedDown, poll_counts 1 (countedDown s c) le_rfl hp (by simp only [countedDown]; omega)]
      have hcycles : (countedDown s c).seq.cyclesRemaining - (1 : Nat) = ((c - 1 : Nat) : Int) := by
        simp only [countedDown]
        omega
      rw [hcycles]
      rfl
    rw [unitPolls_succ, runScript_cons_silent (e := .poll 1) hpoll rfl, unitPolls_count hp k (c - 1) (by omega),
      Nat.sub_sub, Nat.add_comm 1 k]

/-- The last cycle of a wait runs the phase's expiry. -/
theorem poll_last_cycle {s : State} (hp : s.seq.phase ≠ .idle) : poll 1 (countedDown s 1) = phaseExpiry (countedDown s 0) :=
  poll_expires 1 _ ⟨le_rfl, le_rfl⟩ hp

/-- A script of one poll or more, from a wait of `c` cycles, as seen from the quiet state. -/
theorem runScript_unitPolls_from {s : State} {c k : Nat} (hc : s.seq.cyclesRemaining = (c : Int)) (hk : 1 ≤ k) :
    runScript (unitPolls k) s = runScript (unitPolls k) (countedDown s c) := by
  obtain ⟨k, rfl⟩ := Nat.exists_eq_add_of_le' hk
  rw [unitPolls_succ, ← quiet_eq_countedDown hc, runScript_quiet]

/-- `c` unit polls of a wait of `c` cycles end in the phase's expiry, and the script's answer is its answer. -/
theorem unitPolls_expire {s t : State} {c : Nat} (hp : s.seq.phase ≠ .idle) (hc : s.seq.cyclesRemaining = (c : Int))
    (h1 : 1 ≤ c) (ht : phaseExpiry (countedDown s 0) = .next t) :
    runScript (unitPolls c) s = some (t, t.io.readData.toList) := by
  obtain ⟨k, rfl⟩ := Nat.exists_eq_add_of_le' h1
  have hcount := unitPolls_count hp k (k + 1) (by omega)
  rw [Nat.add_sub_cancel_left] at hcount
  rw [runScript_unitPolls_from hc h1, unitPolls_add, runScript_append_silent hcount]
  exact runScript_single ((poll_last_cycle hp).trans ht)

/-- Settles O22. -/
theorem unitPollsExact : Obligations.UnitPollsExact := by
  refine fun c s hc hp hcycles => ⟨fun k h1 hk => ?counts, fun t ht => unitPolls_expire hp hcycles hc ht⟩
  case counts => rw [runScript_unitPolls_from hcycles h1, unitPolls_count hp k c hk]

/-! ### The end of SpinUp (R147) -/

/-- The state in which the end of SpinUp enters the command's own phase. -/
def State.spunUp (s : State) (n : Nat) : State :=
  (s.setCycles (s.seq.cyclesRemaining - n)).setStatusBit spinUpBit true

theorem poll_spinUp {n : Nat} {s : State} (hp : s.seq.phase = .spinUp) (h : Expires n s) :
    poll n s = beginCommandPhase (s.spunUp n) := by
  rw [poll_expires n s h (by simp [hp]), phaseExpiry, State.setCycles_phase, hp]
  rfl

theorem State.spunUp_regs (s : State) (n : Nat) : (s.spunUp n).regs = { s.regs with status := s.regs.status ||| 0x20 } := by
  rw [← putBit_spinUp_set]
  rfl

theorem State.spunUp_rest (s : State) (n : Nat) : RestUnchanged s (s.spunUp n) :=
  ⟨rfl, rfl, rfl, rfl, rfl, rfl, fun _ _ _ => rfl, rfl, rfl, rfl⟩

/-- Settles O23. -/
theorem spinUpEndsTransfer : Obligations.SpinUpEndsTransfer := by
  intro n s hp h hc
  refine ⟨_, (poll_spinUp hp h).trans (beginCommandPhase_transfer _ hc), s.spunUp_regs n, rfl, rfl, rfl,
    drives_loaded (s.spunUp n), ?rest⟩
  case rest => exact (s.spunUp_rest n).trans ((State.driveOperation_rest _ _).trans (State.enterPhase_rest _ _ _))

/-- STATUS[5] is set twice over: at the end of SpinUp and on entry to Seeking. -/
theorem spinUp_set_twice (v : Byte) : putBit (v ||| 0x20) spinUpBit true = v ||| 0x20 := by
  rw [putBit_spinUp_set, BitVec.or_assoc, BitVec.or_self]

theorem moveTarget_spunUp (s : State) (n : Nat) (k : CmdKind) : moveTarget (s.spunUp n) k = moveTarget s k := by
  cases k <;> rfl

theorem movePassed_spunUp (s : State) (n : Nat) (k : CmdKind) : movePassed (s.spunUp n) k = movePassed s k := by
  cases k <;> rfl

theorem movePosition_spunUp (s : State) (n : Nat) (k : CmdKind) : movePosition (s.spunUp n) k = movePosition s k := by
  cases k <;> rfl

/-- The end of SpinUp without a density mismatch: the whole move (R180). -/
theorem poll_spinUp_moves {n : Nat} {s : State} (hp : s.seq.phase = .spinUp) (h : Expires n s)
    (hc : s.seq.activeCommandClass = .typeI) (hk : isTypeIKind s.latch.cmdKind = true) (hconf : seekConfused s = false) :
    ∃ t, poll n s = .next t ∧
      t.regs = { s.regs with status := s.regs.status ||| 0x20, track := moveTarget s s.latch.cmdKind } ∧
      t.seq = { s.seq with phase := .seeking, cyclesRemaining := (seekCycles s (movePassed s s.latch.cmdKind) : Int) } ∧
      t.latch = s.latch ∧ t.stepDirection = s.stepDirection ∧
      t.drives = drivesWithHeadAt s (movePosition s s.latch.cmdKind) ∧ RestUnchanged s t := by
  obtain ⟨t, ht, hregs, hseq, hlatch, hdir, hdrives, hrest⟩ := enterSeeking_closed (s.spunUp n) hk hconf
  have hl : (s.spunUp n).latch.cmdKind = s.latch.cmdKind := rfl
  rw [hl] at hregs hseq hdrives
  rw [moveTarget_spunUp, s.spunUp_regs n] at hregs
  rw [movePassed_spunUp] at hseq
  rw [movePosition_spunUp] at hdrives
  simp only [spinUp_set_twice] at hregs
  exact ⟨t, (poll_spinUp hp h).trans ((beginCommandPhase_typeI (s.spunUp n) hc).trans ht), hregs, hseq, hlatch, hdir, hdrives,
    (s.spunUp_rest n).trans hrest⟩

/-- The end of SpinUp with a density mismatch: no move, the confusion sub-phase (R187). -/
theorem poll_spinUp_confused {n : Nat} {s : State} (hp : s.seq.phase = .spinUp) (h : Expires n s)
    (hc : s.seq.activeCommandClass = .typeI) (hconf : seekConfused s = true) :
    ∃ t, poll n s = .next t ∧
      t.regs = { s.regs with status := s.regs.status ||| 0x20 } ∧
      t.seq = { s.seq with phase := .seeking, confusion := true, cyclesRemaining := (s.cfg.confusionTime : Int) } ∧
      t.latch = s.latch ∧ t.stepDirection = s.stepDirection ∧
      t.drives = drivesWithHeadAt s s.selected.trackPosition ∧ RestUnchanged s t := by
  refine ⟨_, (poll_spinUp hp h).trans ((beginCommandPhase_typeI (s.spunUp n) hc).trans
    (enterSeeking_confused (s.spunUp n) hconf)), ?regs, rfl,
    rfl, rfl, drives_loaded (s.spunUp n),
    (s.spunUp_rest n).trans ⟨rfl, rfl, rfl, rfl, rfl, rfl, fun _ _ _ => rfl, rfl, rfl, rfl⟩⟩
  case regs =>
    have hregs : ((s.spunUp n).moving.setConfusion true).regs
        = { (s.spunUp n).regs with status := putBit (s.spunUp n).regs.status spinUpBit true } := rfl
    simp only [s.spunUp_regs n, spinUp_set_twice] at hregs
    exact hregs

/-- Settles O24, by whether the densities match. -/
theorem spinUpEndsMove : Obligations.SpinUpEndsMove := by
  intro n s hp h hc hk
  cases hconf : seekConfused s with
  | false =>
    obtain ⟨t, ht, hregs, hseq, hlatch, hdir, hdrives, hrest⟩ := poll_spinUp_moves hp h hc hk hconf
    exact ⟨t, ht, hlatch, hdir, hrest, fun _ => ⟨hregs, hseq, hdrives⟩, fun hno => by cases hno⟩
  | true =>
    obtain ⟨t, ht, hregs, hseq, hlatch, hdir, hdrives, hrest⟩ := poll_spinUp_confused hp h hc hconf
    exact ⟨t, ht, hlatch, hdir, hrest, fun hno => by (cases hno), fun _ => ⟨hregs, hseq, hdrives⟩⟩

/-! ### The end of Seeking (R186) -/

/-- The four status bits the end of Seeking writes, as masks. -/
theorem seekStatus_eq (v : Byte) (a b c : Bool) :
    putBit (putBit (putBit (if c then putBit v errorBit true else v) track00Bit a) writeProtectBit b) busyBit false
      = (v &&& 0xBA) ||| (if c then 0x10 else 0) ||| (if a then 0x04 else 0) ||| (if b then 0x40 else 0) := by
  revert v a b c
  decide

/-- The registers at the end of Seeking: the sensors of the drive selected now. -/
theorem seekExpiry_regs (s : State) :
    (seekExpiry s).regs = { s.regs with
      status := (s.regs.status &&& 0xBA)
        ||| (if s.seq.confusion then 0x10 else 0)
        ||| (if xor (decide (s.selected.trackPosition = 0)) s.cfg.track00Invert then 0x04 else 0)
        ||| (if s.selected.writeProtected then 0x40 else 0)
      intrq := true } := by
  rw [← seekStatus_eq, seekExpiry, State.complete_regs_eq, Bool.or_true]
  cases s.seq.confusion <;> rfl

theorem seekExpiry_seq (s : State) : (seekExpiry s).seq = { s.seq with phase := .idle, activeCommandClass := .none } := by
  rw [seekExpiry, State.complete_seq_eq]
  cases s.seq.confusion <;> rfl

theorem seekExpiry_drives (s : State) : (seekExpiry s).drives = drivesAfterComplete s := by
  rw [seekExpiry, State.complete_drives]
  cases s.seq.confusion <;> rfl

theorem seekExpiry_latch (s : State) : (seekExpiry s).latch = s.latch := by
  rw [seekExpiry, State.complete_latch]
  cases s.seq.confusion <;> rfl

theorem seekExpiry_stepDirection (s : State) : (seekExpiry s).stepDirection = s.stepDirection := by
  rw [seekExpiry, State.complete_stepDirection]
  cases s.seq.confusion <;> rfl

theorem seekExpiry_io (s : State) : (seekExpiry s).io = s.io := by
  rw [seekExpiry, State.complete_io]
  cases s.seq.confusion <;> rfl

theorem seekExpiry_rest (s : State) : RestUnchanged s (seekExpiry s) := by
  refine RestUnchanged.trans ?_ (State.complete_rest _ true)
  cases s.seq.confusion <;> exact ⟨rfl, rfl, rfl, rfl, rfl, rfl, fun _ _ _ => rfl, rfl, rfl, rfl⟩

theorem poll_seeking {n : Nat} {s : State} (hp : s.seq.phase = .seeking) (h : Expires n s) :
    poll n s = .next (seekExpiry (s.setCycles (s.seq.cyclesRemaining - n))) := by
  rw [poll_expires n s h (by simp [hp]), phaseExpiry, State.setCycles_phase, hp]

theorem State.setCycles_rest (s : State) (n : Int) : RestUnchanged s (s.setCycles n) :=
  ⟨rfl, rfl, rfl, rfl, rfl, rfl, fun _ _ _ => rfl, rfl, rfl, rfl⟩

/-- Settles O25. -/
theorem seekEnds : Obligations.SeekEnds :=
  fun _ s hp h => ⟨_, poll_seeking hp h, seekExpiry_regs _, seekExpiry_seq _, seekExpiry_latch _,
    seekExpiry_stepDirection _, seekExpiry_drives _, by rw [seekExpiry_io]; rfl,
    (s.setCycles_rest _).trans (seekExpiry_rest _)⟩

end Sys2Proof.Machine
end

section
/-! The step outward, runs of steps and the restore (spec/40_drive_unit.md R124, R130, R131). -/

namespace Sys2Proof.Machine

/-- The feedback of `stepOut` (R124): the motor always, Overstep exactly from track 0. -/
theorem DriveUnit.stepOut_signals (D : DriveUnit) :
    D.stepOut.2 = if D.trackPosition = 0 then [.motorSpinning, .overstep] else [.motorSpinning] := by
  simp only [DriveUnit.stepOut, DriveUnit.loadHead_eq, DriveUnit.loaded_trackPosition]
  split <;> rfl

/-- The step outward in numbers, one line for each medium (R129). -/
theorem DriveUnit.outwardStep_eq (D : DriveUnit) :
    D.trackPosition - D.stepSize =
      match D.tracksPerDisk with
      | .forty => D.trackPosition - 2
      | .eighty => D.trackPosition - 1 := by
  unfold DriveUnit.stepSize
  cases D.tracksPerDisk <;> rfl

/-- One step signals the motor once. -/
theorem DriveUnit.stepOnce_count_motor (D : DriveUnit) (dir : StepDirection) :
    (D.stepOnce dir).2.count .motorSpinning = 1 := by
  cases dir
  · rw [DriveUnit.stepOnce, DriveUnit.stepIn_signals]
    split <;> rfl
  · rw [DriveUnit.stepOnce, DriveUnit.stepOut_signals]
    split <;> rfl

/-- A run of steps signals the motor once for each step (R130). -/
theorem DriveUnit.stepMany_count_motor (D : DriveUnit) (dir : StepDirection) (n : Nat) :
    (D.stepMany dir n).2.count .motorSpinning = n := by
  induction n generalizing D with
  | zero => rfl
  | succ n ih => rw [DriveUnit.stepMany, List.count_append, ih, DriveUnit.stepOnce_count_motor, Nat.add_comm]

/-- A restore steps out only from positions other than 0, so it never oversteps (R131). -/
theorem DriveUnit.stepOutUntilZero_no_overstep (D : DriveUnit) (fuel : Nat) :
    Signal.overstep ∉ (D.stepOutUntilZero fuel).2 := by
  induction fuel generalizing D with
  | zero => simp [DriveUnit.stepOutUntilZero]
  | succ fuel ih =>
    rw [DriveUnit.stepOutUntilZero]
    split
    · simp
    · next hpos =>
      rw [List.mem_append, DriveUnit.stepOut_signals, if_neg hpos]
      simpa using ih D.stepOut.1

theorem DriveUnit.restoreHead_at_zero {D : DriveUnit} (h : D.trackPosition = 0) : D.restoreHead = (D, []) := by
  rw [DriveUnit.restoreHead, h]
  rfl

theorem DriveUnit.restoreHead_trackPosition (D : DriveUnit) : D.restoreHead.1.trackPosition = 0 := by
  rw [DriveUnit.restoreHead_record]
  split
  · next h => exact h
  · rfl

/-- Settles O17, from the records and the feedback of one step, of a run, and of a restore. -/
theorem stepOutAndRuns : Obligations.StepOutAndRuns := by
  refine ⟨fun D => ⟨?stepOut, D.stepOut_signals⟩, fun D n hn => ?runs, fun D dir => rfl, DriveUnit.stepMany_count_motor,
    fun D => ⟨?zero, D.stepOutUntilZero_no_overstep _, fun hpos => ?moved, DriveUnit.restoreHead_at_zero⟩⟩
  case stepOut =>
    rw [DriveUnit.stepOut_record, DriveUnit.outwardStep_eq]
    rfl
  case runs =>
    obtain ⟨n, rfl⟩ := Nat.exists_eq_add_of_le' hn
    exact ⟨D.stepMany_inward n, D.stepMany_outward n⟩
  case zero => simp [DriveUnit.isTrack00, DriveUnit.restoreHead_trackPosition]
  case moved =>
    rw [DriveUnit.restoreHead_record, if_neg hpos]
    rfl

end Sys2Proof.Machine
end

section
/-! `DoTransferPrepare` (spec/41_sequencer.md R154; spec/60_exceptions.md R273): the checks in their order, and what passing
them leaves. -/

namespace Sys2Proof.Machine

/-- The state in which the checks are made at the end of TransferPrepare: STATUS[5] falls first. -/
def State.atPrepare (s : State) (n : Nat) : State :=
  (s.setCycles (s.seq.cyclesRemaining - n)).setStatusBit recordTypeBit false

theorem poll_transferPrepare {n : Nat} {s : State} (hp : s.seq.phase = .transferPrepare) (h : Expires n s) :
    poll n s =
      match transferChecks s with
      | .error bit => .next ((s.atPrepare n).abort bit)
      | .ok g => prepareTransfer (latchGeometry g (s.atPrepare n)) := by
  rw [poll_expires n s h (by simp [hp]), phaseExpiry, State.setCycles_phase, hp]
  have hchecks : transferChecks (s.atPrepare n) = transferChecks s := rfl
  show doTransferPrepare (s.setCycles (s.seq.cyclesRemaining - n)) = _
  rw [doTransferPrepare, ← hchecks]
  rfl

theorem poll_prepare_error {n : Nat} {s : State} {bit : Nat} (hp : s.seq.phase = .transferPrepare) (h : Expires n s)
    (hbit : transferChecks s = .error bit) : poll n s = .next ((s.atPrepare n).abort bit) := by
  rw [poll_transferPrepare hp h, hbit]

theorem poll_prepare_ok {n : Nat} {s : State} {g : Geometry} (hp : s.seq.phase = .transferPrepare) (h : Expires n s)
    (hg : transferChecks s = .ok g) : poll n s = prepareTransfer (latchGeometry g (s.atPrepare n)) := by
  rw [poll_transferPrepare hp h, hg]

/-! ### A failed check -/

theorem writeProtect_abort_status (v : Byte) :
    putBit (putBit (putBit v recordTypeBit false) writeProtectBit true) busyBit false
      = putBit (v &&& 0xDE) writeProtectBit true := by
  revert v
  decide

theorem error_abort_status (v : Byte) :
    putBit (putBit (putBit v recordTypeBit false) errorBit true) busyBit false = putBit (v &&& 0xDE) errorBit true := by
  revert v
  decide

theorem abort_status {bit : Nat} (hbit : bit = writeProtectBit ∨ bit = errorBit) (v : Byte) :
    putBit (putBit (putBit v recordTypeBit false) bit true) busyBit false = putBit (v &&& 0xDE) bit true := by
  obtain rfl | rfl := hbit
  · exact writeProtect_abort_status v
  · exact error_abort_status v

/-- A failed check ends the command with its bit and leaves everything else alone (R260). -/
theorem aborted_of_error {n : Nat} {s : State} {bit : Nat} (hp : s.seq.phase = .transferPrepare) (h : Expires n s)
    (hbit : transferChecks s = .error bit) : ∃ t, poll n s = .next t ∧ AbortedAtPrepare bit n s t := by
  refine ⟨_, poll_prepare_error hp h hbit, ?regs, ?seq, ?latch, ?direction, ?drives, ?rest⟩
  case regs =>
    rw [State.abort_regs, ← abort_status (transferChecks_error hbit)]
    rfl
  case seq =>
    rw [State.abort, State.complete_seq_eq]
    rfl
  case latch =>
    rw [State.abort, State.complete_latch]
    rfl
  case direction =>
    rw [State.abort, State.complete_stepDirection]
    rfl
  case drives =>
    rw [State.abort, State.complete_drives]
    rfl
  case rest =>
    exact RestUnchanged.trans (t := s.atPrepare n) ⟨rfl, rfl, rfl, rfl, rfl, rfl, fun _ _ _ => rfl, rfl, rfl, rfl⟩
      (State.abort_rest _ bit)

/-! ### The checks one by one (R154) -/

theorem transferChecks_protected {s : State} (hc : isWriteClass s.seq.activeCommandClass = true)
    (hwp : (s.disk s.board.selDrive).isWriteProtected = true) : transferChecks s = .error writeProtectBit := by
  simp [transferChecks, hc, hwp]

section PastWriteProtect

variable {s : State} (hwp : ¬(isWriteClass s.seq.activeCommandClass = true ∧ (s.disk s.board.selDrive).isWriteProtected = true))
include hwp

theorem transferChecks_closed (ho : (s.disk s.board.selDrive).isOpen = false) : transferChecks s = .error errorBit := by
  rw [transferChecks, if_neg (by simpa using hwp), if_pos (by simp [ho])]

variable (ho : (s.disk s.board.selDrive).isOpen = true)
include ho

theorem transferChecks_unmapped (hg : s.geometry s.board.selDrive s.board.selHead s.regs.track.toNat = none) :
    transferChecks s = .error errorBit := by
  rw [transferChecks, if_neg (by simpa using hwp), if_neg (by simp [ho])]
  simp only [hg]

/-- The checks that need the track's geometry. -/
theorem transferChecks_mapped {g : Geometry}
    (hg : s.geometry s.board.selDrive s.board.selHead s.regs.track.toNat = some g) :
    transferChecks s =
      if g.sectorCount.val = 0 ∨ g.sectorSize = 0 then .error errorBit
      else if s.cfg.densityCheckOnTransfer && densityMismatch s s.board.selDrive then .error errorBit
      else if isSectorClass s.seq.activeCommandClass && decide (g.sectorCount.val ≤ s.regs.sector.toNat) then .error errorBit
      else .ok g := by
  rw [transferChecks, if_neg (by simpa using hwp), if_neg (by simp [ho])]
  simp only [hg]

theorem transferChecks_unfit {g : Geometry}
    (hg : s.geometry s.board.selDrive s.board.selHead s.regs.track.toNat = some g)
    (h : g.sectorCount.val = 0 ∨ g.sectorSize = 0 ∨
      (s.cfg.densityCheckOnTransfer = true ∧ s.board.selDensity ≠ (s.disk s.board.selDrive).mediaDensity) ∨
      (isSectorClass s.seq.activeCommandClass = true ∧ g.sectorCount.val ≤ s.regs.sector.toNat)) :
    transferChecks s = .error errorBit := by
  rw [transferChecks_mapped hwp ho hg]
  split
  · rfl
  next hsize =>
  split
  · rfl
  next hdensity =>
  rw [if_pos]
  rw [densityMismatch, Bool.and_eq_true, decide_eq_true_eq] at hdensity
  rw [not_or] at hsize
  obtain hcount | hzero | hmismatch | hpast := h
  · exact absurd hcount hsize.1
  · exact absurd hzero hsize.2
  · exact absurd hmismatch hdensity
  · simpa using hpast

end PastWriteProtect

/-- Settles O27, check by check. -/
theorem prepareChecks : Obligations.PrepareChecks := by
  refine fun n s hp h _ => ⟨fun hwp => ?writeProtected, fun hwp => ⟨fun ho => ?closed, fun ho => ⟨fun hg => ?unmapped,
    fun g hg hunfit => ?unfit⟩⟩⟩
  case writeProtected => exact aborted_of_error hp h (transferChecks_protected hwp.1 hwp.2)
  case closed => exact aborted_of_error hp h (transferChecks_closed hwp ho)
  case unmapped => exact aborted_of_error hp h (transferChecks_unmapped hwp ho hg)
  case unfit => exact aborted_of_error hp h (transferChecks_unfit hwp ho hg hunfit)

/-! ### The checks passed -/

/-- The state in which the class's own prepare procedure runs. -/
def State.latched (s : State) (n : Nat) (g : Geometry) : State := latchGeometry g (s.atPrepare n)

theorem State.latched_status (s : State) (n : Nat) (g : Geometry) : (s.latched n g).regs.status = s.regs.status &&& 0xDF :=
  putBit_recordType_clear _

/-- What the four prepare procedures have in common: the geometry is latched, and these fields are as they were. -/
structure GeometryLatched (g : Geometry) (s t : State) : Prop where
  drive : t.xfer.drive = s.board.selDrive
  head : t.xfer.head = s.board.selHead
  sectorCount : t.xfer.sectorCount = g.sectorCount.val
  sectorSize : t.xfer.sectorSize = g.sectorSize
  base : t.xfer.base = g.baseOffset
  cmd : t.regs.cmd = s.regs.cmd
  track : t.regs.track = s.regs.track
  sector : t.regs.sector = s.regs.sector
  data : t.regs.data = s.regs.data
  latch : t.latch = s.latch
  direction : t.stepDirection = s.stepDirection
  rotating : t.rotatingSectorCounter = s.rotatingSectorCounter
  disks : t.disks = s.disks
  board : t.board = s.board
  cfg : t.cfg = s.cfg
  io : t.io = s.io

theorem imagesUnchanged_of_disks {s t : State} (h : t.disks = s.disks) : imagesUnchanged s t := by
  intro d k offset
  rw [State.imageByte, State.disk, h]
  rfl

/-- `PrepareReadSector` (R201). -/
theorem prepareReadSector_latched (s : State) (n : Nat) (g : Geometry) :
    GeometryLatched g s (prepareReadSector (s.latched n g)) :=
  ⟨rfl, rfl, rfl, rfl, rfl, rfl, rfl, rfl, rfl, rfl, rfl, rfl, rfl, rfl, rfl, rfl⟩

/-- `PrepareWriteSector` (R202). -/
theorem prepareWriteSector_latched (s : State) (n : Nat) (g : Geometry) :
    GeometryLatched g s (prepareWriteSector (s.latched n g)) :=
  ⟨rfl, rfl, rfl, rfl, rfl, rfl, rfl, rfl, rfl, rfl, rfl, rfl, rfl, rfl, rfl, rfl⟩

/-- `PrepareReadAddress` (R220). -/
theorem prepareReadAddress_latched (s : State) (n : Nat) (g : Geometry) :
    GeometryLatched g s (prepareReadAddress (s.latched n g)) :=
  ⟨rfl, rfl, rfl, rfl, rfl, rfl, rfl, rfl, rfl, rfl, rfl, rfl, rfl, rfl, rfl, rfl⟩

/-- The first byte time of a format stream (R240). -/
def State.formatBegun (s : State) : State :=
  (s.setScan { state := .scan, idIndex := 0, idSeen := false, sectorSize := 0 }).setDrq.beginTransfer

theorem prepareWriteTrack_eq (s : State) :
    prepareWriteTrack s = if s.xfer.sectorCount ≤ s.regs.sector.toNat then s.complete true else s.formatBegun := by
  simp only [prepareWriteTrack, State.sectorPastTrack, decide_eq_true_eq]
  rfl

theorem prepareWriteTrack_past {s : State} {n : Nat} {g : Geometry} (h : g.sectorCount.val ≤ s.regs.sector.toNat) :
    prepareWriteTrack (s.latched n g) = (s.latched n g).complete true := (prepareWriteTrack_eq _).trans (if_pos h)

theorem prepareWriteTrack_begins {s : State} {n : Nat} {g : Geometry} (h : s.regs.sector.toNat < g.sectorCount.val) :
    prepareWriteTrack (s.latched n g) = (s.latched n g).formatBegun := (prepareWriteTrack_eq _).trans (if_neg (by exact h.not_ge))

/-- `PrepareWriteTrack` (R240), with budget or without. -/
theorem prepareWriteTrack_latched (s : State) (n : Nat) (g : Geometry) :
    GeometryLatched g s (prepareWriteTrack (s.latched n g)) := by
  rcases le_or_gt g.sectorCount.val s.regs.sector.toNat with h | h
  · rw [prepareWriteTrack_past h]
    exact ⟨rfl, rfl, rfl, rfl, rfl, rfl, rfl, rfl, rfl, rfl, rfl, rfl, rfl, rfl, rfl, rfl⟩
  · rw [prepareWriteTrack_begins h]
    exact ⟨rfl, rfl, rfl, rfl, rfl, rfl, rfl, rfl, rfl, rfl, rfl, rfl, rfl, rfl, rfl, rfl⟩

/-- Write Track without budget completes at once; INTRQ rises (R240). -/
theorem prepareWriteTrack_past_status (s : State) (n : Nat) (g : Geometry) :
    ((s.latched n g).complete true).regs.status = s.regs.status &&& 0xDE := by
  rw [State.complete_status, putBit_busy_clear, State.latched_status, BitVec.and_assoc]
  rfl

/-- A class whose prepare has passed its checks runs its own procedure (R154). -/
theorem prepareTransfer_latched {s : State} (n : Nat) (g : Geometry) (hc : isTransferClass s.seq.activeCommandClass = true) :
    ∃ t, prepareTransfer (s.latched n g) = .next t ∧ GeometryLatched g s t := by
  have hclass : (s.latched n g).seq.activeCommandClass = s.seq.activeCommandClass := rfl
  rw [prepareTransfer, hclass]
  cases hcls : s.seq.activeCommandClass <;> rw [hcls] at hc
  case typeIIRead => exact ⟨_, rfl, prepareReadSector_latched s n g⟩
  case typeIIWrite => exact ⟨_, rfl, prepareWriteSector_latched s n g⟩
  case readAddress => exact ⟨_, rfl, prepareReadAddress_latched s n g⟩
  case writeTrack => exact ⟨_, rfl, prepareWriteTrack_latched s n g⟩
  all_goals cases hc

section ByClass

variable {s : State} (n : Nat) (g : Geometry)

theorem prepareTransfer_readSector (hc : s.seq.activeCommandClass = .typeIIRead) :
    prepareTransfer (s.latched n g) = .next (prepareReadSector (s.latched n g)) := by
  rw [prepareTransfer, show (s.latched n g).seq.activeCommandClass = _ from hc]

theorem prepareTransfer_writeSector (hc : s.seq.activeCommandClass = .typeIIWrite) :
    prepareTransfer (s.latched n g) = .next (prepareWriteSector (s.latched n g)) := by
  rw [prepareTransfer, show (s.latched n g).seq.activeCommandClass = _ from hc]

theorem prepareTransfer_readAddress (hc : s.seq.activeCommandClass = .readAddress) :
    prepareTransfer (s.latched n g) = .next (prepareReadAddress (s.latched n g)) := by
  rw [prepareTransfer, show (s.latched n g).seq.activeCommandClass = _ from hc]

theorem prepareTransfer_writeTrack (hc : s.seq.activeCommandClass = .writeTrack) :
    prepareTransfer (s.latched n g) = .next (prepareWriteTrack (s.latched n g)) := by
  rw [prepareTransfer, show (s.latched n g).seq.activeCommandClass = _ from hc]

end ByClass

theorem putBit_request_set_latched (s : State) (n : Nat) (g : Geometry) :
    putBit (s.latched n g).regs.status requestBit true = (s.regs.status &&& 0xDF) ||| 0x02 := by
  rw [State.latched_status, putBit_request_set]

/-- Settles O28: what all classes have in common, then class by class. -/
theorem prepareTransfers : Obligations.PrepareTransfers := by
  intro n s g hp h hg hc
  obtain ⟨t, ht, hlatched⟩ := prepareTransfer_latched n g hc
  refine ⟨t, (poll_prepare_ok hp h hg).trans ht, hlatched.drive, hlatched.head, hlatched.sectorCount, hlatched.sectorSize,
    hlatched.base, hlatched.cmd, hlatched.track, hlatched.sector, hlatched.data, hlatched.latch, hlatched.direction,
    hlatched.rotating, imagesUnchanged_of_disks hlatched.disks, ?_⟩
  cases hcls : s.seq.activeCommandClass
  case none | typeI | forceInterrupt =>
    rw [hcls] at hc
    cases hc
  case typeIIRead =>
    rw [prepareTransfer_readSector n g hcls] at ht
    cases ht
    exact ⟨fun _ => ⟨rfl, rfl⟩, nofun, fun _ => ⟨rfl, s.latched_status n g⟩, fun no => by simp at no,
      nofun, fun no => by simp at no, fun _ => ⟨rfl, rfl, rfl⟩⟩
  case typeIIWrite =>
    rw [prepareTransfer_writeSector n g hcls] at ht
    cases ht
    exact ⟨fun _ => ⟨rfl, rfl⟩, nofun, fun no => by simp at no,
      fun _ => ⟨rfl, putBit_request_set_latched s n g⟩, nofun, fun no => by simp at no,
      fun _ => ⟨rfl, rfl, rfl⟩⟩
  case readAddress =>
    rw [prepareTransfer_readAddress n g hcls] at ht
    cases ht
    exact ⟨fun no => by simp at no, fun _ => rfl, fun _ => ⟨rfl, s.latched_status n g⟩, fun no => by simp at no,
      nofun, fun no => by simp at no, fun _ => ⟨rfl, rfl, rfl⟩⟩
  case writeTrack =>
    rw [prepareTransfer_writeTrack n g hcls] at ht
    cases ht
    refine ⟨fun no => by simp at no, nofun, fun no => by simp at no, fun hbudget => ?request,
      fun _ hbudget => ?scan, fun hpast => ?past, fun hbudget => ?timed⟩
    case request =>
      rw [prepareWriteTrack_begins (by simpa using hbudget)]
      exact ⟨rfl, putBit_request_set_latched s n g⟩
    case scan =>
      rw [prepareWriteTrack_begins hbudget]
      rfl
    case past =>
      rw [prepareWriteTrack_past hpast.2]
      exact ⟨rfl, prepareWriteTrack_past_status s n g, rfl, rfl⟩
    case timed =>
      rw [prepareWriteTrack_begins (by simpa using hbudget)]
      exact ⟨rfl, rfl, rfl⟩

end Sys2Proof.Machine
end

section
/-! The byte expiries (spec/43_type2_commands.md R203 to R205; spec/44_type3_commands.md R221 to R223, R241 to R244): each is a
byte moved, then either the wait for the next one or the end of the sector, of the header or of the track's budget. -/

namespace Sys2Proof.Machine

theorem poll_transferByte {n : Nat} {s : State} (hp : s.seq.phase = .transferByte) (h : Expires n s) :
    poll n s = doTransferByte (s.setCycles (s.seq.cyclesRemaining - n)) := by
  rw [poll_expires n s h (by simp [hp]), phaseExpiry, State.setCycles_phase, hp]

theorem TransferFrame.rfl (s : State) : TransferFrame s s :=
  ⟨Eq.refl _, Eq.refl _, Eq.refl _, Eq.refl _, Eq.refl _, Eq.refl _, Eq.refl _, Eq.refl _, Eq.refl _⟩

theorem TransferFrame.trans {s t u : State} (h : TransferFrame s t) (k : TransferFrame t u) : TransferFrame s u :=
  ⟨k.cfg.trans h.cfg, k.latch.trans h.latch, k.direction.trans h.direction, k.rotating.trans h.rotating,
    k.drives.trans h.drives, k.board.trans h.board, k.inputs.trans h.inputs, k.answer.trans h.answer,
    k.signals.trans h.signals⟩

theorem State.setCycles_frame (s : State) (n : Int) : TransferFrame s (s.setCycles n) :=
  ⟨rfl, rfl, rfl, rfl, rfl, rfl, rfl, rfl, rfl⟩

/-- The byte time of a state with the same configuration. -/
theorem State.awaitByte_of_cfg {s u : State} (h : u.cfg = s.cfg) : u.awaitByte = u.setCycles (s.cfg.byteTime : Int) := by
  rw [State.awaitByte, h]

theorem State.setDrq_frame (s : State) : TransferFrame s s.setDrq := ⟨rfl, rfl, rfl, rfl, rfl, rfl, rfl, rfl, rfl⟩

/-! ### The end of a sector (R205) -/

theorem endOfSector_single {s : State} (isWrite : Bool) (hm : s.latch.multiSectorFlag = false) :
    endOfSector isWrite s = s.complete true := by
  rw [endOfSector, hm]
  rfl

/-- The last sector of the track: the command stops when SECTOR reaches the count. -/
theorem endOfSector_past {s : State} (isWrite : Bool) (hm : s.latch.multiSectorFlag = true)
    (h : s.xfer.sectorCount ≤ (s.regs.sector + 1).toNat) :
    endOfSector isWrite s = (s.setSector (s.regs.sector + 1)).complete true := by
  rw [endOfSector, hm]
  exact if_pos (decide_eq_true h)

/-- A multi-sector command goes on at the next sector of the latched geometry. -/
theorem endOfSector_next {s : State} (isWrite : Bool) (hm : s.latch.multiSectorFlag = true)
    (h : (s.regs.sector + 1).toNat < s.xfer.sectorCount) :
    endOfSector isWrite s =
      (if isWrite then (s.setSector (s.regs.sector + 1)).aimAtSector.setDrq
        else (s.setSector (s.regs.sector + 1)).aimAtSector).awaitByte := by
  have hpast : (s.setSector (s.regs.sector + 1)).sectorPastTrack = false := decide_eq_false h.not_ge
  simp only [endOfSector, hm, hpast]
  cases isWrite <;> rfl

/-- Settles O31. -/
theorem endOfSectorRule : Obligations.EndOfSectorRule := by
  refine fun isWrite s => ⟨endOfSector_single isWrite, endOfSector_past isWrite, fun hm h => ⟨fun hw => ?read,
    fun hw => ?write⟩⟩
  case read =>
    rw [endOfSector_next isWrite hm h, hw]
    rfl
  case write =>
    rw [endOfSector_next isWrite hm h, hw, ← putBit_request_set]
    rfl

/-! ### Read Sector (R203) -/

/-- One byte delivered: Lost Data if the last request was not serviced, the byte in DATA, the request up, the position
advanced. -/
def State.byteRead (s : State) : State :=
  let read := s.lostDataCheck.readByte s.xfer.drive s.xfer.head s.xfer.offset
  (read.2.setData read.1).setDrq.advanceTransfer

theorem readSectorByte_eq (s : State) :
    readSectorByte s =
      if s.xfer.byteCountRemaining - 1 = 0 then endOfSector false s.byteRead else s.byteRead.awaitByte := by
  simp [readSectorByte, State.byteRead]

theorem readSectorByte_more {s : State} (h : 1 < s.xfer.byteCountRemaining) : readSectorByte s = s.byteRead.awaitByte := by
  rw [readSectorByte_eq, if_neg (by omega)]

theorem readSectorByte_last {s : State} (h : s.xfer.byteCountRemaining = 1) :
    readSectorByte s = endOfSector false s.byteRead := by
  rw [readSectorByte_eq, if_pos (by omega)]

/-- A read looks only at the images and at the draws. -/
theorem readByte_fst (s : State) (d : DriveNo) (k : Head) (offset : Nat) :
    (s.readByte d k offset).1 = (s.imageByte d k offset).getD (Config.freeByte s.io.freeCount) := by
  obtain ⟨b, hb, hread⟩ | ⟨hnone, hread⟩ := s.readByte_cases d k offset
  · rw [hread, hb]
    rfl
  · rw [hread, hnone]
    rfl

theorem readByte_lostDataCheck (s : State) (d : DriveNo) (k : Head) (offset : Nat) :
    (s.lostDataCheck.readByte d k offset).1 = (s.readByte d k offset).1 := by
  rw [readByte_fst, readByte_fst, State.lostDataCheck_eq]
  rfl

theorem readByte_setCycles (s : State) (c : Int) (d : DriveNo) (k : Head) (offset : Nat) :
    ((s.setCycles c).readByte d k offset).1 = (s.readByte d k offset).1 := by
  rw [readByte_fst, readByte_fst]
  rfl

theorem State.byteRead_regs (s : State) :
    s.byteRead.regs = { s.regs with
      data := (s.readByte s.xfer.drive s.xfer.head s.xfer.offset).1, drq := true, status := lostDataStatus s ||| 0x02 } := by
  rw [← readByte_lostDataCheck, ← putBit_request_set]
  simp [State.byteRead, State.advanceTransfer, State.setDrq, State.setData, State.lostDataCheck_eq]

theorem State.byteRead_xfer (s : State) :
    s.byteRead.xfer
      = { s.xfer with offset := s.xfer.offset + 1, byteCountRemaining := s.xfer.byteCountRemaining - 1 } := by
  simp [State.byteRead, State.advanceTransfer]

@[simp] theorem State.byteRead_seq (s : State) : s.byteRead.seq = s.seq := by simp [State.byteRead]
@[simp] theorem State.byteRead_wt (s : State) : s.byteRead.wt = s.wt := by simp [State.byteRead]
@[simp] theorem State.byteRead_disks (s : State) : s.byteRead.disks = s.disks := by simp [State.byteRead]

theorem State.byteRead_frame (s : State) : TransferFrame s s.byteRead := by
  constructor <;> simp [State.byteRead]

theorem readByte_of_some {s : State} {d : DriveNo} {k : Head} {offset : Nat} {b : Byte}
    (h : s.imageByte d k offset = some b) : s.readByte d k offset = (b, s) := by
  rw [State.readByte, h]

theorem readByte_of_none {s : State} {d : DriveNo} {k : Head} {offset : Nat} (h : s.imageByte d k offset = none) :
    s.readByte d k offset = s.drawByte := by
  rw [State.readByte, h]

theorem imageByte_lostDataCheck (s : State) (d : DriveNo) (k : Head) (offset : Nat) :
    s.lostDataCheck.imageByte d k offset = s.imageByte d k offset := by
  rw [State.lostDataCheck_eq]
  rfl

/-- The byte and the draw where the image holds a byte (entry 10). -/
theorem State.byteRead_held {s : State} {b : Byte}
    (h : s.imageByte s.xfer.drive s.xfer.head s.xfer.offset = some b) :
    s.byteRead.regs.data = b ∧ s.byteRead.io.freeCount = s.io.freeCount := by
  rw [← imageByte_lostDataCheck] at h
  simp [State.byteRead, readByte_of_some h]

/-- The byte and the draw where it holds none. -/
theorem State.byteRead_free {s : State} (h : s.imageByte s.xfer.drive s.xfer.head s.xfer.offset = none) :
    s.byteRead.regs.data = Config.freeByte s.io.freeCount ∧ s.byteRead.io.freeCount = s.io.freeCount + 1 := by
  rw [← imageByte_lostDataCheck] at h
  simp [State.byteRead, readByte_of_none h, State.drawByte]

theorem doTransferByte_readSector {s : State} (hc : s.seq.activeCommandClass = .typeIIRead) :
    doTransferByte s = .next (readSectorByte s) := by
  rw [doTransferByte, hc]

theorem readSectorByte_disks (s : State) : (readSectorByte s).disks = s.disks := by
  rw [readSectorByte_eq]
  split
  · rw [endOfSector_disks, State.byteRead_disks]
  · rw [State.awaitByte_disks, State.byteRead_disks]

/-- Settles O29. -/
theorem readByteRule : Obligations.ReadByteRule := by
  intro n s hp h hc hcount
  let v := s.setCycles (s.seq.cyclesRemaining - n)
  have hpoll : poll n s = .next (readSectorByte v) :=
    (poll_transferByte hp h).trans (doTransferByte_readSector (s := v) hc)
  refine ⟨readSectorByte v, v.byteRead, hpoll, (s.setCycles_frame _).trans v.byteRead_frame, v.byteRead_disks,
    v.byteRead_wt, by rw [v.byteRead_regs, readByte_setCycles]; rfl, v.byteRead_xfer, v.byteRead_seq,
    fun b hb => State.byteRead_held (s := v) hb,
    fun hnone => State.byteRead_free (s := v) hnone, imagesUnchanged_of_disks (readSectorByte_disks v), fun hmore => ?more,
    fun hlast => ?last⟩
  case more =>
    rw [readSectorByte_more (s := v) hmore, State.awaitByte_of_cfg (s := s) v.byteRead_frame.cfg]
    rfl
  case last => exact readSectorByte_last (s := v) hlast

/-! ### Write Sector (R204) -/

/-- One byte stored: Lost Data if the last request was not serviced, the request over, DATA at the transfer's offset, the
position advanced. -/
def State.byteWritten (s : State) : State :=
  (s.lostDataCheck.withdrawDrq.writeByte s.xfer.drive s.xfer.head s.xfer.offset s.regs.data).advanceTransfer

theorem writeSectorByte_eq (s : State) :
    writeSectorByte s =
      if s.xfer.byteCountRemaining - 1 = 0 then endOfSector true s.byteWritten else s.byteWritten.setDrq.awaitByte := by
  simp [writeSectorByte, State.byteWritten]

theorem writeSectorByte_more {s : State} (h : 1 < s.xfer.byteCountRemaining) :
    writeSectorByte s = s.byteWritten.setDrq.awaitByte := by
  rw [writeSectorByte_eq, if_neg (by omega)]

theorem writeSectorByte_last {s : State} (h : s.xfer.byteCountRemaining = 1) :
    writeSectorByte s = endOfSector true s.byteWritten := by
  rw [writeSectorByte_eq, if_pos (by omega)]

theorem State.byteWritten_regs (s : State) :
    s.byteWritten.regs = { s.regs with drq := false, status := lostDataStatus s &&& 0xFD } := by
  rw [← putBit_request_clear, State.byteWritten, State.lostDataCheck_eq]
  rfl

theorem State.byteWritten_xfer (s : State) :
    s.byteWritten.xfer
      = { s.xfer with offset := s.xfer.offset + 1, byteCountRemaining := s.xfer.byteCountRemaining - 1 } := by
  rw [State.byteWritten, State.lostDataCheck_eq]
  rfl

@[simp] theorem State.byteWritten_seq (s : State) : s.byteWritten.seq = s.seq := by simp [State.byteWritten]
@[simp] theorem State.byteWritten_wt (s : State) : s.byteWritten.wt = s.wt := by simp [State.byteWritten]
@[simp] theorem State.byteWritten_io (s : State) : s.byteWritten.io = s.io := by simp [State.byteWritten]

theorem State.byteWritten_frame (s : State) : TransferFrame s s.byteWritten := by
  constructor <;> simp [State.byteWritten]

theorem State.byteWritten_imageByte (s : State) (d : DriveNo) (k : Head) (offset : Nat) :
    s.byteWritten.imageByte d k offset =
      if s.xfer.drive = d ∧ s.xfer.head = k ∧ s.xfer.offset = offset then some s.regs.data else s.imageByte d k offset := by
  have himage : s.byteWritten.imageByte d k offset
      = (s.writeByte s.xfer.drive s.xfer.head s.xfer.offset s.regs.data).imageByte d k offset := by
    rw [State.byteWritten, State.lostDataCheck_eq]
    rfl
  rw [himage, State.imageByte_writeByte]

/-- Images with the same bytes as after `byteWritten` have exactly that byte written (R66). -/
theorem oneByteWritten_of_disks {s t : State} (h : t.disks = s.byteWritten.disks) : OneByteWritten s.regs.data s t := by
  have himage : ∀ d k offset, t.imageByte d k offset = s.byteWritten.imageByte d k offset := imagesUnchanged_of_disks h
  refine ⟨?written, fun d k offset hne => ?other⟩
  case written => rw [himage, State.byteWritten_imageByte, if_pos ⟨rfl, rfl, rfl⟩]
  case other =>
    rw [himage, State.byteWritten_imageByte, if_neg]
    rintro ⟨rfl, rfl, rfl⟩
    exact hne ⟨rfl, rfl, rfl⟩

theorem doTransferByte_writeSector {s : State} (hc : s.seq.activeCommandClass = .typeIIWrite) :
    doTransferByte s = .next (writeSectorByte s) := by
  rw [doTransferByte, hc]

theorem writeSectorByte_disks (s : State) : (writeSectorByte s).disks = s.byteWritten.disks := by
  rw [writeSectorByte_eq]
  split
  · exact endOfSector_disks _ _
  · rfl

/-- Settles O30. -/
theorem writeByteRule : Obligations.WriteByteRule := by
  intro n s hp h hc hcount
  let v := s.setCycles (s.seq.cyclesRemaining - n)
  have hpoll : poll n s = .next (writeSectorByte v) :=
    (poll_transferByte hp h).trans (doTransferByte_writeSector (s := v) hc)
  refine ⟨writeSectorByte v, v.byteWritten, hpoll, (s.setCycles_frame _).trans v.byteWritten_frame, v.byteWritten_wt,
    by rw [v.byteWritten_io]; rfl, v.byteWritten_regs, v.byteWritten_xfer, v.byteWritten_seq,
    oneByteWritten_of_disks (s := v) rfl, oneByteWritten_of_disks (s := v) (writeSectorByte_disks v), fun hmore => ?more,
    fun hlast => ?last⟩
  case more =>
    rw [writeSectorByte_more (s := v) hmore,
      State.awaitByte_of_cfg (s := s) (u := v.byteWritten.setDrq) v.byteWritten_frame.cfg, State.setDrq_eq]
    rfl
  case last => exact writeSectorByte_last (s := v) hlast

/-! ### Read Address (R221) -/

/-- One header byte delivered. -/
def State.headerByte (s : State) : State :=
  ((s.lostDataCheck.setData (addressByte s (6 - s.xfer.byteCountRemaining))).setDrq).setByteCount
    (s.xfer.byteCountRemaining - 1)

theorem addressByte_lostDataCheck (s : State) (i : Nat) : addressByte s.lostDataCheck i = addressByte s i := by
  rw [State.lostDataCheck_eq]
  rfl

theorem readAddressByte_eq (s : State) :
    readAddressByte s =
      if s.xfer.byteCountRemaining - 1 = 0 then
        (s.headerByte.setRotating ((s.rotatingSectorCounter + 1) % s.xfer.sectorCount)).complete true
      else s.headerByte.awaitByte := by
  simp [readAddressByte, State.headerByte, addressByte_lostDataCheck]

theorem readAddressByte_more {s : State} (h : 1 < s.xfer.byteCountRemaining) :
    readAddressByte s = s.headerByte.awaitByte := by
  rw [readAddressByte_eq, if_neg (by omega)]

theorem readAddressByte_last {s : State} (h : s.xfer.byteCountRemaining = 1) :
    readAddressByte s
      = (s.headerByte.setRotating ((s.rotatingSectorCounter + 1) % s.xfer.sectorCount)).complete true := by
  rw [readAddressByte_eq, if_pos (by omega)]

theorem State.headerByte_regs (s : State) :
    s.headerByte.regs = { s.regs with
      data := addressByte s (6 - s.xfer.byteCountRemaining), drq := true, status := lostDataStatus s ||| 0x02 } := by
  rw [← putBit_request_set, State.headerByte, State.lostDataCheck_eq]
  rfl

theorem State.headerByte_xfer (s : State) :
    s.headerByte.xfer = { s.xfer with byteCountRemaining := s.xfer.byteCountRemaining - 1 } := by
  rw [State.headerByte, State.lostDataCheck_eq]
  rfl

@[simp] theorem State.headerByte_seq (s : State) : s.headerByte.seq = s.seq := by simp [State.headerByte]
@[simp] theorem State.headerByte_wt (s : State) : s.headerByte.wt = s.wt := by simp [State.headerByte]
@[simp] theorem State.headerByte_disks (s : State) : s.headerByte.disks = s.disks := by simp [State.headerByte]
@[simp] theorem State.headerByte_io (s : State) : s.headerByte.io = s.io := by simp [State.headerByte]

theorem State.headerByte_frame (s : State) : TransferFrame s s.headerByte := by
  constructor <;> simp [State.headerByte]

theorem headByte_eq (k : Head) : headByte k = if k = .side0 then 0 else 1 := by cases k <;> rfl

theorem doTransferByte_readAddress {s : State} (hc : s.seq.activeCommandClass = .readAddress) :
    doTransferByte s = .next (readAddressByte s) := by
  rw [doTransferByte, hc]

theorem readAddressByte_disks (s : State) : (readAddressByte s).disks = s.disks := by
  rw [readAddressByte_eq]
  split
  · rw [State.complete_disks, State.setRotating_disks, State.headerByte_disks]
  · rw [State.awaitByte_disks, State.headerByte_disks]

theorem sizeCode_standard : sizeCode 128 = 0 ∧ sizeCode 256 = 1 ∧ sizeCode 512 = 2 ∧ sizeCode 1024 = 3 := by decide

/-- Settles O32: the bytes in their order, and the end of the header. -/
theorem headerByteRule : Obligations.HeaderByteRule := by
  intro n s hp h hc hcount hcount6
  let v := s.setCycles (s.seq.cyclesRemaining - n)
  have hpoll : poll n s = .next (readAddressByte v) :=
    (poll_transferByte hp h).trans (doTransferByte_readAddress (s := v) hc)
  have hdata : v.headerByte.regs.data = addressByte s (6 - s.xfer.byteCountRemaining) := by
    rw [State.headerByte_regs]
    rfl
  obtain ⟨code128, code256, code512, code1024⟩ := sizeCode_standard
  refine ⟨readAddressByte v, v.headerByte, hpoll, (s.setCycles_frame _).trans v.headerByte_frame, v.headerByte_disks,
    v.headerByte_wt, by rw [v.headerByte_io]; rfl, imagesUnchanged_of_disks (readAddressByte_disks v),
    by rw [hdata, v.headerByte_regs]; rfl, v.headerByte_xfer, v.headerByte_seq, fun h6 => by rw [hdata, h6]; rfl,
    fun h5 => by rw [hdata, h5, ← headByte_eq]; rfl, fun h4 => by rw [hdata, h4]; rfl, fun h3 => ?code,
    fun h2 => by rw [hdata, h2]; rfl, fun h1 => by rw [hdata, h1]; rfl, fun hmore => ?more, fun hlast => ?last⟩
  case code =>
    have hcode : v.headerByte.regs.data = sizeCode s.xfer.sectorSize := by
      rw [hdata, h3]
      rfl
    rw [hcode]
    exact ⟨fun h => by rw [h, code128], fun h => by rw [h, code256], fun h => by rw [h, code512],
      fun h => by rw [h, code1024]⟩
  case more =>
    rw [readAddressByte_more (s := v) hmore, State.awaitByte_of_cfg (s := s) v.headerByte_frame.cfg]
    rfl
  case last => exact readAddressByte_last (s := v) hlast

/-! ### Write Track (R241 to R244) -/

/-- The state in which a stream byte is taken: Lost Data if the last request was not serviced, the request over. -/
def State.streamed (s : State) : State := s.lostDataCheck.withdrawDrq

theorem State.streamed_eq (s : State) :
    s.streamed = { s with regs.drq := false, regs.status := lostDataStatus s &&& 0xFD } := by
  rw [← putBit_request_clear, State.streamed, State.lostDataCheck_eq]
  rfl

/-- What a stream byte does, by the state of the scan. -/
def State.streamByte (s : State) : State :=
  match s.wt.state with
  | .scan => scanByte s.regs.data s.streamed
  | .id => idByte s.regs.data s.streamed
  | .data => dataByte s.regs.data s.streamed

theorem writeTrackByte_eq (s : State) :
    writeTrackByte s =
      if s.streamByte.seq.phase = .transferByte then s.streamByte.setDrq.awaitByte else s.streamByte := by
  cases hst : s.wt.state <;> simp [writeTrackByte, State.streamByte, State.streamed, hst]

theorem doTransferByte_writeTrack {s : State} (hc : s.seq.activeCommandClass = .writeTrack) :
    doTransferByte s = .next (writeTrackByte s) := by
  rw [doTransferByte, hc]

/-- While the phase stands the next byte is asked for. -/
theorem writeTrackByte_goes_on {s : State} (h : s.streamByte.seq.phase = .transferByte) :
    writeTrackByte s = s.streamByte.setDrq.awaitByte := by
  rw [writeTrackByte_eq, if_pos h]

/-- 0xFE opens an ID field. -/
theorem streamByte_idMark {s : State} (hst : s.wt.state = .scan) (hb : s.regs.data = 0xFE) :
    s.streamByte = s.streamed.setScan { s.wt with state := .id, idIndex := 0 } := by
  rw [State.streamByte, hst, State.streamed_eq]
  exact if_pos hb

/-- 0xFB after a complete ID field opens a data block at SECTOR. -/
theorem streamByte_dataMark {s : State} (hst : s.wt.state = .scan) (hb : s.regs.data = 0xFB) (hseen : s.wt.idSeen = true) :
    s.streamByte = (s.streamed.setScan { s.wt with state := .data }).aimAt s.wt.sectorSize := by
  rw [State.streamByte, hst, State.streamed_eq]
  exact (if_neg (by simp [hb])).trans (if_pos ⟨hb, hseen⟩)

/-- Every other byte is ignored. -/
theorem streamByte_ignored {s : State} (hst : s.wt.state = .scan) (hb : s.regs.data ≠ 0xFE)
    (hno : ¬(s.regs.data = 0xFB ∧ s.wt.idSeen = true)) : s.streamByte = s.streamed := by
  rw [State.streamByte, hst, State.streamed_eq]
  exact (if_neg hb).trans (if_neg hno)

/-- The first three bytes of an ID field are counted. -/
theorem streamByte_idField {s : State} (hst : s.wt.state = .id) (hi : s.wt.idIndex < 3) :
    s.streamByte = s.streamed.setScan { s.wt with idIndex := s.wt.idIndex + 1 } := by
  rw [State.streamByte, hst, State.streamed_eq]
  exact if_pos hi

/-- The fourth gives the sector size and completes the field. -/
theorem streamByte_idSize {s : State} (hst : s.wt.state = .id) (hi : 3 ≤ s.wt.idIndex) :
    s.streamByte = s.streamed.setScan { s.wt with sectorSize := sizeOfCode s.regs.data, idSeen := true, state := .scan } := by
  rw [State.streamByte, hst, State.streamed_eq]
  exact if_neg (by exact hi.not_gt)

/-- Outside a data block a stream byte writes the sub-state and the transfer position alone. -/
theorem streamByte_scans {s : State} (h : s.wt.state ≠ .data) :
    ∃ w x, s.streamByte = { s.streamed with wt := w, xfer := x } := by
  cases hst : s.wt.state
  case data => exact absurd hst h
  case scan =>
    by_cases hid : s.regs.data = 0xFE
    · exact ⟨_, _, streamByte_idMark hst hid⟩
    by_cases hmark : s.regs.data = 0xFB ∧ s.wt.idSeen = true
    · exact ⟨_, _, streamByte_dataMark hst hmark.1 hmark.2⟩
    · exact ⟨_, _, streamByte_ignored hst hid hmark⟩
  case id =>
    rcases Nat.lt_or_ge s.wt.idIndex 3 with hi | hi
    · exact ⟨_, _, streamByte_idField hst hi⟩
    · exact ⟨_, _, streamByte_idSize hst hi⟩

theorem streamByte_scans_seq {s : State} (h : s.wt.state ≠ .data) : s.streamByte.seq = s.seq := by
  obtain ⟨w, x, hform⟩ := streamByte_scans h
  rw [hform, State.streamed_eq]

/-- The request is withdrawn and raised again: only Lost Data remains of it. -/
theorem request_again (v : Byte) : putBit (v &&& 0xFD) requestBit true = v ||| 0x02 := by
  revert v
  decide

/-- Settles O33. -/
theorem formatStreamRule : Obligations.FormatStreamRule := by
  intro n s hp h hc hst
  let v := s.setCycles (s.seq.cyclesRemaining - n)
  have hphase : v.streamByte.seq.phase = .transferByte := by
    rw [streamByte_scans_seq (s := v) hst]
    exact hp
  have hpoll : poll n s = .next v.streamByte.setDrq.awaitByte := by
    rw [poll_transferByte hp h, ← writeTrackByte_goes_on hphase]
    exact doTransferByte_writeTrack (s := v) hc
  refine ⟨_, hpoll, ?frame, ?images, ?regs, ?seq, fun hscan => ⟨fun hb => ?idMark, fun hb hseen => ?dataMark,
    fun hb hno => ?early, fun hb1 hb2 => ?other⟩, fun hid => ⟨?position, fun hi => ?idField, fun hi => ?idSize⟩⟩
  case frame | images | regs | seq =>
    obtain ⟨w, x, hform⟩ := streamByte_scans (s := v) hst
    rw [hform, State.streamed_eq]
    first
    | exact ⟨rfl, rfl, rfl, rfl, rfl, rfl, rfl, rfl, rfl⟩
    | exact fun _ _ _ => rfl
    | rfl
    | (rw [← request_again]; rfl)
  case idMark =>
    rw [streamByte_idMark (s := v) hscan hb, State.streamed_eq]
    exact ⟨rfl, rfl⟩
  case dataMark =>
    rw [streamByte_dataMark (s := v) hscan hb hseen, State.streamed_eq]
    exact ⟨rfl, rfl⟩
  case early =>
    rw [streamByte_ignored (s := v) hscan (by simp [v, hb]) (by simp [v, hno]), State.streamed_eq]
    exact ⟨rfl, rfl⟩
  case other =>
    rw [streamByte_ignored (s := v) hscan hb1 (fun hmark => hb2 hmark.1), State.streamed_eq]
    exact ⟨rfl, rfl⟩
  case position =>
    rcases Nat.lt_or_ge s.wt.idIndex 3 with hi | hi
    · rw [streamByte_idField (s := v) hid hi, State.streamed_eq]
      rfl
    · rw [streamByte_idSize (s := v) hid hi, State.streamed_eq]
      rfl
  case idField =>
    rw [streamByte_idField (s := v) hid hi, State.streamed_eq]
    rfl
  case idSize =>
    rw [streamByte_idSize (s := v) hid hi, State.streamed_eq]
    rfl

/-! ### Inside a data block (R244) -/

theorem streamByte_data {s : State} (h : s.wt.state = .data) : s.streamByte = dataByte s.regs.data s.streamed := by
  rw [State.streamByte, h]

/-- A data byte is stored as a Write Sector byte is; the last one of the block closes it and goes on to the next sector. -/
theorem dataByte_streamed (s : State) :
    dataByte s.regs.data s.streamed =
      if s.xfer.byteCountRemaining - 1 = 0 then
        let u := (s.byteWritten.setSector (s.regs.sector + 1)).setScan { s.wt with idSeen := false, state := .scan }
        if s.xfer.sectorCount ≤ (s.regs.sector + 1).toNat then u.complete true else u
      else s.byteWritten := by
  have hwritten : (s.streamed.writeByte s.streamed.xfer.drive s.streamed.xfer.head s.streamed.xfer.offset
      s.regs.data).advanceTransfer = s.byteWritten := by
    rw [State.byteWritten, State.streamed, State.lostDataCheck_eq]
    rfl
  simp only [dataByte, hwritten, State.sectorPastTrack, decide_eq_true_eq, State.setScan_xfer, State.setSector_xfer,
    State.setScan_regs, State.setSector_sector, State.byteWritten_wt]
  rw [State.byteWritten_xfer, State.byteWritten_regs]

/-- The end of a data block: SECTOR goes on by one and the scan begins again without an ID field. -/
def State.blockEnded (s : State) : State :=
  (s.byteWritten.setSector (s.regs.sector + 1)).setScan { s.wt with idSeen := false, state := .scan }

section DataBlock

variable {s : State} (hst : s.wt.state = .data)
include hst

theorem streamByte_more (h : 1 < s.xfer.byteCountRemaining) : s.streamByte = s.byteWritten := by
  rw [streamByte_data hst, dataByte_streamed, if_neg (by omega)]

theorem streamByte_blockEnded (h : s.xfer.byteCountRemaining = 1) (hbudget : (s.regs.sector + 1).toNat < s.xfer.sectorCount) :
    s.streamByte = s.blockEnded := by
  rw [streamByte_data hst, dataByte_streamed, if_pos (by omega)]
  exact if_neg hbudget.not_ge

theorem streamByte_trackDone (h : s.xfer.byteCountRemaining = 1) (hbudget : s.xfer.sectorCount ≤ (s.regs.sector + 1).toNat) :
    s.streamByte = s.blockEnded.complete true := by
  rw [streamByte_data hst, dataByte_streamed, if_pos (by omega)]
  exact if_pos hbudget

end DataBlock

@[simp] theorem State.blockEnded_seq (s : State) : s.blockEnded.seq = s.seq := s.byteWritten_seq

theorem State.blockEnded_frame (s : State) : TransferFrame s s.blockEnded :=
  s.byteWritten_frame.trans ⟨rfl, rfl, rfl, rfl, rfl, rfl, rfl, rfl, rfl⟩

theorem State.blockEnded_regs (s : State) :
    s.blockEnded.regs
      = { s.regs with sector := s.regs.sector + 1, drq := false, status := lostDataStatus s &&& 0xFD } := by
  have hregs : s.blockEnded.regs = { s.byteWritten.regs with sector := s.regs.sector + 1 } := rfl
  rw [hregs, State.byteWritten_regs]

theorem writeTrackByte_stops {s : State} (h : s.streamByte.seq.phase ≠ .transferByte) : writeTrackByte s = s.streamByte := by
  rw [writeTrackByte_eq, if_neg h]

section DataBlockExpiry

variable {s : State} (hst : s.wt.state = .data)
include hst

/-- However a data byte ends, it is stored at the transfer's place and the position goes on by one. -/
theorem streamByte_data_place : s.streamByte.disks = s.byteWritten.disks ∧ s.streamByte.xfer = s.byteWritten.xfer := by
  rw [streamByte_data hst, dataByte_streamed]
  simp only
  split
  · split
    · exact ⟨by simp, by simp⟩
    · exact ⟨rfl, rfl⟩
  · exact ⟨rfl, rfl⟩

theorem writeTrackByte_data_place :
    (writeTrackByte s).disks = s.byteWritten.disks ∧ (writeTrackByte s).xfer = s.byteWritten.xfer := by
  rw [writeTrackByte_eq]
  split <;> exact streamByte_data_place hst

variable (hp : s.seq.phase = .transferByte)
include hp

theorem writeTrackByte_more (h : 1 < s.xfer.byteCountRemaining) : writeTrackByte s = s.byteWritten.setDrq.awaitByte := by
  have hstream := streamByte_more hst h
  rw [writeTrackByte_goes_on (by rw [hstream, State.byteWritten_seq, hp]), hstream]

theorem writeTrackByte_blockEnded (h : s.xfer.byteCountRemaining = 1)
    (hbudget : (s.regs.sector + 1).toNat < s.xfer.sectorCount) : writeTrackByte s = s.blockEnded.setDrq.awaitByte := by
  have hstream := streamByte_blockEnded hst h hbudget
  rw [writeTrackByte_goes_on (by rw [hstream, State.blockEnded_seq, hp]), hstream]

omit hp in
theorem writeTrackByte_trackDone (h : s.xfer.byteCountRemaining = 1)
    (hbudget : s.xfer.sectorCount ≤ (s.regs.sector + 1).toNat) : writeTrackByte s = s.blockEnded.complete true := by
  have hstream := streamByte_trackDone hst h hbudget
  rw [writeTrackByte_stops (by simp [hstream]), hstream]

end DataBlockExpiry

theorem request_end_busy (v : Byte) : (v &&& 0xFD) &&& 0xFE = v &&& 0xFC := by
  rw [BitVec.and_assoc]
  rfl

/-- Settles O34, by what is left of the block and of the track's budget. -/
theorem formatDataRule : Obligations.FormatDataRule := by
  intro n s hp h hc hst hcount
  let v := s.setCycles (s.seq.cyclesRemaining - n)
  have hpoll : poll n s = .next (writeTrackByte v) :=
    (poll_transferByte hp h).trans (doTransferByte_writeTrack (s := v) hc)
  obtain ⟨hdisks, hxfer⟩ := writeTrackByte_data_place (s := v) hst
  refine ⟨writeTrackByte v, hpoll, oneByteWritten_of_disks (s := v) hdisks, hxfer.trans v.byteWritten_xfer, fun hmore => ?more,
    fun hlast hbudget => ?blockEnded, fun hlast hbudget => ?trackDone⟩
  case more =>
    rw [writeTrackByte_more (s := v) hst hp hmore,
      State.awaitByte_of_cfg (s := s) (u := v.byteWritten.setDrq) v.byteWritten_frame.cfg]
    refine ⟨(s.setCycles_frame _).trans (v.byteWritten_frame.trans ((State.setDrq_frame _).trans (State.setCycles_frame _ _))),
      v.byteWritten_wt, ?_, by simp [State.setCycles, v]⟩
    rw [State.setCycles_regs, State.setDrq_eq, State.byteWritten_regs]
    simp only [← putBit_request_set, request_again]
    rfl
  case blockEnded =>
    rw [writeTrackByte_blockEnded (s := v) hst hp hlast hbudget,
      State.awaitByte_of_cfg (s := s) (u := v.blockEnded.setDrq) v.blockEnded_frame.cfg]
    refine ⟨(s.setCycles_frame _).trans (v.blockEnded_frame.trans ((State.setDrq_frame _).trans (State.setCycles_frame _ _))),
      rfl, ?_, by simp [State.setCycles, v]⟩
    rw [State.setCycles_regs, State.setDrq_eq, State.blockEnded_regs]
    simp only [← putBit_request_set, request_again]
    rfl
  case trackDone =>
    rw [writeTrackByte_trackDone (s := v) hst hlast hbudget]
    refine ⟨by rw [State.complete_wt]; rfl, ?_, by rw [State.complete_seq_eq, State.blockEnded_seq]; rfl, ?_,
      by rw [State.complete_latch, v.blockEnded_frame.latch]; rfl,
      by rw [State.complete_stepDirection, v.blockEnded_frame.direction]; rfl⟩
    · rw [State.complete_regs_eq, State.blockEnded_regs]
      simp only [putBit_busy_clear, request_end_busy, Bool.or_true]
      rfl
    · rw [State.complete_drives, State.selected, State.drive, v.blockEnded_frame.drives, v.blockEnded_frame.board,
        v.blockEnded_frame.cfg]
      rfl

end Sys2Proof.Machine
end

section
/-! The invariant along every run (spec/10_state.md R22, R26, R28, R30, R33, R41; spec/41_sequencer.md R145): it holds at reset,
every event keeps it, and in its states exactly the legal events have a next state (spec/70_reset_and_hazards.md R310). -/

namespace Sys2Proof.Machine

/-- Settles O44: at power-on nothing is in progress and the drives are empty. -/
theorem invariantAtReset : Obligations.InvariantAtReset where
  busy_iff := by decide
  not_completing := by decide
  active_iff := by decide
  seeking_class := by decide
  settling_class := by decide
  prepare_class := by decide
  transfer_class := by decide
  typeI_kind := by decide
  drq_status := by decide
  typeI_no_drq := by decide
  transfer_drq := by decide
  no_crc_error := by decide
  cycles_nonneg := by decide
  confusion_phase := by decide
  step_rate := by decide
  id_index := by decide
  id_size := by decide
  context := nofun
  head_in_range d := by cases d <;> decide
  images_canonical d k := by cases d <;> cases k <;> rfl

/-! ### Changes that leave the sequencer position alone -/

/-- The invariant looks at the registers only through the basic clauses, Busy, SECTOR and the two faces of the request. -/
theorem Invariant.of_same_position {s t : State} (h : Invariant s) (b : Basic t) (hseq : t.seq = s.seq)
    (hlatch : t.latch = s.latch) (hxfer : t.xfer = s.xfer) (hwt : t.wt = s.wt) (hsector : t.regs.sector = s.regs.sector)
    (hbusy : t.statusBit busyBit = s.statusBit busyBit)
    (hI : s.seq.activeCommandClass = .typeI → t.regs.drq = false)
    (htransfer : isTransferClass s.seq.activeCommandClass = true → t.statusBit requestBit = t.regs.drq) : Invariant t where
  busy_iff := by rw [hbusy, hseq]; exact h.busy_iff
  not_completing := by rw [hseq]; exact h.not_completing
  active_iff := by rw [hseq]; exact h.active_iff
  seeking_class := by rw [hseq]; exact h.seeking_class
  settling_class := by rw [hseq]; exact h.settling_class
  prepare_class := by rw [hseq]; exact h.prepare_class
  transfer_class := by rw [hseq]; exact h.transfer_class
  typeI_kind := by rw [hseq, hlatch]; exact h.typeI_kind
  drq_status := b.drq_status
  typeI_no_drq := by rw [hseq]; exact hI
  transfer_drq := by rw [hseq]; exact htransfer
  no_crc_error := b.no_crc_error
  cycles_nonneg := by rw [hseq]; exact h.cycles_nonneg
  confusion_phase := by rw [hseq]; exact h.confusion_phase
  step_rate := b.step_rate
  id_index := b.id_index
  id_size := b.id_size
  context hp := by
    have c := h.context (by rw [← hseq]; exact hp)
    refine ⟨?_, ?_, ?_, ?_, ?_, ?_⟩ <;> simp only [hseq, hxfer, hwt, hsector]
    exacts [c.count_pos, c.count_le, c.size_pos, c.sector_on_track, c.bytes_left, c.header_bytes]
  head_in_range := b.head_in_range
  images_canonical := b.images_canonical

/-- Neither the queue nor what the last event answered or signalled matters to the invariant. -/
theorem Invariant.withIo {s : State} (h : Invariant s) (io : Bench) : Invariant { s with io := io } :=
  h.of_same_position (h.basic.congr rfl rfl rfl rfl rfl rfl) rfl rfl rfl rfl rfl rfl h.typeI_no_drq h.transfer_drq

theorem Invariant.eventState {s : State} (h : Invariant s) : Invariant s.eventState := h.withIo _

theorem Invariant.setIntrq {s : State} (h : Invariant s) (b : Bool) : Invariant (s.setIntrq b) :=
  h.of_same_position (h.basic.setIntrq b) rfl rfl rfl rfl rfl rfl h.typeI_no_drq h.transfer_drq

theorem Invariant.answer {s : State} (h : Invariant s) (b : Byte) : Invariant (s.answer b) := h.withIo _

theorem Invariant.setData {s : State} (h : Invariant s) (v : Byte) : Invariant (s.setData v) :=
  h.of_same_position (h.basic.setData v) rfl rfl rfl rfl rfl rfl h.typeI_no_drq h.transfer_drq

/-- Withdrawing a request clears the line and its bit together (R153). -/
theorem Invariant.clearDrq {s : State} (h : Invariant s) : Invariant s.clearDrq := by
  refine h.of_same_position h.basic.clearDrq (by simp) (by simp) (by simp) (by simp) (by simp) (by simp) (by simp) fun hc => ?_
  rw [State.statusBit_clearDrq, State.clearDrq_drq]
  cases hd : s.regs.drq
  · simpa [hd] using h.transfer_drq hc
  · simp

/-- The toggle of a status read flips a bit that is free during Type I (R61). -/
theorem Invariant.toggleIndexBit {s : State} (h : Invariant s) : Invariant s.toggleIndexBit := by
  unfold State.toggleIndexBit
  split
  · next hc =>
    have hdrq : s.regs.drq = false := h.typeI_no_drq hc
    have hbasic : Basic (s.setStatusBit requestBit (!s.statusBit requestBit)) :=
      ⟨fun hd => absurd (hdrq.symm.trans hd) (by decide), by simpa using h.no_crc_error, h.step_rate, h.id_index, h.id_size,
        h.head_in_range, h.images_canonical⟩
    refine h.of_same_position hbasic rfl rfl rfl rfl rfl (by simp) (fun _ => hdrq) fun htransfer => ?_
    exact absurd hc (isTransferClass_ne_typeI htransfer)
  · exact h

theorem hostRead_invariant {s : State} (reg : HostRegister) (h : Invariant s) : Invariant (hostRead reg s) := by
  cases reg
  · exact (h.toggleIndexBit.setIntrq false).answer _
  · exact h.answer _
  · exact h.answer _
  · exact h.clearDrq.answer _

theorem writeTrackRegister_invariant {v : Byte} {s t : State} (h : Invariant s) (ht : writeTrackRegister v s = .next t) :
    Invariant t := by
  unfold writeTrackRegister at ht
  split at ht <;> cases ht
  next hp => exact h.of_idle hp (h.basic.congr rfl rfl rfl rfl rfl rfl) (h.notBusy hp) hp (.inl rfl)

theorem writeSectorRegister_invariant {v : Byte} {s t : State} (h : Invariant s) (ht : writeSectorRegister v s = .next t) :
    Invariant t := by
  unfold writeSectorRegister at ht
  split at ht <;> cases ht
  next hp => exact h.of_idle hp (h.basic.setSector _) (h.notBusy hp) hp (.inl rfl)

theorem indexPulse_invariant {s t : State} (h : Invariant s) (ht : indexPulse s = .next t) : Invariant t := by
  unfold indexPulse at ht
  split at ht
  · split at ht <;> cases ht
    · next hc =>
      have hp : s.seq.phase = .idle := by
        by_contra hp
        have hactive := h.active_iff.1 hp
        rw [hc] at hactive
        simp [isTransferClass] at hactive
      exact h.of_idle hp (h.basic.congr rfl rfl rfl rfl rfl rfl) (h.notBusy hp) hp (.inr (.inl rfl))
    · exact h
  · cases ht

/-! ### The environment and Reset -/

theorem Basic.updateDisk {s : State} (h : Basic s) (d : DriveNo) (f : DiskImage → DiskImage)
    (hf : ∀ k, Memory.wf ((f (s.disk d)).side k).bytes = true) : Basic (s.updateDisk d f) := by
  refine ⟨h.drq_status, h.no_crc_error, h.step_rate, h.id_index, h.id_size, h.head_in_range, fun e k => ?_⟩
  by_cases hd : d = e
  · subst hd
    simpa [State.disk] using hf k
  · simpa [State.disk, hd] using h.images_canonical e k

theorem environmentChange_basic {c : EnvChange} {s t : State} (h : Basic s) (ht : environmentChange c s = .next t) :
    Basic t := by
  cases c
  case setTracksPerDisk d tracks position =>
    obtain ⟨p, hp, -, rfl⟩ := changeTracksPerDisk_cases ht
    exact h.updateDrive d _ hp
  all_goals cases ht
  case selectDrive | selectHead | selectDensity => exact h.congr rfl rfl rfl rfl rfl rfl
  case setDoor | setDriveWriteProtect | setAvailable => exact h.updateDrive _ _ (h.head_in_range _)
  case insertMedia => exact h.updateDisk _ _ fun k => DiskImage.canonical_wf _ k
  case ejectMedia => exact h.updateDisk _ _ fun k => DiskImage.ejected_wf _ k
  case setImageOpen d _ | setImageWriteProtect d _ | setMediaDensity d _ | setSectorBias d _ =>
    refine h.updateDisk d _ fun k => ?_
    have hcanonical := h.images_canonical d k
    cases k <;> exact hcanonical

theorem environmentChange_invariant {c : EnvChange} {s t : State} (h : Invariant s)
    (ht : environmentChange c s = .next t) : Invariant t := by
  obtain ⟨-, hregs, hseq, hlatch, -, -, hxfer, hwt, -⟩ := environmentChange_controller ht
  have hbit : ∀ j, t.statusBit j = s.statusBit j := fun j => by rw [State.statusBit, hregs]; rfl
  refine h.of_same_position (environmentChange_basic h.basic ht) hseq hlatch hxfer hwt (by rw [hregs]) (hbit _) ?_ ?_
  · rw [hregs]
    exact h.typeI_no_drq
  · rw [hregs, hbit]
    exact h.transfer_drq

theorem resetEvent_invariant {s : State} (h : Invariant s) : Invariant (resetEvent s) where
  busy_iff := by simp [resetEvent, State.statusBit]
  not_completing := by simp [resetEvent]
  active_iff := by simp [resetEvent, isTransferClass]
  seeking_class := nofun
  settling_class := nofun
  prepare_class := nofun
  transfer_class := nofun
  typeI_kind := nofun
  drq_status := nofun
  typeI_no_drq _ := rfl
  transfer_drq := nofun
  no_crc_error := by simp [resetEvent, State.statusBit]
  cycles_nonneg _ := le_rfl
  confusion_phase := nofun
  step_rate := by simp [resetEvent]
  id_index := by simp [resetEvent]
  id_size := nofun
  context := nofun
  head_in_range d := by
    rw [resetEvent_drive]
    exact h.head_in_range d
  images_canonical := h.images_canonical

/-! ### Command writes -/

theorem latchedFields_stepRate {i : Instr} (hi : i.wellFormed = true) : (latchedFields i).stepRateSel < 4 := by
  cases i
  case restore | seek | step | stepin | stepout => exact of_decide_eq_true hi
  all_goals exact Nat.zero_lt_succ 3

/-- A well-formed command that starts a phase is on its way into one (R140). -/
theorem Basic.begun {s : State} (h : Basic s) {i : Instr} (hi : i.wellFormed = true) (hc : startedClass i ≠ .none) :
    Entering (s.begun i) := by
  have haccepted := (acceptCommand_accepted i (latchedFields i) s h (latchedFields_stepRate hi)).setDirection
    (directionAfter i s.stepDirection)
  refine haccepted.entering (startedClass i) _ ((startedClass_active hc).imp_left fun hI => ⟨hI, ?_⟩)
  obtain ⟨hkind, hlatched⟩ := startedClass_typeI hI
  rw [← hlatched] at hkind
  exact hkind

/-- A command that has a next state was written when Idle, or is Force Interrupt (R142). -/
theorem exec_idle {i : Instr} {s t : State} (h : exec i s = .next t) (hi : commandKind i ≠ .forceInterrupt) :
    s.seq.phase = .idle := by
  by_contra hp
  rw [busyWritesFault.1 i s hi hp] at h
  cases h

theorem commandKind_of_starts {i : Instr} (hc : startedClass i ≠ .none) : commandKind i ≠ .forceInterrupt := by
  cases i
  case forceint => exact absurd rfl hc
  all_goals exact nofun

theorem exec_invariant {i : Instr} {s t : State} (hs : Invariant s) (hi : i.wellFormed = true) (h : exec i s = .next t) :
    Invariant t := by
  by_cases hc : startedClass i = .none
  · obtain ⟨x, rfl⟩ | ⟨i3, i2, x, rfl⟩ := startedClass_none hc
    · rw [execRdtrk_idle (exec_idle h (by simp [commandKind]))] at h
      cases h
      exact (acceptCommand_accepted _ _ s hs.basic (by decide)).basic.abort _ (by decide) (by decide) (by decide)
    · rw [execForceint_eq] at h
      cases h
      have hcompleted : Invariant ((s.interrupted (.forceint i3 i2 x)).complete i3) :=
        (hs.basic.congr (t := s.interrupted (.forceint i3 i2 x)) rfl rfl rfl rfl rfl rfl).complete i3
      cases i2
      · exact hcompleted.of_idle (by simp) (hcompleted.basic.congr rfl rfl rfl rfl rfl rfl) (by simp) (by simp)
          (.inr (.inl rfl))
      · exact hcompleted.pending
  · have hp : s.seq.phase = .idle := exec_idle h (commandKind_of_starts hc)
    have hentering := hs.basic.begun hi hc
    rw [exec_starts i s hc hp] at h
    split at h
    · exact hentering.begin_invariant h
    · cases h
      exact hentering.enterPhase_invariant _ _ (.inl rfl)

/-! ### Polls -/

theorem Invariant.movingByte {s : State} (h : Invariant s) (hp : s.seq.phase = .transferByte) (c : Int) :
    MovingByte (s.setCycles c) := by
  have hcontext := h.context hp
  exact ⟨(h.moving hp).setCycles c, hp, hcontext.count_pos, hcontext.count_le, hcontext.size_pos, hcontext.sector_on_track,
    hcontext.bytes_left, hcontext.header_bytes⟩

theorem phaseExpiry_invariant {s t : State} (h : Invariant s) (c : Int) (ht : phaseExpiry (s.setCycles c) = .next t) :
    Invariant t := by
  have hentering : s.seq.phase ≠ .idle → s.seq.phase ≠ .seeking → Entering (s.setCycles c) :=
    fun hp hseek => (h.entering hp hseek).setCycles c
  simp only [phaseExpiry, State.setCycles_phase] at ht
  split at ht
  · next hp =>
    have hready := (hentering (by simp [hp]) (by simp [hp])).setStatusBit spinUpBit true (by decide) (by decide) (by decide)
      (by decide)
    exact hready.begin_invariant ht
  · next hp =>
    cases ht
    have hclass := h.settling_class hp
    refine (hentering (by simp [hp]) (by simp [hp])).enterPhase_invariant .transferPrepare 0 (.inr (.inr ⟨rfl, ?_⟩))
    obtain hread | hwrite := Bool.or_eq_true _ _ ▸ hclass
    · simp [isTransferClass, of_decide_eq_true hread]
    · simp [isTransferClass, of_decide_eq_true hwrite]
  · cases ht
    exact seekExpiry_invariant (h.basic.congr rfl rfl rfl rfl rfl rfl)
  · next hp => exact (hentering (by simp [hp]) (by simp [hp])).doTransferPrepare_invariant (h.prepare_class hp) ht
  · next hp => exact (h.movingByte hp c).doTransferByte_invariant ht
  · cases ht
  · cases ht

theorem poll_invariant {n : Nat} {s t : State} (h : Invariant s) (ht : poll n s = .next t) : Invariant t := by
  rcases Nat.eq_zero_or_pos n with rfl | hn
  · cases ht
  by_cases hp : s.seq.phase = .idle
  · rw [poll_idle hp ht]
    exact spinDownTick_invariant n h hp
  rcases lt_or_ge (n : Int) s.seq.cyclesRemaining with hc | hc
  · rw [poll_counts n s hn hp hc] at ht
    cases ht
    exact h.setCycles _ fun _ => by omega
  · rw [poll_expires n s ⟨hn, hc⟩ hp] at ht
    exact phaseExpiry_invariant h _ ht

/-! ### Every event -/

/-- Every event keeps the invariant. -/
theorem runEvent_invariant {e : Event} {s t : State} (h : Invariant s) (ht : runEvent e s = .next t) : Invariant t := by
  cases e
  case hostRead reg =>
    cases ht
    exact hostRead_invariant reg h
  case hostWrite reg v =>
    cases reg
    case command => exact exec_invariant h (Sys2Proof.decode_wellFormed v) ht
    case track => exact writeTrackRegister_invariant h ht
    case sector => exact writeSectorRegister_invariant h ht
    case data =>
      cases ht
      exact (h.setData v).clearDrq
  case poll n => exact poll_invariant h ht
  case indexPulse => exact indexPulse_invariant h ht
  case environment c => exact environmentChange_invariant h ht
  case reset =>
    cases ht
    exact resetEvent_invariant h

/-- Settles O43: a step is nothing or one event. -/
theorem invariantKept : Obligations.InvariantKept := by
  intro s t h ht
  cases hq : s.io.inputs with
  | nil =>
    rw [step_of_nil hq] at ht
    cases ht
    exact h
  | cons e rest =>
    rw [step_of_cons hq] at ht
    exact runEvent_invariant h.eventState ht

/-! ### Legal events run, and no other (R310, R146, R254, R42) -/

theorem exec_forceInterrupt_completes {i : Instr} (hi : commandKind i = .forceInterrupt) (s : State) :
    ∃ t, exec i s = .next t := by
  cases i
  case forceint i3 i2 x => exact ⟨_, execForceint_eq i3 i2 x s⟩
  all_goals cases hi

/-- A command write runs exactly when Idle, or for Force Interrupt. -/
theorem exec_completes_iff (i : Instr) (s : State) :
    (∃ t, exec i s = .next t) ↔ s.seq.phase = .idle ∨ commandKind i = .forceInterrupt := by
  constructor
  · rintro ⟨t, h⟩
    by_cases hi : commandKind i = .forceInterrupt
    · exact .inr hi
    · exact .inl (exec_idle h hi)
  · rintro (hp | hi)
    · exact exec_completes i hp
    · exact exec_forceInterrupt_completes hi s

/-- An expiry of a state of the invariant has a next state: its phase, class and kind belong together. -/
theorem phaseExpiry_completes {s : State} (h : Invariant s) (hp : s.seq.phase ≠ .idle) (c : Int) :
    ∃ t, phaseExpiry (s.setCycles c) = .next t := by
  simp only [phaseExpiry, State.setCycles_phase]
  split
  · next hspin =>
    have hentering := ((h.entering hp (by simp [hspin])).setCycles c).setStatusBit spinUpBit true (by decide) (by decide)
      (by decide) (by decide)
    exact hentering.begin_completes
  · exact ⟨_, rfl⟩
  · exact ⟨_, rfl⟩
  · next hprepare => exact doTransferPrepare_completes (h.prepare_class hprepare)
  · next htransfer => exact doTransferByte_completes (h.transfer_class htransfer)
  · next hidle => exact absurd hidle hp
  · next hcompleting => exact absurd hcompleting h.not_completing

theorem poll_completes {n : Nat} {s : State} (h : Invariant s) (hn : 1 ≤ n) : ∃ t, poll n s = .next t := by
  by_cases hp : s.seq.phase = .idle
  · exact ⟨_, poll_of_idle hn hp⟩
  rcases lt_or_ge (n : Int) s.seq.cyclesRemaining with hc | hc
  · exact ⟨_, poll_counts n s hn hp hc⟩
  · rw [poll_expires n s ⟨hn, hc⟩ hp]
    exact phaseExpiry_completes h hp _

theorem poll_completes_iff {s : State} (h : Invariant s) (n : Nat) : (∃ t, poll n s = .next t) ↔ 1 ≤ n := by
  refine ⟨?_, poll_completes h⟩
  rintro ⟨t, ht⟩
  rcases Nat.eq_zero_or_pos n with rfl | hn
  · cases ht
  · exact hn

theorem indexPulse_completes_iff (s : State) : (∃ t, indexPulse s = .next t) ↔ s.statusBit motorBit = true := by
  constructor
  · rintro ⟨t, ht⟩
    by_contra hm
    rw [indexPulse, if_neg hm] at ht
    cases ht
  · intro hm
    rw [indexPulse, if_pos hm]
    split <;> exact ⟨_, rfl⟩

theorem changeTracksPerDisk_completes_iff (d : DriveNo) (tracks : TracksPerDisk) (position : Nat) (s : State) :
    (∃ t, changeTracksPerDisk d tracks position s = .next t) ↔
      (s.drive d).trackPosition ≤ trackCount tracks - 1 ∨ position ≤ trackCount tracks - 1 := by
  constructor
  · rintro ⟨t, ht⟩
    obtain ⟨p, hp, rfl | rfl, -⟩ := changeTracksPerDisk_cases ht
    · exact .inl hp
    · exact .inr hp
  · intro h
    simp only [changeTracksPerDisk]
    split
    · exact ⟨_, rfl⟩
    · next hout => exact ⟨_, if_pos (h.resolve_left hout)⟩

/-- In a state of the invariant an event has a next state exactly if it is legal. -/
theorem runEvent_completes_iff {s : State} (h : Invariant s) (e : Event) :
    (∃ t, runEvent e s = .next t) ↔ e.legal s = true := by
  cases e
  case hostRead => exact ⟨fun _ => rfl, fun _ => ⟨_, rfl⟩⟩
  case hostWrite reg v =>
    cases reg
    case command =>
      rw [runEvent, exec_completes_iff, Sys2Proof.commandKind_decode_eq_forceInterrupt, Event.legal, Bool.or_eq_true,
        decide_eq_true_eq, decide_eq_true_eq]
    case track | sector =>
      rw [Event.legal, decide_eq_true_eq]
      refine ⟨fun ⟨t, ht⟩ => ?_, fun hp => ⟨_, if_pos hp⟩⟩
      by_contra hp
      cases (if_neg hp).symm.trans ht
    case data => exact ⟨fun _ => rfl, fun _ => ⟨_, rfl⟩⟩
  case poll n =>
    rw [runEvent, poll_completes_iff h, Event.legal, decide_eq_true_eq]
  case indexPulse => exact indexPulse_completes_iff s
  case environment c =>
    cases c
    case setTracksPerDisk d tracks position =>
      rw [runEvent, environmentChange, changeTracksPerDisk_completes_iff, Event.legal, Bool.or_eq_true, decide_eq_true_eq,
        decide_eq_true_eq]
    all_goals exact ⟨fun _ => rfl, fun _ => ⟨_, rfl⟩⟩
  case reset => exact ⟨fun _ => rfl, fun _ => ⟨_, rfl⟩⟩

/-- Settles O45. -/
theorem legalEventsRun : Obligations.LegalEventsRun := by
  intro s e h hnext
  obtain ⟨rest, hq⟩ := List.head?_eq_some_iff.1 hnext
  rw [step_of_cons hq]
  exact runEvent_completes_iff h.eventState e

end Sys2Proof.Machine
end

section
/-! The phase after every event (spec/41_sequencer.md R140, R143, R144, R154; spec/43_type2_commands.md R205;
spec/44_type3_commands.md R221, R230, R240, R244). -/

namespace Sys2Proof.Machine

/-! ### Command writes -/

/-- `BeginCommandPhase` enters the phase of the class (R143). -/
theorem beginCommandPhase_classEntry {s t : State} (h : beginCommandPhase s = .next t) :
    t.seq.phase = classEntry s.seq.activeCommandClass s.latch.settleFlag := by
  cases hc : s.seq.activeCommandClass
  case typeI =>
    rw [beginCommandPhase_typeI s hc] at h
    exact enterSeeking_phase h
  case none | forceInterrupt =>
    simp only [beginCommandPhase, State.driveOperation_seq, hc] at h
    cases h
  all_goals
    rw [beginCommandPhase_transfer s (by rw [hc]; rfl), hc] at h
    cases h
    rfl

theorem exec_phase {i : Instr} {s t : State} (h : exec i s = .next t) :
    t.seq.phase =
      if startedClass i = .none then .idle
      else if skipsSpinUp s i then classEntry (startedClass i) (latchedFields i).settleFlag
      else .spinUp := by
  split
  · next hc =>
    obtain ⟨x, rfl⟩ | ⟨i3, i2, x, rfl⟩ := startedClass_none hc
    · rw [execRdtrk_idle (exec_idle h (by simp [commandKind]))] at h
      cases h
      exact State.complete_phase _ _
    · rw [execForceint_eq] at h
      cases h
      simp
  · next hc =>
    rw [exec_starts i s hc (exec_idle h (commandKind_of_starts hc))] at h
    split at h
    · next hskip =>
      rw [if_pos hskip]
      exact beginCommandPhase_classEntry h
    · next hskip =>
      rw [if_neg hskip]
      cases h
      rfl

/-! ### The end of TransferPrepare -/

/-- A failed check ends the command; a passed one begins the transfer, but for a Write Track without budget (R154, R240). -/
theorem poll_transferPrepare_phase {n : Nat} {s t : State} (hp : s.seq.phase = .transferPrepare) (h : Expires n s)
    (hc : isTransferClass s.seq.activeCommandClass = true) (ht : poll n s = .next t) :
    t.seq.phase =
      match transferChecks s with
      | .error _ => .idle
      | .ok g =>
        if s.seq.activeCommandClass = .writeTrack ∧ g.sectorCount.val ≤ s.regs.sector.toNat then .idle
        else .transferByte := by
  cases hchecks : transferChecks s with
  | error bit =>
    rw [poll_prepare_error hp h hchecks] at ht
    cases ht
    exact State.complete_phase _ _
  | ok g =>
    rw [poll_prepare_ok hp h hchecks] at ht
    simp only
    cases hcls : s.seq.activeCommandClass
    case none | typeI | forceInterrupt =>
      rw [hcls] at hc
      cases hc
    case typeIIRead =>
      cases (prepareTransfer_readSector n g hcls).symm.trans ht
      rfl
    case typeIIWrite =>
      cases (prepareTransfer_writeSector n g hcls).symm.trans ht
      rfl
    case readAddress =>
      cases (prepareTransfer_readAddress n g hcls).symm.trans ht
      rfl
    case writeTrack =>
      cases (prepareTransfer_writeTrack n g hcls).symm.trans ht
      rcases le_or_gt g.sectorCount.val s.regs.sector.toNat with hpast | hbudget
      · rw [prepareWriteTrack_past hpast, if_pos ⟨rfl, hpast⟩]
        exact State.complete_phase _ _
      · rw [prepareWriteTrack_begins hbudget, if_neg (by omega)]
        rfl

/-! ### The byte expiries -/

/-- The end of a sector ends the command if it is single-sector or the track is done (R205). -/
theorem endOfSector_phase (isWrite : Bool) {s : State} (hp : s.seq.phase = .transferByte) :
    (endOfSector isWrite s).seq.phase =
      if !s.latch.multiSectorFlag || decide (s.xfer.sectorCount ≤ (s.regs.sector + 1).toNat) then .idle
      else .transferByte := by
  cases hm : s.latch.multiSectorFlag
  case false =>
    rw [endOfSector_single isWrite hm]
    simp
  case true =>
    rcases le_or_gt s.xfer.sectorCount (s.regs.sector + 1).toNat with hpast | hnext
    · rw [endOfSector_past isWrite hm hpast, decide_eq_true hpast]
      exact State.complete_phase _ _
    · rw [endOfSector_next isWrite hm hnext, decide_eq_false hnext.not_ge]
      cases isWrite <;> exact hp

section ByteExpiry

variable {s : State} (hp : s.seq.phase = .transferByte)
include hp

theorem readSectorByte_phase (hc : s.seq.activeCommandClass = .typeIIRead) (hcount : 1 ≤ s.xfer.byteCountRemaining) :
    (readSectorByte s).seq.phase = if lastByteOfCommand s then .idle else .transferByte := by
  simp only [lastByteOfCommand, hc]
  rcases hcount.eq_or_lt with hlast | hmore
  · rw [readSectorByte_last hlast.symm, endOfSector_phase false (by rw [State.byteRead_seq, hp]), s.byteRead_frame.latch,
      State.byteRead_xfer, State.byteRead_regs, decide_eq_true hlast.symm, Bool.true_and]
  · rw [readSectorByte_more hmore, decide_eq_false hmore.ne', Bool.false_and]
    simpa using hp

theorem writeSectorByte_phase (hc : s.seq.activeCommandClass = .typeIIWrite) (hcount : 1 ≤ s.xfer.byteCountRemaining) :
    (writeSectorByte s).seq.phase = if lastByteOfCommand s then .idle else .transferByte := by
  simp only [lastByteOfCommand, hc]
  rcases hcount.eq_or_lt with hlast | hmore
  · rw [writeSectorByte_last hlast.symm, endOfSector_phase true (by rw [State.byteWritten_seq, hp]), s.byteWritten_frame.latch,
      State.byteWritten_xfer, State.byteWritten_regs, decide_eq_true hlast.symm, Bool.true_and]
  · rw [writeSectorByte_more hmore, decide_eq_false hmore.ne', Bool.false_and]
    simpa using hp

theorem readAddressByte_phase (hc : s.seq.activeCommandClass = .readAddress) (hcount : 1 ≤ s.xfer.byteCountRemaining) :
    (readAddressByte s).seq.phase = if lastByteOfCommand s then .idle else .transferByte := by
  simp only [lastByteOfCommand, hc]
  rcases hcount.eq_or_lt with hlast | hmore
  · rw [readAddressByte_last hlast.symm, decide_eq_true hlast.symm]
    exact State.complete_phase _ _
  · rw [readAddressByte_more hmore, decide_eq_false hmore.ne']
    simpa using hp

theorem writeTrackByte_phase (hc : s.seq.activeCommandClass = .writeTrack)
    (hcount : s.wt.state = .data → 1 ≤ s.xfer.byteCountRemaining) :
    (writeTrackByte s).seq.phase = if lastByteOfCommand s then .idle else .transferByte := by
  simp only [lastByteOfCommand, hc]
  by_cases hst : s.wt.state = .data
  · rcases (hcount hst).eq_or_lt with hlast | hmore
    · rcases le_or_gt s.xfer.sectorCount (s.regs.sector + 1).toNat with hdone | hbudget
      · rw [writeTrackByte_trackDone hst hlast.symm hdone, if_pos (by simp [hst, hlast.symm]; exact hdone)]
        exact State.complete_phase _ _
      · rw [writeTrackByte_blockEnded hst hp hlast.symm hbudget, decide_eq_false hbudget.not_ge, Bool.and_false]
        simpa using hp
    · rw [writeTrackByte_more hst hp hmore, decide_eq_false hmore.ne', Bool.and_false, Bool.false_and]
      simpa using hp
  · have hseq := streamByte_scans_seq hst
    rw [writeTrackByte_goes_on (by rw [hseq, hp]), decide_eq_false hst, Bool.false_and, Bool.false_and]
    simp [hseq, hp]

theorem doTransferByte_phase {t : State} (hok : TransferContextOk s) (ht : doTransferByte s = .next t) :
    t.seq.phase = if lastByteOfCommand s then .idle else .transferByte := by
  cases hc : s.seq.activeCommandClass
  case typeIIRead =>
    cases (doTransferByte_readSector hc).symm.trans ht
    exact readSectorByte_phase hp hc (hok.bytes_left (.inl (by simp [hc])))
  case typeIIWrite =>
    cases (doTransferByte_writeSector hc).symm.trans ht
    exact writeSectorByte_phase hp hc (hok.bytes_left (.inl (by simp [hc])))
  case readAddress =>
    cases (doTransferByte_readAddress hc).symm.trans ht
    exact readAddressByte_phase hp hc (hok.bytes_left (.inl (by simp [hc])))
  case writeTrack =>
    cases (doTransferByte_writeTrack hc).symm.trans ht
    exact writeTrackByte_phase hp hc fun hst => hok.bytes_left (.inr hst)
  all_goals
    rw [doTransferByte, hc] at ht
    cases ht

end ByteExpiry

/-! ### Polls -/

theorem spinDownTick_seq (n : Nat) (s : State) : (spinDownTick n s).seq = s.seq := by
  rcases Nat.eq_zero_or_pos s.selected.motorSpinDownRemaining with hzero | hpos
  · rw [spinDownTick_stopped n hzero]
  rcases Nat.lt_or_ge n s.selected.motorSpinDownRemaining with hcounts | hstops
  · rw [spinDownTick_counts hcounts]
    rfl
  · rw [spinDownTick_stops hpos hstops]
    rfl

theorem poll_pos {n : Nat} {s t : State} (h : poll n s = .next t) : 1 ≤ n := by
  rcases Nat.eq_zero_or_pos n with rfl | hn
  · cases h
  · exact hn

theorem poll_settling {n : Nat} {s : State} (hp : s.seq.phase = .settling) (h : Expires n s) :
    poll n s = .next (s.enterPhase .transferPrepare 0) := by
  rw [waitsCount.2 n s hp h]
  rfl

/-- Settles O46, event by event and, for a poll, phase by phase. -/
theorem phaseTransitions : Obligations.PhaseTransitions := by
  refine ⟨rfl, fun e s t hs h => ?_⟩
  cases e
  case hostRead reg =>
    cases h
    exact hostRead_phase reg s
  case hostWrite reg v =>
    cases reg
    case command => exact exec_phase h
    case track => exact writeTrackRegister_phase h
    case sector => exact writeSectorRegister_phase h
    case data =>
      cases h
      simp [writeDataRegister]
  case indexPulse => exact indexPulse_phase h
  case environment => exact environmentChange_phase h
  case reset =>
    cases h
    rfl
  case poll n =>
    have hn : 1 ≤ n := poll_pos h
    have hidle : s.seq.phase = .idle → t.seq.phase = .idle := fun hp => by
      rw [poll_idle hp h, spinDownTick_seq, hp]
    refine ⟨fun hc => ?counts, fun hc => ⟨hidle, fun hp => ?spinUp, fun hp => ?settling, fun hp => ?seeking,
      fun hp => ?prepare, fun hp => ?byte⟩⟩
    case counts =>
      by_cases hp : s.seq.phase = .idle
      · rw [hidle hp, hp]
      · cases (poll_counts n s hn hp hc).symm.trans h
        rfl
    case spinUp => exact beginCommandPhase_classEntry (s := s.spunUp n) ((poll_spinUp hp ⟨hn, hc⟩).symm.trans h)
    case settling =>
      cases (poll_settling hp ⟨hn, hc⟩).symm.trans h
      rfl
    case seeking =>
      cases (poll_seeking hp ⟨hn, hc⟩).symm.trans h
      rw [seekExpiry_seq]
    case prepare => exact poll_transferPrepare_phase hp ⟨hn, hc⟩ (hs.prepare_class hp) h
    case byte =>
      exact doTransferByte_phase (s := s.setCycles (s.seq.cyclesRemaining - n)) hp (hs.movingByte hp _).context
        ((poll_transferByte hp ⟨hn, hc⟩).symm.trans h)

end Sys2Proof.Machine
end

section
/-! What the controller's own work can change (spec/10_state.md R21 to R26; spec/20_memory.md R66; spec/60_exceptions.md R263,
R270, R271, R282): said once for the entry of a command's phase and once for every poll of a busy state. -/

namespace Sys2Proof.Machine

/-- Seeking is entered without confusion: the one moment at which TRACK and a head move (R180, R187). -/
structure SeekEntered (s t : State) : Prop where
  enters : t.seq.phase = .seeking
  before : s.seq.phase ≠ .seeking
  unconfused : seekConfused s = false

/-- What a poll of a busy state can do to what the host, the drives and the images show. -/
structure PollEffect (s t : State) : Prop where
  cmd : t.regs.cmd = s.regs.cmd
  track : t.regs.track ≠ s.regs.track → SeekEntered s t
  sector : t.regs.sector ≠ s.regs.sector →
    s.seq.phase = .transferByte ∧ s.seq.activeCommandClass ≠ .readAddress ∧ t.regs.sector = s.regs.sector + 1
  data : t.regs.data ≠ s.regs.data →
    s.seq.phase = .transferByte ∧ (s.seq.activeCommandClass = .typeIIRead ∨ s.seq.activeCommandClass = .readAddress)
  intrq_kept : s.regs.intrq = true → t.regs.intrq = true
  intrq_rises : s.regs.intrq = false → t.regs.intrq = true → t.seq.phase = .idle
  drq_rises : s.regs.drq = false → t.regs.drq = true →
    s.seq.phase = .transferByte ∨ (s.seq.phase = .transferPrepare ∧ isWriteClass s.seq.activeCommandClass = true)
  drq_falls : s.regs.drq = true → t.regs.drq = false →
    s.seq.phase = .transferByte ∧ isWriteClass s.seq.activeCommandClass = true ∧ t.seq.phase = .idle
  error : s.statusBit errorBit = true → t.statusBit errorBit = true
  lostData : s.seq.phase ≠ .seeking → s.statusBit lostDataBit = true → t.statusBit lostDataBit = true
  writeProtect : s.seq.phase ≠ .seeking → s.statusBit writeProtectBit = true → t.statusBit writeProtectBit = true
  others : ∀ d, d ≠ s.board.selDrive → t.drive d = s.drive d
  position : ∀ d, (t.drive d).trackPosition ≠ (s.drive d).trackPosition → d = s.board.selDrive ∧ SeekEntered s t
  image : ∀ d k offset, t.imageByte d k offset ≠ s.imageByte d k offset →
    s.seq.phase = .transferByte ∧
      (s.seq.activeCommandClass = .typeIIWrite ∨ (s.seq.activeCommandClass = .writeTrack ∧ s.wt.state = .data)) ∧
      d = s.xfer.drive ∧ k = s.xfer.head ∧ offset = s.xfer.offset ∧ t.imageByte d k offset = some s.regs.data

/-- The remaining cycles play no part in the effect. -/
theorem PollEffect.of_setCycles {s t : State} {c : Int} (h : PollEffect (s.setCycles c) t) : PollEffect s t :=
  ⟨h.cmd, fun hne => ⟨(h.track hne).enters, (h.track hne).before, (h.track hne).unconfused⟩, h.sector, h.data, h.intrq_kept,
    h.intrq_rises, h.drq_rises, h.drq_falls, h.error, h.lostData, h.writeProtect, h.others,
    fun d hne => ⟨(h.position d hne).1, (h.position d hne).2.enters, (h.position d hne).2.before,
      (h.position d hne).2.unconfused⟩, h.image⟩

/-! ### Drives -/

/-- No head moves and the drives that are not selected are as they were. -/
structure HeadsStill (s t : State) : Prop where
  others : ∀ d, d ≠ s.board.selDrive → t.drive d = s.drive d
  position : ∀ d, (t.drive d).trackPosition = (s.drive d).trackPosition

theorem HeadsStill.of_drives {s t : State} (h : t.drives = s.drives) : HeadsStill s t :=
  ⟨fun d _ => by rw [State.drive, h]; rfl, fun d => by rw [State.drive, h]; rfl⟩

/-- An update of the selected drive's record that keeps the position. -/
theorem HeadsStill.of_set {s t : State} {D : DriveUnit} (h : t.drives = s.drives.set s.board.selDrive D)
    (hD : D.trackPosition = s.selected.trackPosition) : HeadsStill s t := by
  refine ⟨fun d hd => ?_, fun d => ?_⟩
  · rw [State.drive, h, PerDrive.get_set, if_neg (Ne.symm hd)]
    rfl
  · rw [State.drive, h, PerDrive.get_set]
    split
    · next hd => rw [hD, ← hd]; rfl
    · rfl

theorem HeadsStill.of_completed {s t : State} (h : t.drives = drivesAfterComplete s) : HeadsStill s t :=
  .of_set h rfl

/-- The effect of a poll that leaves CMD, TRACK, SECTOR, DATA, the heads and the images alone. -/
theorem PollEffect.of_still {s t : State}
    (hregs : t.regs = { s.regs with status := t.regs.status, intrq := t.regs.intrq, drq := t.regs.drq })
    (hheads : HeadsStill s t) (hdisks : t.disks = s.disks)
    (hintrq : t.regs.intrq = s.regs.intrq ∨ (t.regs.intrq = true ∧ t.seq.phase = .idle))
    (hdrq : t.regs.drq = s.regs.drq ∨
      (t.regs.drq = true ∧ s.seq.phase = .transferPrepare ∧ isWriteClass s.seq.activeCommandClass = true))
    (herror : s.statusBit errorBit = true → t.statusBit errorBit = true)
    (hbits : s.seq.phase ≠ .seeking → ∀ j, j = lostDataBit ∨ j = writeProtectBit →
      s.statusBit j = true → t.statusBit j = true) : PollEffect s t where
  cmd := by rw [hregs]
  track hne := absurd (by rw [hregs]) hne
  sector hne := absurd (by rw [hregs]) hne
  data hne := absurd (by rw [hregs]) hne
  intrq_kept hup := hintrq.elim (fun h => h.trans hup) (fun h => h.1)
  intrq_rises hdown hup := hintrq.elim (fun h => absurd (hdown.symm.trans (h.symm.trans hup)) (by decide)) (fun h => h.2)
  drq_rises hdown hup := hdrq.elim (fun h => absurd (hdown.symm.trans (h.symm.trans hup)) (by decide)) (fun h => .inr h.2)
  drq_falls hup hdown := hdrq.elim (fun h => absurd (hup.symm.trans (h.symm.trans hdown)) (by decide))
    (fun h => absurd (h.1.symm.trans hdown) (by decide))
  error := herror
  lostData hp := hbits hp _ (.inl rfl)
  writeProtect hp := hbits hp _ (.inr rfl)
  others := hheads.others
  position d hne := absurd (hheads.position d) hne
  image d k offset hne := absurd (imagesUnchanged_of_disks hdisks d k offset) hne

/-! ### The entry of a command's own phase (R143) -/

/-- What `BeginCommandPhase` can do: the head is loaded, and for a Type I command TRACK and the head may move. -/
structure PhaseBegun (s t : State) : Prop where
  regs : t.regs = { s.regs with status := t.regs.status, track := t.regs.track }
  bits : ∀ j, s.statusBit j = true → t.statusBit j = true
  disks : t.disks = s.disks
  others : ∀ d, d ≠ s.board.selDrive → t.drive d = s.drive d
  track : t.regs.track ≠ s.regs.track → t.seq.phase = .seeking ∧ seekConfused s = false
  position : ∀ d, (t.drive d).trackPosition ≠ (s.drive d).trackPosition →
    d = s.board.selDrive ∧ t.seq.phase = .seeking ∧ seekConfused s = false

theorem headsStill_loadHead (s : State) : HeadsStill s (s.driveOperation DriveUnit.loadHead) :=
  .of_set (drives_loaded s) rfl

/-- A state reached by loading the head alone, but for the status register and the sequencer. -/
theorem PhaseBegun.of_loaded {s t : State} (hregs : t.regs = { s.regs with status := t.regs.status })
    (hbits : ∀ j, s.statusBit j = true → t.statusBit j = true) (hdisks : t.disks = s.disks)
    (hdrives : t.drives = (s.driveOperation DriveUnit.loadHead).drives) : PhaseBegun s t := by
  have hheads : HeadsStill s t := .of_set (hdrives.trans (drives_loaded s)) rfl
  have htrack : t.regs.track = s.regs.track := by rw [hregs]
  exact ⟨by rw [htrack]; exact hregs, hbits, hdisks, hheads.others, fun hne => absurd htrack hne,
    fun d hne => absurd (hheads.position d) hne⟩

theorem statusBit_spinUp_set {s t : State} (h : t.regs.status = putBit s.regs.status spinUpBit true) (j : Nat)
    (hj : s.statusBit j = true) : t.statusBit j = true := by
  rw [State.statusBit, h, putBit_getLsbD _ _ _ _ (by decide)]
  split
  · rfl
  · exact hj

/-- The entry of Seeking, in both of its forms. -/
theorem enterSeeking_begun {s t : State} (h : enterSeeking (s.driveOperation DriveUnit.loadHead) = .next t) :
    PhaseBegun s t := by
  have hphase := enterSeeking_phase h
  obtain ⟨-, rfl⟩ | ⟨hconf, m, -, hmoved, rfl⟩ := enterSeeking_cases _ _ h
  · exact .of_loaded rfl (statusBit_spinUp_set rfl) rfl rfl
  · have hunconfused : seekConfused s = false := hconf
    have hstate : m.finish.regs = { s.regs with status := putBit s.regs.status spinUpBit true, track := m.target } := by
      rw [Move.finish, hmoved.eq]
      rfl
    have hothers : ∀ d, d ≠ s.board.selDrive → m.finish.drive d = s.drive d := fun d hd =>
      (hmoved.other d hd).trans ((headsStill_loadHead s).others d hd)
    refine ⟨by rw [hstate], statusBit_spinUp_set (by rw [hstate]), ?disks, hothers, fun _ => ⟨hphase, hunconfused⟩,
      fun d hne => ⟨?selected, hphase, hunconfused⟩⟩
    case disks =>
      rw [Move.finish, hmoved.eq]
      rfl
    case selected =>
      by_contra hd
      exact hne (by rw [hothers d hd])

theorem beginCommandPhase_begun {s t : State} (h : beginCommandPhase s = .next t) : PhaseBegun s t := by
  cases hc : s.seq.activeCommandClass
  case typeI =>
    rw [beginCommandPhase_typeI s hc] at h
    exact enterSeeking_begun h
  case none | forceInterrupt =>
    simp only [beginCommandPhase, State.driveOperation_seq, hc] at h
    cases h
  all_goals
    rw [beginCommandPhase_transfer s (by rw [hc]; rfl)] at h
    cases h
    exact .of_loaded rfl (fun _ hj => hj) rfl rfl

/-! ### The end of SpinUp, of Settling and of Seeking -/

theorem poll_spinUp_effect {n : Nat} {s t : State} (hp : s.seq.phase = .spinUp) (h : beginCommandPhase (s.spunUp n) = .next t) :
    PollEffect s t := by
  obtain ⟨hregs, hbits, hdisks, hothers, htrack, hposition⟩ := beginCommandPhase_begun h
  have hbit : ∀ j, s.statusBit j = true → t.statusBit j = true := fun j hj =>
    hbits j (statusBit_spinUp_set (t := s.spunUp n) rfl j hj)
  have hentered : t.seq.phase = .seeking ∧ seekConfused (s.spunUp n) = false → SeekEntered s t := fun hseek =>
    ⟨hseek.1, by simp [hp], hseek.2⟩
  have hintrq : t.regs.intrq = s.regs.intrq := by rw [hregs]; rfl
  have hdrq : t.regs.drq = s.regs.drq := by rw [hregs]; rfl
  exact {
    cmd := by rw [hregs]; rfl
    track := fun hne => hentered (htrack hne)
    sector := fun hne => absurd (by rw [hregs]; rfl) hne
    data := fun hne => absurd (by rw [hregs]; rfl) hne
    intrq_kept := fun hup => hintrq.trans hup
    intrq_rises := fun hdown hup => absurd (hdown.symm.trans (hintrq.symm.trans hup)) (by decide)
    drq_rises := fun hdown hup => absurd (hdown.symm.trans (hdrq.symm.trans hup)) (by decide)
    drq_falls := fun hup hdown => absurd (hup.symm.trans (hdrq.symm.trans hdown)) (by decide)
    error := hbit _
    lostData := fun _ => hbit _
    writeProtect := fun _ => hbit _
    others := hothers
    position := fun d hne => ⟨(hposition d hne).1, hentered (hposition d hne).2⟩
    image := fun d k offset hne => absurd (imagesUnchanged_of_disks (s := s) hdisks d k offset) hne }

theorem poll_settling_effect (s : State) : PollEffect s (s.enterPhase .transferPrepare 0) :=
  .of_still rfl (.of_drives rfl) rfl (.inl rfl) (.inl rfl) id fun _ _ _ => id

theorem setCycles_effect (s : State) (c : Int) : PollEffect s (s.setCycles c) :=
  .of_still rfl (.of_drives rfl) rfl (.inl rfl) (.inl rfl) id fun _ _ _ => id

/-- The end of Seeking keeps a Seek Error and reports the sensors in bits 2 and 6 (R186). -/
theorem seekExpiry_effect {s : State} (hp : s.seq.phase = .seeking) : PollEffect s (seekExpiry s) := by
  refine .of_still (by rw [seekExpiry_regs]) (.of_completed (seekExpiry_drives s)) (seekExpiry_rest s).disks
    (.inr ⟨by rw [seekExpiry_regs], by rw [seekExpiry_seq]⟩) (.inl (by rw [seekExpiry_regs])) (fun herror => ?_)
    fun hne => absurd hp hne
  rw [seekExpiry, State.statusBit_complete, if_neg (by decide), State.statusBit_setStatusBit _ _ _ _ (by decide),
    if_neg (by decide), State.statusBit_setStatusBit _ _ _ _ (by decide), if_neg (by decide)]
  split
  · rw [State.statusBit_setError _ _ _ (by decide), if_pos rfl]
  · exact herror

/-! ### The end of TransferPrepare -/

theorem atPrepare_statusBit (s : State) (n j : Nat) (hj : j ≠ recordTypeBit) : (s.atPrepare n).statusBit j = s.statusBit j := by
  rw [State.atPrepare, State.statusBit_setStatusBit _ _ _ _ (by decide), if_neg (Ne.symm hj)]
  rfl

/-- A command that ends with an error keeps the bits that other errors have set (R263). -/
theorem abort_effect {s : State} {n bit : Nat} (hbit : bit = writeProtectBit ∨ bit = errorBit) :
    PollEffect s ((s.atPrepare n).abort bit) := by
  have hbits : ∀ j, j ≠ busyBit → j ≠ recordTypeBit → s.statusBit j = true →
      ((s.atPrepare n).abort bit).statusBit j = true := by
    intro j hbusy hrecord hj
    rw [State.abort, State.statusBit_complete, if_neg (Ne.symm hbusy), State.statusBit_setError _ _ _
      (by rcases hbit with rfl | rfl <;> decide), atPrepare_statusBit s n j hrecord, hj]
    simp
  refine .of_still (by rw [State.abort_regs]; rfl) (.of_completed ?_) (State.abort_rest _ _).disks
    (.inr ⟨by rw [State.abort_regs], State.complete_phase _ _⟩) (.inl (by rw [State.abort_regs]; rfl))
    (hbits _ (by decide) (by decide)) fun _ j hj => hbits j ?_ ?_
  · rw [State.abort, State.complete_drives]
    rfl
  all_goals rcases hj with rfl | rfl <;> decide

theorem latched_statusBit (s : State) (n : Nat) (g : Geometry) (j : Nat) (hj : j ≠ recordTypeBit) :
    (s.latched n g).statusBit j = s.statusBit j := atPrepare_statusBit s n j hj

section Prepared

variable {s : State} (n : Nat) (g : Geometry)

/-- A read begins: only STATUS[5] has fallen. -/
theorem prepareRead_effect {t : State} (hregs : t.regs = (s.latched n g).regs) (hdrives : t.drives = s.drives)
    (hdisks : t.disks = s.disks) : PollEffect s t := by
  have hbits : ∀ j, j ≠ recordTypeBit → s.statusBit j = true → t.statusBit j = true := by
    intro j hj hs
    rw [State.statusBit, hregs]
    exact (latched_statusBit s n g j hj).trans hs
  refine .of_still (by rw [hregs]; rfl) (.of_drives hdrives) hdisks (.inl (by rw [hregs]; rfl)) (.inl (by rw [hregs]; rfl))
    (hbits _ (by decide)) fun _ j hj => hbits j ?_
  rcases hj with rfl | rfl <;> decide

/-- A write begins: the first byte is asked for. -/
theorem prepareWrite_effect {t : State} (hp : s.seq.phase = .transferPrepare)
    (hc : isWriteClass s.seq.activeCommandClass = true) (hregs : t.regs = (s.latched n g).setDrq.regs)
    (hdrives : t.drives = s.drives) (hdisks : t.disks = s.disks) : PollEffect s t := by
  have hbits : ∀ j, j ≠ recordTypeBit → s.statusBit j = true → t.statusBit j = true := by
    intro j hj hs
    have hset : t.statusBit j = (s.latched n g).setDrq.statusBit j := by rw [State.statusBit, hregs]; rfl
    rw [hset, State.statusBit_setDrq, latched_statusBit s n g j hj, hs]
    simp
  refine .of_still (by rw [hregs]; rfl) (.of_drives hdrives) hdisks (.inl (by rw [hregs]; rfl))
    (.inr ⟨by rw [hregs]; rfl, hp, hc⟩) (hbits _ (by decide)) fun _ j hj => hbits j ?_
  rcases hj with rfl | rfl <;> decide

/-- Without budget Write Track completes. -/
theorem prepareWriteTrack_past_effect : PollEffect s ((s.latched n g).complete true) := by
  have hbits : ∀ j, j ≠ busyBit → j ≠ recordTypeBit → s.statusBit j = true →
      ((s.latched n g).complete true).statusBit j = true := by
    intro j hbusy hj hs
    rw [State.statusBit_complete, if_neg (Ne.symm hbusy), latched_statusBit s n g j hj, hs]
  refine .of_still rfl (.of_completed rfl) rfl (.inr ⟨rfl, rfl⟩) (.inl rfl) (hbits _ (by decide) (by decide))
    fun _ j hj => hbits j ?_ ?_
  all_goals rcases hj with rfl | rfl <;> decide

theorem prepareTransfer_effect {t : State} (hp : s.seq.phase = .transferPrepare)
    (h : prepareTransfer (s.latched n g) = .next t) : PollEffect s t := by
  have hclass : (s.latched n g).seq.activeCommandClass = s.seq.activeCommandClass := rfl
  cases hc : s.seq.activeCommandClass
  case typeIIRead =>
    cases (prepareTransfer_readSector n g hc).symm.trans h
    exact prepareRead_effect n g rfl rfl rfl
  case typeIIWrite =>
    cases (prepareTransfer_writeSector n g hc).symm.trans h
    exact prepareWrite_effect n g hp (by rw [hc]; rfl) rfl rfl rfl
  case readAddress =>
    cases (prepareTransfer_readAddress n g hc).symm.trans h
    exact prepareRead_effect n g rfl rfl rfl
  case writeTrack =>
    cases (prepareTransfer_writeTrack n g hc).symm.trans h
    rcases le_or_gt g.sectorCount.val s.regs.sector.toNat with hpast | hbudget
    · rw [prepareWriteTrack_past hpast]
      exact prepareWriteTrack_past_effect n g
    · rw [prepareWriteTrack_begins hbudget]
      exact prepareWrite_effect n g hp (by rw [hc]; rfl) rfl rfl rfl
  all_goals
    rw [prepareTransfer, hclass, hc] at h
    cases h

end Prepared

/-! ### The byte expiries -/

/-- A byte has been moved and the phase still stands. -/
structure ByteMoved (s u : State) : Prop where
  seq : u.seq = s.seq
  cmd : u.regs.cmd = s.regs.cmd
  track : u.regs.track = s.regs.track
  sector : u.regs.sector ≠ s.regs.sector → s.seq.activeCommandClass ≠ .readAddress ∧ u.regs.sector = s.regs.sector + 1
  data : u.regs.data ≠ s.regs.data →
    s.seq.activeCommandClass = .typeIIRead ∨ s.seq.activeCommandClass = .readAddress
  intrq : u.regs.intrq = s.regs.intrq
  request : u.regs.drq = true ∨ isWriteClass s.seq.activeCommandClass = true
  bits : ∀ j, j ≠ requestBit → s.statusBit j = true → u.statusBit j = true
  cfg : u.cfg = s.cfg
  board : u.board = s.board
  drives : u.drives = s.drives
  images : u.disks = s.disks ∨ (u.disks = s.byteWritten.disks ∧
    (s.seq.activeCommandClass = .typeIIWrite ∨ (s.seq.activeCommandClass = .writeTrack ∧ s.wt.state = .data)))

namespace ByteMoved

variable {s u : State}

/-- The byte at the transfer's place is the only one that can have changed. -/
theorem image (h : ByteMoved s u) (hp : s.seq.phase = .transferByte) {t : State} (ht : t.disks = u.disks) (d : DriveNo)
    (k : Head) (offset : Nat) (hne : t.imageByte d k offset ≠ s.imageByte d k offset) :
    s.seq.phase = .transferByte ∧
      (s.seq.activeCommandClass = .typeIIWrite ∨ (s.seq.activeCommandClass = .writeTrack ∧ s.wt.state = .data)) ∧
      d = s.xfer.drive ∧ k = s.xfer.head ∧ offset = s.xfer.offset ∧ t.imageByte d k offset = some s.regs.data := by
  obtain hdisks | ⟨hdisks, hclass⟩ := h.images
  · exact absurd (imagesUnchanged_of_disks (ht.trans hdisks) d k offset) hne
  · obtain ⟨hwritten, hothers⟩ := oneByteWritten_of_disks (ht.trans hdisks)
    by_cases hplace : d = s.xfer.drive ∧ k = s.xfer.head ∧ offset = s.xfer.offset
    · obtain ⟨rfl, rfl, rfl⟩ := hplace
      exact ⟨hp, hclass, rfl, rfl, rfl, hwritten⟩
    · exact absurd (hothers d k offset hplace) hne

/-- The command goes on with the next byte time. -/
theorem goes_on (h : ByteMoved s u) (hp : s.seq.phase = .transferByte) (hdrq : u.regs.drq = true) :
    PollEffect s u.awaitByte where
  cmd := h.cmd
  track hne := absurd h.track hne
  sector hne := ⟨hp, h.sector hne⟩
  data hne := ⟨hp, h.data hne⟩
  intrq_kept hup := h.intrq.trans hup
  intrq_rises hdown hup := absurd (hdown.symm.trans (h.intrq.symm.trans hup)) (by decide)
  drq_rises _ _ := .inl hp
  drq_falls _ hdown := absurd (hdrq.symm.trans hdown) (by decide)
  error := h.bits _ (by decide)
  lostData _ := h.bits _ (by decide)
  writeProtect _ := h.bits _ (by decide)
  others d _ := (HeadsStill.of_drives (t := u.awaitByte) h.drives).others d ‹_›
  position d hne := absurd ((HeadsStill.of_drives (t := u.awaitByte) h.drives).position d) hne
  image d k offset hne := h.image hp (t := u.awaitByte) rfl d k offset hne

/-- The command ends. -/
theorem ends (h : ByteMoved s u) (hp : s.seq.phase = .transferByte) : PollEffect s (u.complete true) := by
  have hheads : HeadsStill s (u.complete true) := by
    refine .of_completed ?_
    rw [State.complete_drives, State.selected, State.drive, h.drives, h.board, h.cfg]
    rfl
  have hbits : ∀ j, j ≠ busyBit → j ≠ requestBit → s.statusBit j = true → (u.complete true).statusBit j = true :=
    fun j hbusy hrequest hj => by
      rw [State.statusBit_complete, if_neg (Ne.symm hbusy)]
      exact h.bits j hrequest hj
  exact {
    cmd := h.cmd
    track := fun hne => absurd h.track hne
    sector := fun hne => ⟨hp, h.sector hne⟩
    data := fun hne => ⟨hp, h.data hne⟩
    intrq_kept := fun _ => rfl
    intrq_rises := fun _ _ => rfl
    drq_rises := fun _ _ => .inl hp
    drq_falls := fun _ hdown => ⟨hp, h.request.resolve_left (fun hup => absurd (hup.symm.trans hdown) (by decide)), rfl⟩
    error := hbits _ (by decide) (by decide)
    lostData := fun _ => hbits _ (by decide) (by decide)
    writeProtect := fun _ => hbits _ (by decide) (by decide)
    others := hheads.others
    position := fun d hne => absurd (hheads.position d) hne
    image := fun d k offset hne => h.image hp (t := u.complete true) rfl d k offset hne }

theorem setDrq (h : ByteMoved s u) : ByteMoved s u.setDrq :=
  ⟨h.seq, h.cmd, h.track, h.sector, h.data, h.intrq, .inl rfl, fun j hj hs => by
    rw [State.statusBit_setDrq, if_neg (Ne.symm hj)]
    exact h.bits j hj hs, h.cfg, h.board, h.drives, h.images⟩

theorem nextSector (h : ByteMoved s u) (hc : s.seq.activeCommandClass ≠ .readAddress) (hu : u.regs.sector = s.regs.sector) :
    ByteMoved s (u.setSector (u.regs.sector + 1)) :=
  ⟨h.seq, h.cmd, h.track, fun _ => ⟨hc, by rw [State.setSector_sector, hu]⟩, h.data, h.intrq, h.request, h.bits, h.cfg,
    h.board, h.drives, h.images⟩

theorem aimAtSector (h : ByteMoved s u) : ByteMoved s u.aimAtSector :=
  ⟨h.seq, h.cmd, h.track, h.sector, h.data, h.intrq, h.request, h.bits, h.cfg, h.board, h.drives, h.images⟩

theorem setRotating (h : ByteMoved s u) (n : Nat) : ByteMoved s (u.setRotating n) :=
  ⟨h.seq, h.cmd, h.track, h.sector, h.data, h.intrq, h.request, h.bits, h.cfg, h.board, h.drives, h.images⟩

/-- The end of a sector (R205): `isWrite` says whether the next byte has to be asked for. -/
theorem endOfSector (h : ByteMoved s u) (hp : s.seq.phase = .transferByte) (hc : s.seq.activeCommandClass ≠ .readAddress)
    (hu : u.regs.sector = s.regs.sector) (isWrite : Bool) (hdrq : isWrite = false → u.regs.drq = true) :
    PollEffect s (Machine.endOfSector isWrite u) := by
  cases hm : u.latch.multiSectorFlag
  case false =>
    rw [endOfSector_single isWrite hm]
    exact h.ends hp
  case true =>
    have hnext := h.nextSector hc hu
    rcases le_or_gt u.xfer.sectorCount (u.regs.sector + 1).toNat with hpast | hmore
    · rw [endOfSector_past isWrite hm hpast]
      exact hnext.ends hp
    · rw [endOfSector_next isWrite hm hmore]
      cases isWrite
      · exact hnext.aimAtSector.goes_on hp (hdrq rfl)
      · exact hnext.aimAtSector.setDrq.goes_on hp rfl

end ByteMoved

/-- Lost Data adds a bit and takes none (R155). -/
theorem lostDataStatus_keeps {s : State} {j : Nat} (h : s.statusBit j = true) : (lostDataStatus s).getLsbD j = true := by
  rw [lostDataStatus]
  split
  · rw [BitVec.getLsbD_or, show s.regs.status.getLsbD j = true from h, Bool.true_or]
  · exact h

theorem lostData_requested_keeps {s : State} {j : Nat} (h : s.statusBit j = true) :
    (lostDataStatus s ||| 0x02).getLsbD j = true := by
  rw [BitVec.getLsbD_or, lostDataStatus_keeps h, Bool.true_or]

theorem lostData_withdrawn_keeps {s : State} {j : Nat} (hj : j ≠ requestBit) (h : s.statusBit j = true) :
    (lostDataStatus s &&& 0xFD).getLsbD j = true := by
  rw [← putBit_request_clear, putBit_getLsbD _ _ _ _ (by decide), if_neg (Ne.symm hj)]
  exact lostDataStatus_keeps h

theorem byteRead_moved {s : State} (hc : s.seq.activeCommandClass = .typeIIRead) : ByteMoved s s.byteRead where
  seq := s.byteRead_seq
  cmd := by rw [s.byteRead_regs]
  track := by rw [s.byteRead_regs]
  sector hne := absurd (by rw [s.byteRead_regs]) hne
  data _ := .inl hc
  intrq := by rw [s.byteRead_regs]
  request := .inl (by rw [s.byteRead_regs])
  bits j _ hj := by
    rw [State.statusBit, s.byteRead_regs]
    exact lostData_requested_keeps hj
  cfg := s.byteRead_frame.cfg
  board := s.byteRead_frame.board
  drives := s.byteRead_frame.drives
  images := .inl s.byteRead_disks

theorem headerByte_moved {s : State} (hc : s.seq.activeCommandClass = .readAddress) : ByteMoved s s.headerByte where
  seq := s.headerByte_seq
  cmd := by rw [s.headerByte_regs]
  track := by rw [s.headerByte_regs]
  sector hne := absurd (by rw [s.headerByte_regs]) hne
  data _ := .inr hc
  intrq := by rw [s.headerByte_regs]
  request := .inl (by rw [s.headerByte_regs])
  bits j _ hj := by
    rw [State.statusBit, s.headerByte_regs]
    exact lostData_requested_keeps hj
  cfg := s.headerByte_frame.cfg
  board := s.headerByte_frame.board
  drives := s.headerByte_frame.drives
  images := .inl s.headerByte_disks

theorem byteWritten_moved {s : State}
    (hc : s.seq.activeCommandClass = .typeIIWrite ∨ (s.seq.activeCommandClass = .writeTrack ∧ s.wt.state = .data)) :
    ByteMoved s s.byteWritten where
  seq := s.byteWritten_seq
  cmd := by rw [s.byteWritten_regs]
  track := by rw [s.byteWritten_regs]
  sector hne := absurd (by rw [s.byteWritten_regs]) hne
  data hne := absurd (by rw [s.byteWritten_regs]) hne
  intrq := by rw [s.byteWritten_regs]
  request := .inr (by rcases hc with h | ⟨h, -⟩ <;> rw [h] <;> rfl)
  bits j hj hs := by
    rw [State.statusBit, s.byteWritten_regs]
    exact lostData_withdrawn_keeps hj hs
  cfg := s.byteWritten_frame.cfg
  board := s.byteWritten_frame.board
  drives := s.byteWritten_frame.drives
  images := .inr ⟨rfl, hc⟩

theorem blockEnded_moved {s : State} (hc : s.seq.activeCommandClass = .writeTrack) (hst : s.wt.state = .data) :
    ByteMoved s s.blockEnded := by
  have hwritten := byteWritten_moved (.inr ⟨hc, hst⟩)
  have hsector : s.byteWritten.regs.sector = s.regs.sector := by rw [s.byteWritten_regs]
  have hnext := hwritten.nextSector (by simp [hc]) hsector
  rw [hsector] at hnext
  exact ⟨hnext.seq, hnext.cmd, hnext.track, hnext.sector, hnext.data, hnext.intrq, hnext.request, hnext.bits, hnext.cfg,
    hnext.board, hnext.drives, hnext.images⟩

/-- Outside a data block a stream byte moves nothing but the scan. -/
theorem scanned_moved {s : State} (hc : s.seq.activeCommandClass = .writeTrack) (hst : s.wt.state ≠ .data) :
    ByteMoved s s.streamByte := by
  obtain ⟨w, x, hform⟩ := streamByte_scans hst
  rw [hform, State.streamed_eq]
  exact {
    seq := rfl
    cmd := rfl
    track := rfl
    sector := fun hne => absurd rfl hne
    data := fun hne => absurd rfl hne
    intrq := rfl
    request := .inr (by rw [hc]; rfl)
    bits := fun j hj hs => lostData_withdrawn_keeps hj hs
    cfg := rfl
    board := rfl
    drives := rfl
    images := .inl rfl }

section ByteEffect

variable {s : State} (hp : s.seq.phase = .transferByte)
include hp

theorem readSectorByte_effect (hc : s.seq.activeCommandClass = .typeIIRead) : PollEffect s (readSectorByte s) := by
  have hmoved := byteRead_moved hc
  have hregs := s.byteRead_regs
  rw [readSectorByte_eq]
  split
  · exact hmoved.endOfSector hp (by simp [hc]) (by rw [hregs]) false (fun _ => by rw [hregs])
  · exact hmoved.goes_on hp (by rw [hregs])

theorem writeSectorByte_effect (hc : s.seq.activeCommandClass = .typeIIWrite) : PollEffect s (writeSectorByte s) := by
  have hmoved := byteWritten_moved (.inl hc)
  rw [writeSectorByte_eq]
  split
  · exact hmoved.endOfSector hp (by simp [hc]) (by rw [s.byteWritten_regs]) true nofun
  · exact hmoved.setDrq.goes_on hp rfl

theorem readAddressByte_effect (hc : s.seq.activeCommandClass = .readAddress) : PollEffect s (readAddressByte s) := by
  have hmoved := headerByte_moved hc
  rw [readAddressByte_eq]
  split
  · exact (hmoved.setRotating _).ends hp
  · exact hmoved.goes_on hp (by rw [s.headerByte_regs])

theorem writeTrackByte_effect (hc : s.seq.activeCommandClass = .writeTrack) : PollEffect s (writeTrackByte s) := by
  by_cases hst : s.wt.state = .data
  · have hblock := blockEnded_moved hc hst
    by_cases hlast : s.xfer.byteCountRemaining - 1 = 0
    · rcases le_or_gt s.xfer.sectorCount (s.regs.sector + 1).toNat with hdone | hbudget
      · have hstream : s.streamByte = s.blockEnded.complete true := by
          rw [streamByte_data hst, dataByte_streamed, if_pos hlast]
          exact if_pos hdone
        rw [writeTrackByte_stops (by simp [hstream]), hstream]
        exact hblock.ends hp
      · have hstream : s.streamByte = s.blockEnded := by
          rw [streamByte_data hst, dataByte_streamed, if_pos hlast]
          exact if_neg hbudget.not_ge
        rw [writeTrackByte_goes_on (by rw [hstream, State.blockEnded_seq, hp]), hstream]
        exact hblock.setDrq.goes_on hp rfl
    · have hstream : s.streamByte = s.byteWritten := by
        rw [streamByte_data hst, dataByte_streamed, if_neg hlast]
      rw [writeTrackByte_goes_on (by rw [hstream, State.byteWritten_seq, hp]), hstream]
      exact (byteWritten_moved (.inr ⟨hc, hst⟩)).setDrq.goes_on hp rfl
  · rw [writeTrackByte_goes_on (by rw [streamByte_scans_seq hst, hp])]
    exact (scanned_moved hc hst).setDrq.goes_on hp rfl

theorem doTransferByte_effect {t : State} (h : doTransferByte s = .next t) : PollEffect s t := by
  cases hc : s.seq.activeCommandClass
  case typeIIRead =>
    cases (doTransferByte_readSector hc).symm.trans h
    exact readSectorByte_effect hp hc
  case typeIIWrite =>
    cases (doTransferByte_writeSector hc).symm.trans h
    exact writeSectorByte_effect hp hc
  case readAddress =>
    cases (doTransferByte_readAddress hc).symm.trans h
    exact readAddressByte_effect hp hc
  case writeTrack =>
    cases (doTransferByte_writeTrack hc).symm.trans h
    exact writeTrackByte_effect hp hc
  all_goals
    rw [doTransferByte, hc] at h
    cases h

end ByteEffect

/-! ### Every poll of a busy state -/

theorem poll_effect {n : Nat} {s t : State} (hp : s.seq.phase ≠ .idle) (h : poll n s = .next t) : PollEffect s t := by
  have hn := poll_pos h
  rcases lt_or_ge (n : Int) s.seq.cyclesRemaining with hc | hc
  · cases (poll_counts n s hn hp hc).symm.trans h
    exact setCycles_effect s _
  have hexpires : Expires n s := ⟨hn, hc⟩
  cases hphase : s.seq.phase
  case idle => exact absurd hphase hp
  case spinUp => exact poll_spinUp_effect hphase ((poll_spinUp hphase hexpires).symm.trans h)
  case seeking =>
    cases (poll_seeking hphase hexpires).symm.trans h
    exact (seekExpiry_effect (s := s.setCycles (s.seq.cyclesRemaining - n)) hphase).of_setCycles
  case settling =>
    cases (poll_settling hphase hexpires).symm.trans h
    exact poll_settling_effect s
  case transferPrepare =>
    cases hchecks : transferChecks s with
    | error bit =>
      cases (poll_prepare_error hphase hexpires hchecks).symm.trans h
      exact abort_effect (transferChecks_error hchecks)
    | ok g => exact prepareTransfer_effect n g hphase ((poll_prepare_ok hphase hexpires hchecks).symm.trans h)
  case transferByte =>
    have hbyte := (poll_transferByte hphase hexpires).symm.trans h
    exact (doTransferByte_effect (s := s.setCycles (s.seq.cyclesRemaining - n)) hphase hbyte).of_setCycles
  case completing =>
    rw [poll_expires n s hexpires hp, phaseExpiry, State.setCycles_phase, hphase] at h
    cases h

end Sys2Proof.Machine
end

section
/-! What each event can change of what the host, the drives and the images show (spec/10_state.md R21 to R26;
spec/20_memory.md R66; spec/60_exceptions.md R263, R270, R271, R282). -/

namespace Sys2Proof.Machine

/-- The bits an error leaves in STATUS (R263). -/
def isErrorBit (j : Nat) : Prop := j = errorBit ∨ j = lostDataBit ∨ j = writeProtectBit

theorem isErrorBit.ne_request {j : Nat} (h : isErrorBit j) : requestBit ≠ j := by
  obtain rfl | rfl | rfl := h <;> decide

theorem isErrorBit.ne_busyMotor {j : Nat} (h : isErrorBit j) : busyBit ≠ j ∧ motorBit ≠ j := by
  obtain rfl | rfl | rfl := h <;> decide

theorem State.clearDrq_errorBit (s : State) {j : Nat} (h : isErrorBit j) : s.clearDrq.statusBit j = s.statusBit j :=
  (s.statusBit_clearDrq j).trans (if_neg fun hdrq => h.ne_request hdrq.2)

/-- What an event of the host, of time or of the board's index input can do. -/
structure EventEffect (e : Event) (s t : State) : Prop where
  cmd : t.regs.cmd ≠ s.regs.cmd → e = .hostWrite .command t.regs.cmd
  track : t.regs.track ≠ s.regs.track → e = .hostWrite .track t.regs.track ∨ SeekEntered s t
  sector : t.regs.sector ≠ s.regs.sector →
    e = .hostWrite .sector (t.regs.sector + sectorBias s) ∨
    ((∃ n, e = .poll n) ∧ s.seq.phase = .transferByte ∧ s.seq.activeCommandClass ≠ .readAddress ∧
      t.regs.sector = s.regs.sector + 1)
  data : t.regs.data ≠ s.regs.data →
    e = .hostWrite .data t.regs.data ∨
    ((∃ n, e = .poll n) ∧ s.seq.phase = .transferByte ∧
      (s.seq.activeCommandClass = .typeIIRead ∨ s.seq.activeCommandClass = .readAddress))
  intrq_rises : s.regs.intrq = false → t.regs.intrq = true →
    (∃ n, e = .poll n ∧ s.seq.phase ≠ .idle ∧ t.seq.phase = .idle) ∨
    (∃ v x, e = .hostWrite .command v ∧ decode v = .rdtrk x) ∨
    (∃ v i2 x, e = .hostWrite .command v ∧ decode v = .forceint true i2 x) ∨
    (e = .indexPulse ∧ s.seq.activeCommandClass = .forceInterrupt)
  intrq_falls : s.regs.intrq = true → t.regs.intrq = false → e = .hostRead .command ∨ ∃ v, e = .hostWrite .command v
  drq_rises : s.regs.drq = false → t.regs.drq = true →
    (∃ n, e = .poll n) ∧
    (s.seq.phase = .transferByte ∨ (s.seq.phase = .transferPrepare ∧ isWriteClass s.seq.activeCommandClass = true))
  drq_falls : s.regs.drq = true → t.regs.drq = false →
    e = .hostRead .data ∨ (∃ v, e = .hostWrite .data v) ∨
    (∃ v, e = .hostWrite .command v ∧ commandKind (decode v) ≠ .forceInterrupt) ∨
    ((∃ n, e = .poll n) ∧ s.seq.phase = .transferByte ∧ isWriteClass s.seq.activeCommandClass = true ∧ t.seq.phase = .idle)
  sticky : (∀ v, e = .hostWrite .command v → commandKind (decode v) = .forceInterrupt) → ∀ j, isErrorBit j →
    (j = errorBit ∨ s.seq.phase ≠ .seeking) → s.statusBit j = true → t.statusBit j = true
  others : ∀ d, d ≠ s.board.selDrive → t.drive d = s.drive d
  position : ∀ d, (t.drive d).trackPosition ≠ (s.drive d).trackPosition → d = s.board.selDrive ∧ SeekEntered s t
  image : ∀ d k offset, t.imageByte d k offset ≠ s.imageByte d k offset →
    (∃ n, e = .poll n) ∧ s.seq.phase = .transferByte ∧
      (s.seq.activeCommandClass = .typeIIWrite ∨ (s.seq.activeCommandClass = .writeTrack ∧ s.wt.state = .data)) ∧
      d = s.xfer.drive ∧ k = s.xfer.head ∧ offset = s.xfer.offset ∧ t.imageByte d k offset = some s.regs.data

/-! ### Polls -/

theorem PollEffect.eventEffect {n : Nat} {s t : State} (hp : s.seq.phase ≠ .idle) (h : PollEffect s t) :
    EventEffect (.poll n) s t where
  cmd hne := absurd h.cmd hne
  track hne := .inr (h.track hne)
  sector hne := .inr ⟨⟨n, rfl⟩, h.sector hne⟩
  data hne := .inr ⟨⟨n, rfl⟩, h.data hne⟩
  intrq_rises hdown hup := .inl ⟨n, rfl, hp, h.intrq_rises hdown hup⟩
  intrq_falls hup hdown := absurd ((h.intrq_kept hup).symm.trans hdown) (by decide)
  drq_rises hdown hup := ⟨⟨n, rfl⟩, h.drq_rises hdown hup⟩
  drq_falls hup hdown := .inr (.inr (.inr ⟨⟨n, rfl⟩, h.drq_falls hup hdown⟩))
  sticky _ j hj hwhen hset := by
    obtain rfl | rfl | rfl := hj
    · exact h.error hset
    · exact h.lostData (hwhen.resolve_left (by decide)) hset
    · exact h.writeProtect (hwhen.resolve_left (by decide)) hset
  others := h.others
  position := h.position
  image d k offset hne := ⟨⟨n, rfl⟩, h.image d k offset hne⟩

/-- An event that moves no head, stores no byte and writes none of CMD, TRACK, SECTOR and DATA. -/
theorem EventEffect.of_still {e : Event} {s t : State} (hheads : HeadsStill s t) (hdisks : t.disks = s.disks)
    (hregs : t.regs = { s.regs with status := t.regs.status, intrq := t.regs.intrq, drq := t.regs.drq })
    (hintrq : t.regs.intrq = s.regs.intrq ∨ (t.regs.intrq = false ∧ e = .hostRead .command) ∨
      (e = .indexPulse ∧ s.seq.activeCommandClass = .forceInterrupt ∧ t.regs.intrq = true))
    (hdrq : t.regs.drq = s.regs.drq ∨ (t.regs.drq = false ∧ e = .hostRead .data))
    (hbits : ∀ j, isErrorBit j → t.statusBit j = s.statusBit j) : EventEffect e s t where
  cmd hne := absurd (by rw [hregs]) hne
  track hne := absurd (by rw [hregs]) hne
  sector hne := absurd (by rw [hregs]) hne
  data hne := absurd (by rw [hregs]) hne
  intrq_rises hdown hup := by
    obtain hkept | ⟨hfalse, -⟩ | ⟨hpulse, hclass, -⟩ := hintrq
    · exact absurd (hdown.symm.trans (hkept.symm.trans hup)) (by decide)
    · exact absurd (hfalse.symm.trans hup) (by decide)
    · exact .inr (.inr (.inr ⟨hpulse, hclass⟩))
  intrq_falls hup hdown := by
    obtain hkept | ⟨-, hread⟩ | ⟨-, -, htrue⟩ := hintrq
    · exact absurd (hup.symm.trans (hkept.symm.trans hdown)) (by decide)
    · exact .inl hread
    · exact absurd (htrue.symm.trans hdown) (by decide)
  drq_rises hdown hup := by
    obtain hkept | ⟨hfalse, -⟩ := hdrq
    · exact absurd (hdown.symm.trans (hkept.symm.trans hup)) (by decide)
    · exact absurd (hfalse.symm.trans hup) (by decide)
  drq_falls hup hdown := by
    obtain hkept | ⟨-, hread⟩ := hdrq
    · exact absurd (hup.symm.trans (hkept.symm.trans hdown)) (by decide)
    · exact .inl hread
  sticky _ j hj _ hset := (hbits j hj).trans hset
  others := hheads.others
  position d hne := absurd (hheads.position d) hne
  image d k offset hne := absurd (imagesUnchanged_of_disks hdisks d k offset) hne

/-- The spin-down of an Idle poll touches the motor bit and the selected drive's countdown and head (R151). -/
theorem spinDownTick_effect (n : Nat) (s : State) : EventEffect (.poll n) s (spinDownTick n s) := by
  rcases Nat.eq_zero_or_pos s.selected.motorSpinDownRemaining with hzero | hpos
  · rw [spinDownTick_stopped n hzero]
    exact .of_still (.of_drives rfl) rfl rfl (.inl rfl) (.inl rfl) fun _ _ => rfl
  rcases Nat.lt_or_ge n s.selected.motorSpinDownRemaining with hcounts | hstops
  · rw [spinDownTick_counts hcounts]
    exact .of_still (.of_set rfl rfl) rfl rfl (.inl rfl) (.inl rfl) fun _ _ => rfl
  · rw [spinDownTick_stops hpos hstops]
    refine .of_still (.of_set (D := (s.selected.spinDown n).unloadHead) ?drives rfl) rfl rfl (.inl rfl) (.inl rfl)
      fun j hj => ?bits
    case drives => simp [State.selected, State.drive]
    case bits => exact (State.statusBit_setStatusBit _ motorBit _ j (by decide)).trans (if_neg hj.ne_busyMotor.2)

theorem poll_eventEffect {n : Nat} {s t : State} (h : poll n s = .next t) : EventEffect (.poll n) s t := by
  by_cases hp : s.seq.phase = .idle
  · cases (poll_of_idle (poll_pos h) hp).symm.trans h
    exact spinDownTick_effect n s
  · exact (poll_effect hp h).eventEffect hp

/-! ### The register window and the index pulse -/

theorem hostRead_effect (reg : HostRegister) (s : State) : EventEffect (.hostRead reg) s (hostRead reg s) := by
  cases reg
  case command =>
    refine .of_still (.of_drives (by simp [hostRead, readStatus])) (by simp [hostRead, readStatus]) ?regs
      (.inr (.inl ⟨rfl, rfl⟩)) (.inl (by simp [hostRead, readStatus])) fun j hj => ?bits
    case regs =>
      simp only [hostRead, readStatus, State.toggleIndexBit]
      split <;> rfl
    case bits => exact (s.statusBit_toggleIndexBit j).trans (if_neg fun h => hj.ne_request h.2)
  case data =>
    refine .of_still (.of_drives (by simp [hostRead, readData])) (by simp [hostRead, readData]) ?regs
      (.inl (by simp [hostRead, readData])) (.inr ⟨by simp [hostRead, readData], rfl⟩) fun j hj => ?bits
    case regs =>
      simp only [hostRead, readData, State.clearDrq]
      split <;> rfl
    case bits => exact s.clearDrq_errorBit hj
  all_goals exact .of_still (.of_drives rfl) rfl rfl (.inl rfl) (.inl rfl) fun _ _ => rfl

theorem indexPulse_effect {s t : State} (h : indexPulse s = .next t) : EventEffect .indexPulse s t := by
  simp only [indexPulse] at h
  split at h
  · split at h
    · next hc =>
      cases h
      exact .of_still (.of_drives rfl) rfl rfl (.inr (.inr ⟨rfl, hc, rfl⟩)) (.inl rfl) fun _ _ => rfl
    · cases h
      exact .of_still (.of_drives rfl) rfl rfl (.inl rfl) (.inl rfl) fun _ _ => rfl
  · cases h

theorem writeTrackRegister_idle {s : State} (h : s.seq.phase = .idle) (v : Byte) :
    writeTrackRegister v s = .next (s.setTrack v) := if_pos h

theorem writeTrackRegister_effect {v : Byte} {s t : State} (h : writeTrackRegister v s = .next t) :
    EventEffect (.hostWrite .track v) s t := by
  by_cases hp : s.seq.phase = .idle
  · cases (writeTrackRegister_idle hp v).symm.trans h
    exact {
      cmd := fun hne => absurd rfl hne
      track := fun _ => .inl rfl
      sector := fun hne => absurd rfl hne
      data := fun hne => absurd rfl hne
      intrq_rises := fun hdown hup => absurd (hdown.symm.trans hup) (by decide)
      intrq_falls := fun hup hdown => absurd (hup.symm.trans hdown) (by decide)
      drq_rises := fun hdown hup => absurd (hdown.symm.trans hup) (by decide)
      drq_falls := fun hup hdown => absurd (hup.symm.trans hdown) (by decide)
      sticky := fun _ _ _ _ hset => hset
      others := fun _ _ => rfl
      position := fun _ hne => absurd rfl hne
      image := fun _ _ _ hne => absurd rfl hne }
  · rw [writeTrackRegister, if_neg hp] at h
    cases h

theorem writeSectorRegister_effect {v : Byte} {s t : State} (h : writeSectorRegister v s = .next t) :
    EventEffect (.hostWrite .sector v) s t := by
  by_cases hp : s.seq.phase = .idle
  · cases (writeSectorRegister_idle hp v).symm.trans h
    exact {
      cmd := fun hne => absurd rfl hne
      track := fun hne => absurd rfl hne
      sector := fun _ => .inl (by rw [State.setSector_sector, BitVec.sub_add_cancel])
      data := fun hne => absurd rfl hne
      intrq_rises := fun hdown hup => absurd (hdown.symm.trans hup) (by decide)
      intrq_falls := fun hup hdown => absurd (hup.symm.trans hdown) (by decide)
      drq_rises := fun hdown hup => absurd (hdown.symm.trans hup) (by decide)
      drq_falls := fun hup hdown => absurd (hup.symm.trans hdown) (by decide)
      sticky := fun _ _ _ _ hset => hset
      others := fun _ _ => rfl
      position := fun _ hne => absurd rfl hne
      image := fun _ _ _ hne => absurd rfl hne }
  · rw [writeSectorRegister, if_neg hp] at h
    cases h

theorem writeDataRegister_effect (v : Byte) (s : State) : EventEffect (.hostWrite .data v) s (writeDataRegister v s) := by
  have hregs : (writeDataRegister v s).regs = { s.regs with
      data := v, status := (writeDataRegister v s).regs.status, drq := (writeDataRegister v s).regs.drq } := by
    simp only [writeDataRegister, State.clearDrq]
    split <;> rfl
  have hintrq : (writeDataRegister v s).regs.intrq = s.regs.intrq := by rw [hregs]
  have hdisks : (writeDataRegister v s).disks = s.disks := by simp [writeDataRegister]
  have hheads : HeadsStill s (writeDataRegister v s) := .of_drives (by simp [writeDataRegister])
  exact {
    cmd := fun hne => absurd (by rw [hregs]) hne
    track := fun hne => absurd (by rw [hregs]) hne
    sector := fun hne => absurd (by rw [hregs]) hne
    data := fun _ => .inl (by rw [hregs])
    intrq_rises := fun hdown hup => absurd (hdown.symm.trans (hintrq.symm.trans hup)) (by decide)
    intrq_falls := fun hup hdown => absurd (hup.symm.trans (hintrq.symm.trans hdown)) (by decide)
    drq_rises := fun _ hup => absurd ((State.clearDrq_drq _).symm.trans hup) (by decide)
    drq_falls := fun _ _ => .inr (.inl ⟨v, rfl⟩)
    sticky := fun _ j hj _ hset => ((s.setData v).clearDrq_errorBit hj).trans hset
    others := hheads.others
    position := fun d hne => absurd (hheads.position d) hne
    image := fun d k offset hne => absurd (imagesUnchanged_of_disks hdisks d k offset) hne }

/-! ### The command write -/

/-- What writing a command, accepted, can do. -/
structure CommandEffect (i : Instr) (s t : State) : Prop where
  regs : t.regs = { s.regs with
    cmd := encode i, track := t.regs.track, status := t.regs.status, intrq := t.regs.intrq, drq := t.regs.drq }
  track : t.regs.track ≠ s.regs.track → SeekEntered s t
  intrq : t.regs.intrq = true → (∃ x, i = .rdtrk x) ∨ ∃ i2 x, i = .forceint true i2 x
  drq : t.regs.drq = (if commandKind i = .forceInterrupt then s.regs.drq else false)
  sticky : commandKind i = .forceInterrupt → ∀ j, isErrorBit j → t.statusBit j = s.statusBit j
  others : ∀ d, d ≠ s.board.selDrive → t.drive d = s.drive d
  position : ∀ d, (t.drive d).trackPosition ≠ (s.drive d).trackPosition → d = s.board.selDrive ∧ SeekEntered s t
  disks : t.disks = s.disks

theorem execForceint_effect (i3 i2 : Bool) (x : Nat) (s : State) :
    CommandEffect (.forceint i3 i2 x) s
      (((s.interrupted (.forceint i3 i2 x)).complete i3).setClass (if i2 then .forceInterrupt else .none)) := by
  have hheads : HeadsStill s (((s.interrupted (.forceint i3 i2 x)).complete i3).setClass
      (if i2 then .forceInterrupt else .none)) := .of_completed (by simp; rfl)
  refine ⟨?regs, fun hne => absurd (by simp; rfl) hne, fun hup => .inr ?intrq, ?drq, fun _ j hj => ?bits, hheads.others,
    fun d hne => absurd (hheads.position d) hne, by simp; rfl⟩
  case regs =>
    rw [State.setClass_regs, State.complete_regs_eq]
    rfl
  case intrq =>
    cases i3
    · exact absurd hup Bool.false_ne_true
    · exact ⟨i2, x, rfl⟩
  case drq => cases i3 <;> rfl
  case bits =>
    rw [State.statusBit_setClass, State.statusBit_complete, if_neg hj.ne_busyMotor.1]
    rfl

theorem execRdtrk_effect (x : Nat) (s : State) :
    CommandEffect (.rdtrk x) s ((acceptCommand (.rdtrk x) (latchTypeIII .readTrack) s).abort errorBit) := by
  have hheads : HeadsStill s ((acceptCommand (.rdtrk x) (latchTypeIII .readTrack) s).abort errorBit) :=
    .of_completed (by simp [State.abort]; rfl)
  refine ⟨?regs, fun hne => absurd (by rw [State.abort_regs]; rfl) hne, fun _ => .inl ⟨x, rfl⟩, ?drq, nofun,
    hheads.others, fun d hne => absurd (hheads.position d) hne,
    ((acceptCommand_rest _ _ s).trans (State.abort_rest _ _)).disks⟩
  case regs =>
    rw [State.abort_regs]
    rfl
  case drq =>
    rw [State.abort_regs]
    rfl

/-- A command that starts a phase waits in SpinUp or begins its own phase at once (R140). -/
theorem exec_started_effect {i : Instr} {s t : State} (hc : startedClass i ≠ .none) (hp : s.seq.phase = .idle)
    (h : exec i s = .next t) : CommandEffect i s t := by
  have hkind : commandKind i ≠ .forceInterrupt := fun hk => by cases i <;> first | exact hc rfl | cases hk
  cases hskip : skipsSpinUp s i
  · cases (exec_spinUp hc hp hskip).symm.trans h
    have hregs : ((s.begun i).enterPhase .spinUp (s.cfg.spinUpTime : Int)).regs = _ := s.begun_regs i
    exact ⟨by rw [hregs], fun hne => absurd rfl hne, fun hup => absurd hup Bool.false_ne_true,
      by rw [if_neg hkind, hregs], fun hk => absurd hk hkind, fun _ _ => rfl, fun _ hne => absurd rfl hne, rfl⟩
  · obtain ⟨hregs, -, hdisks, hothers, htrack, hposition⟩ := beginCommandPhase_begun ((exec_begins hc hp hskip).symm.trans h)
    have hentered : t.seq.phase = .seeking ∧ seekConfused (s.begun i) = false → SeekEntered s t := fun hseek =>
      ⟨hseek.1, by simp [hp], hseek.2⟩
    rw [s.begun_regs] at hregs
    exact ⟨by rw [hregs], fun hne => hentered (htrack hne), fun hup => absurd hup (by rw [hregs]; exact Bool.false_ne_true),
      by rw [if_neg hkind, hregs], fun hk => absurd hk hkind, hothers,
      fun d hne => ⟨(hposition d hne).1, hentered (hposition d hne).2⟩, hdisks⟩

theorem exec_effect {i : Instr} {s t : State} (h : exec i s = .next t) : CommandEffect i s t := by
  by_cases hk : commandKind i = .forceInterrupt
  · cases i <;> cases hk
    next i3 i2 x =>
      cases (execForceint_eq i3 i2 x s).symm.trans h
      exact execForceint_effect i3 i2 x s
  have hp : s.seq.phase = .idle := by
    by_contra hp
    rw [busyWritesFault.1 i s hk hp] at h
    cases h
  by_cases hc : startedClass i = .none
  · obtain ⟨x, rfl⟩ | ⟨i3, i2, x, rfl⟩ := startedClass_none hc
    · cases (execRdtrk_idle hp x).symm.trans h
      exact execRdtrk_effect x s
    · exact absurd rfl hk
  · exact exec_started_effect hc hp h

theorem CommandEffect.eventEffect {v : Byte} {s t : State} (h : CommandEffect (decode v) s t) :
    EventEffect (.hostWrite .command v) s t where
  cmd _ := by rw [h.regs, encode_decode]
  track hne := .inr (h.track hne)
  sector hne := absurd (by rw [h.regs]) hne
  data hne := absurd (by rw [h.regs]) hne
  intrq_rises _ hup := by
    obtain ⟨x, hi⟩ | ⟨i2, x, hi⟩ := h.intrq hup
    · exact .inr (.inl ⟨v, x, rfl, hi⟩)
    · exact .inr (.inr (.inl ⟨v, i2, x, rfl, hi⟩))
  intrq_falls _ _ := .inr ⟨v, rfl⟩
  drq_rises hdown hup := by
    have hdrq := h.drq
    rw [hdown, ite_self] at hdrq
    exact absurd (hdrq.symm.trans hup) (by decide)
  drq_falls hup hdown := by
    refine .inr (.inr (.inl ⟨v, rfl, fun hk => ?_⟩))
    have hdrq := h.drq
    rw [if_pos hk, hup] at hdrq
    exact absurd (hdrq.symm.trans hdown) (by decide)
  sticky hforce j hj _ hset := (h.sticky (hforce v rfl) j hj).trans hset
  others := h.others
  position := h.position
  image d k offset hne := absurd (imagesUnchanged_of_disks h.disks d k offset) hne

/-! ### Every event -/

/-- Reset and the environment aside, an event has one of the effects named. -/
theorem runEvent_effect {e : Event} {s t : State} (h : runEvent e s = .next t) :
    EventEffect e s t ∨ (∃ c, e = .environment c ∧ ControllerUnchanged s t) ∨ (e = .reset ∧ t = resetEvent s) := by
  cases e with
  | hostRead reg =>
    cases h
    exact .inl (hostRead_effect reg s)
  | hostWrite reg v =>
    cases reg with
    | command => exact .inl (exec_effect h).eventEffect
    | track => exact .inl (writeTrackRegister_effect h)
    | sector => exact .inl (writeSectorRegister_effect h)
    | data =>
      cases h
      exact .inl (writeDataRegister_effect v s)
  | poll n => exact .inl (poll_eventEffect h)
  | indexPulse => exact .inl (indexPulse_effect h)
  | environment c => exact .inr (.inl ⟨c, rfl, environmentChange_controller h⟩)
  | reset =>
    cases h
    exact .inr (.inr ⟨rfl, rfl⟩)

/-- Settles O47: Reset keeps the images, and the environment is set aside. -/
theorem imageWriters : Obligations.ImageWriters := by
  intro s t e d k offset h henv hne
  obtain heffect | ⟨c, rfl, -⟩ | ⟨rfl, rfl⟩ := runEvent_effect h
  · exact heffect.image d k offset hne
  · exact absurd rfl (henv c)
  · exact absurd rfl hne

/-- Settles O48. -/
theorem interruptSources : Obligations.InterruptSources := by
  intro e s t h
  refine ⟨fun hdown hup => ?rises, fun n he hbusy hidle => ?ends, fun hup hdown => ?falls⟩
  case rises =>
    obtain heffect | ⟨c, -, hkept⟩ | ⟨-, rfl⟩ := runEvent_effect h
    · exact heffect.intrq_rises hdown hup
    · rw [hkept.regs, hdown] at hup
      cases hup
    · cases hup
  case ends =>
    subst he
    exact poll_raisedIfIdle hbusy h hidle
  case falls =>
    obtain heffect | ⟨c, -, hkept⟩ | ⟨hreset, -⟩ := runEvent_effect h
    · exact (heffect.intrq_falls hup hdown).imp_right .inl
    · rw [hkept.regs, hup] at hdown
      cases hdown
    · exact .inr (.inr hreset)

/-- Settles O49. -/
theorem requestSources : Obligations.RequestSources := by
  intro e s t h
  refine ⟨fun hdown hup => ?rises, fun hup hdown => ?falls⟩
  case rises =>
    obtain heffect | ⟨c, -, hkept⟩ | ⟨-, rfl⟩ := runEvent_effect h
    · exact heffect.drq_rises hdown hup
    · rw [hkept.regs, hdown] at hup
      cases hup
    · cases hup
  case falls =>
    obtain heffect | ⟨c, -, hkept⟩ | ⟨hreset, -⟩ := runEvent_effect h
    · exact (heffect.drq_falls hup hdown).imp_right (.imp_right .inr)
    · rw [hkept.regs, hup] at hdown
      cases hdown
    · exact .inr (.inr (.inl hreset))

/-- The environment moves a head only with a change of the media's geometry (R42). -/
theorem environmentChange_position {c : EnvChange} {s t : State} (h : environmentChange c s = .next t) {d : DriveNo}
    (hne : (t.drive d).trackPosition ≠ (s.drive d).trackPosition) :
    ∃ tracks position, c = .setTracksPerDisk d tracks position ∧ (t.drive d).trackPosition = position := by
  cases c
  case setTracksPerDisk d' tracks position =>
    obtain ⟨p, -, hp, rfl⟩ := changeTracksPerDisk_cases h
    by_cases hd : d' = d
    · subst hd
      simp only [State.drive, State.updateDrive_drives, PerDrive.get_set, if_true] at hne ⊢
      exact ⟨tracks, position, rfl, hp.resolve_left hne⟩
    · simp [State.drive, hd] at hne
  case setDoor d' _ | setAvailable d' _ | setDriveWriteProtect d' _ =>
    cases h
    by_cases hd : d' = d <;> simp [State.drive, hd] at hne
  all_goals
    cases h
    exact absurd rfl hne

/-- Settles O50. -/
theorem driveChanges : Obligations.DriveChanges := by
  refine ⟨fun e s t d h henv hreset hd => ?others, fun e s t d h hne => ?position⟩
  case others =>
    obtain heffect | ⟨c, rfl, -⟩ | ⟨rfl, -⟩ := runEvent_effect h
    · exact heffect.others d hd
    · exact absurd rfl (henv c)
    · exact absurd rfl hreset
  case position =>
    obtain heffect | ⟨c, rfl, -⟩ | ⟨-, rfl⟩ := runEvent_effect h
    · obtain ⟨hd, hseek⟩ := heffect.position d hne
      exact .inl ⟨hd, hseek.enters, hseek.before, hseek.unconfused⟩
    · obtain ⟨tracks, position, rfl, hposition⟩ := environmentChange_position h hne
      exact .inr ⟨tracks, position, rfl, hposition⟩
    · exact absurd (by rw [resetEvent_drive]; rfl) hne

/-- Settles O51. -/
theorem errorBitsSticky : Obligations.ErrorBitsSticky := by
  intro e s t h hreset hforce
  obtain heffect | ⟨c, -, hkept⟩ | ⟨rfl, -⟩ := runEvent_effect h
  · have hsticky := heffect.sticky hforce
    exact ⟨hsticky _ (.inl rfl) (.inl rfl),
      fun hp => ⟨hsticky _ (.inr (.inl rfl)) (.inr hp), hsticky _ (.inr (.inr rfl)) (.inr hp)⟩⟩
  · have hbit : ∀ j, t.statusBit j = s.statusBit j := fun j => State.statusBit_congr s t j (by rw [hkept.regs])
    exact ⟨(hbit _).trans, fun _ => ⟨(hbit _).trans, (hbit _).trans⟩⟩
  · exact absurd rfl hreset

/-- Settles O52. -/
theorem registerWriters : Obligations.RegisterWriters := by
  intro e s t h hreset
  obtain heffect | ⟨c, -, hkept⟩ | ⟨rfl, -⟩ := runEvent_effect h
  · exact ⟨heffect.cmd,
      fun hne => (heffect.track hne).imp_right fun hseek => ⟨hseek.enters, hseek.before, hseek.unconfused⟩,
      heffect.sector, heffect.data⟩
  · rw [hkept.regs]
    exact ⟨fun hne => absurd rfl hne, fun hne => absurd rfl hne, fun hne => absurd rfl hne, fun hne => absurd rfl hne⟩
  · exact absurd rfl hreset

end Sys2Proof.Machine
end

section
/-! What no rule reads: the command register (spec/10_state.md R21), and the head-loaded flag, the door and the `available`
flag (R43; spec/40_drive_unit.md R121). One mask hides either; every rule commutes with it. -/

namespace Sys2Proof.Machine

/-! ### The mask -/

/-- A drive with the head-loaded flag, the door and the `available` flag kept, or all cleared. -/
def DriveUnit.masked (keepHead : Bool) (D : DriveUnit) : DriveUnit :=
  { D with headLoaded := keepHead && D.headLoaded, doorClosed := keepHead && D.doorClosed, available := keepHead && D.available }

/-- A state with CMD, and those three flags of both drives, kept or cleared. -/
def State.masked (keepCommand keepHead : Bool) (s : State) : State :=
  { s with
    regs.cmd := bif keepCommand then s.regs.cmd else 0
    drives := { drive0 := s.drives.drive0.masked keepHead, drive1 := s.drives.drive1.masked keepHead } }

theorem State.masked_command (s : State) : s.masked false true = s.setCommand 0 := rfl

theorem State.masked_headLoad (s : State) : s.masked true false = s.eraseHeadLoad := rfl

theorem mapNext_next (f : State → State) (s : State) : mapNext f (.next s) = .next (f s) := rfl

section Mask

variable (c h : Bool)

@[simp] theorem DriveUnit.masked_masked (D : DriveUnit) : (D.masked h).masked h = D.masked h := by
  cases h <;> rfl

@[simp] theorem State.masked_masked (s : State) : (s.masked c h).masked c h = s.masked c h := by
  cases c <;> cases h <;> rfl

theorem mapNext_masked_masked (r : Result) :
    mapNext (State.masked c h) (mapNext (State.masked c h) r) = mapNext (State.masked c h) r := by
  cases r <;> simp [mapNext]

variable (s : State)

/-! Everything else is seen through the mask. -/

@[simp] theorem State.masked_cfg : (s.masked c h).cfg = s.cfg := rfl
@[simp] theorem State.masked_status : (s.masked c h).regs.status = s.regs.status := rfl
@[simp] theorem State.masked_track : (s.masked c h).regs.track = s.regs.track := rfl
@[simp] theorem State.masked_sector : (s.masked c h).regs.sector = s.regs.sector := rfl
@[simp] theorem State.masked_data : (s.masked c h).regs.data = s.regs.data := rfl
@[simp] theorem State.masked_intrq : (s.masked c h).regs.intrq = s.regs.intrq := rfl
@[simp] theorem State.masked_drq : (s.masked c h).regs.drq = s.regs.drq := rfl
@[simp] theorem State.masked_seq : (s.masked c h).seq = s.seq := rfl
@[simp] theorem State.masked_latch : (s.masked c h).latch = s.latch := rfl
@[simp] theorem State.masked_stepDirection : (s.masked c h).stepDirection = s.stepDirection := rfl
@[simp] theorem State.masked_rotatingSectorCounter : (s.masked c h).rotatingSectorCounter = s.rotatingSectorCounter := rfl
@[simp] theorem State.masked_xfer : (s.masked c h).xfer = s.xfer := rfl
@[simp] theorem State.masked_wt : (s.masked c h).wt = s.wt := rfl
@[simp] theorem State.masked_board : (s.masked c h).board = s.board := rfl
@[simp] theorem State.masked_disks : (s.masked c h).disks = s.disks := rfl
@[simp] theorem State.masked_io : (s.masked c h).io = s.io := rfl
@[simp] theorem State.masked_statusBit (j : Nat) : (s.masked c h).statusBit j = s.statusBit j := rfl
@[simp] theorem State.masked_sectorPastTrack : (s.masked c h).sectorPastTrack = s.sectorPastTrack := rfl
@[simp] theorem State.masked_seekConfused : seekConfused (s.masked c h) = seekConfused s := rfl

@[simp] theorem DriveUnit.masked_trackPosition (D : DriveUnit) : (D.masked h).trackPosition = D.trackPosition := rfl
@[simp] theorem DriveUnit.masked_lastTrack (D : DriveUnit) : (D.masked h).lastTrack = D.lastTrack := rfl
@[simp] theorem DriveUnit.masked_stepSize (D : DriveUnit) : (D.masked h).stepSize = D.stepSize := rfl
@[simp] theorem DriveUnit.masked_isTrack00 (D : DriveUnit) : (D.masked h).isTrack00 = D.isTrack00 := rfl
@[simp] theorem DriveUnit.masked_isWriteProtected (D : DriveUnit) : (D.masked h).isWriteProtected = D.isWriteProtected := rfl
@[simp] theorem DriveUnit.masked_countdown (D : DriveUnit) :
    (D.masked h).motorSpinDownRemaining = D.motorSpinDownRemaining := rfl

/-! ### Drive operations under the mask -/

@[simp] theorem State.drive_masked (d : DriveNo) : (s.masked c h).drive d = (s.drive d).masked h := by
  cases d <;> rfl

@[simp] theorem State.selected_masked : (s.masked c h).selected = s.selected.masked h :=
  s.drive_masked c h s.board.selDrive

/-- A change of a drive's record that commutes with the mask. -/
theorem State.updateDrive_masked (d : DriveNo) {g : DriveUnit → DriveUnit}
    (hg : ∀ D, g (D.masked h) = (g D).masked h) : (s.masked c h).updateDrive d g = (s.updateDrive d g).masked c h := by
  cases d <;> simp only [State.updateDrive, State.masked, PerDrive.set, PerDrive.get, hg]

/-- A change of a drive's record of which the mask hides what it hides of the record. -/
theorem State.masked_updateDrive_masked (d : DriveNo) {g : DriveUnit → DriveUnit}
    (hg : ∀ D, (g (D.masked h)).masked h = (g D).masked h) :
    ((s.masked c h).updateDrive d g).masked c h = (s.updateDrive d g).masked c h := by
  cases c <;> cases d <;>
    simp only [State.updateDrive, State.masked, PerDrive.set, PerDrive.get, hg, DriveUnit.masked_masked, cond_true, cond_false]

/-- An operation of the drive unit that commutes with the mask and sends the same feedback. -/
def MasksDrive (op : DriveUnit → DriveUnit × List Signal) : Prop :=
  ∀ D : DriveUnit, op (D.masked h) = ((op D).1.masked h, (op D).2)

theorem State.driveOperation_masked {op : DriveUnit → DriveUnit × List Signal} (hop : MasksDrive h op) :
    (s.masked c h).driveOperation op = (s.driveOperation op).masked c h := by
  have hselected := hop s.selected
  simp only [State.driveOperation, State.selected_masked, State.masked_board, hselected]
  cases s.board.selDrive <;> simp [State.masked, PerDrive.set]

theorem loadHead_masks : MasksDrive h DriveUnit.loadHead := by
  intro D
  rw [DriveUnit.loadHead_eq, DriveUnit.loadHead_eq]
  cases h <;> rfl

theorem stepIn_masks : MasksDrive h DriveUnit.stepIn := by
  intro D
  have hload := loadHead_masks h D
  simp only [DriveUnit.stepIn, hload, DriveUnit.masked_trackPosition, DriveUnit.masked_lastTrack]
  split <;> rfl

theorem stepOut_masks : MasksDrive h DriveUnit.stepOut := by
  intro D
  have hload := loadHead_masks h D
  simp only [DriveUnit.stepOut, hload, DriveUnit.masked_trackPosition]
  split <;> rfl

theorem stepOnce_masks (dir : StepDirection) : MasksDrive h fun D => D.stepOnce dir := by
  cases dir
  · exact stepIn_masks h
  · exact stepOut_masks h

theorem stepMany_masks (dir : StepDirection) (n : Nat) : MasksDrive h fun D => D.stepMany dir n := by
  induction n with
  | zero => exact fun _ => rfl
  | succ n ih =>
    intro D
    have hone := stepOnce_masks h dir D
    have hrest := ih (D.stepOnce dir).1
    simp only at hone hrest
    simp only [DriveUnit.stepMany, hone, hrest]

theorem stepOutUntilZero_masks (n : Nat) : MasksDrive h fun D => D.stepOutUntilZero n := by
  induction n with
  | zero => exact fun _ => rfl
  | succ n ih =>
    intro D
    have hone := stepOut_masks h D
    have hrest := ih D.stepOut.1
    simp only at hone hrest
    simp only [DriveUnit.stepOutUntilZero, hone, hrest, DriveUnit.masked_trackPosition]
    split <;> rfl

theorem restoreHead_masks : MasksDrive h DriveUnit.restoreHead :=
  fun D => stepOutUntilZero_masks h D.trackPosition D

/-! ### Updates under the mask -/

@[simp] theorem setStatusBit_masked (i : Nat) (b : Bool) :
    (s.masked c h).setStatusBit i b = (s.setStatusBit i b).masked c h := rfl
@[simp] theorem setError_masked (i : Nat) : (s.masked c h).setError i = (s.setError i).masked c h := rfl
@[simp] theorem statusInit_masked : (s.masked c h).statusInit = (s.statusInit).masked c h := rfl
@[simp] theorem setDrq_masked : (s.masked c h).setDrq = (s.setDrq).masked c h := rfl
@[simp] theorem withdrawDrq_masked : (s.masked c h).withdrawDrq = (s.withdrawDrq).masked c h := rfl
@[simp] theorem setIntrq_masked (b : Bool) : (s.masked c h).setIntrq b = (s.setIntrq b).masked c h := rfl
@[simp] theorem setTrack_masked (v : Byte) : (s.masked c h).setTrack v = (s.setTrack v).masked c h := rfl
@[simp] theorem setSector_masked (v : Byte) : (s.masked c h).setSector v = (s.setSector v).masked c h := rfl
@[simp] theorem setData_masked (v : Byte) : (s.masked c h).setData v = (s.setData v).masked c h := rfl
@[simp] theorem setLatch_masked (l : LatchedFields) : (s.masked c h).setLatch l = (s.setLatch l).masked c h := rfl
@[simp] theorem setDirection_masked (dir : StepDirection) :
    (s.masked c h).setDirection dir = (s.setDirection dir).masked c h := rfl
@[simp] theorem setPhase_masked (p : Phase) : (s.masked c h).setPhase p = (s.setPhase p).masked c h := rfl
@[simp] theorem setClass_masked (k : CommandClass) : (s.masked c h).setClass k = (s.setClass k).masked c h := rfl
@[simp] theorem setConfusion_masked (b : Bool) : (s.masked c h).setConfusion b = (s.setConfusion b).masked c h := rfl
@[simp] theorem setCycles_masked (n : Int) : (s.masked c h).setCycles n = (s.setCycles n).masked c h := rfl
@[simp] theorem setByteCount_masked (n : Nat) : (s.masked c h).setByteCount n = (s.setByteCount n).masked c h := rfl
@[simp] theorem setRotating_masked (n : Nat) : (s.masked c h).setRotating n = (s.setRotating n).masked c h := rfl
@[simp] theorem setScan_masked (w : WriteTrackScan) : (s.masked c h).setScan w = (s.setScan w).masked c h := rfl
@[simp] theorem enterPhase_masked (p : Phase) (n : Int) : (s.masked c h).enterPhase p n = (s.enterPhase p n).masked c h := rfl
@[simp] theorem answer_masked (b : Byte) : (s.masked c h).answer b = (s.answer b).masked c h := rfl
@[simp] theorem awaitByte_masked : (s.masked c h).awaitByte = (s.awaitByte).masked c h := rfl
@[simp] theorem beginTransfer_masked : (s.masked c h).beginTransfer = (s.beginTransfer).masked c h := rfl
@[simp] theorem aimAt_masked (size : Nat) : (s.masked c h).aimAt size = (s.aimAt size).masked c h := rfl
@[simp] theorem aimAtSector_masked : (s.masked c h).aimAtSector = (s.aimAtSector).masked c h := rfl
@[simp] theorem advanceTransfer_masked : (s.masked c h).advanceTransfer = (s.advanceTransfer).masked c h := rfl
@[simp] theorem writeByte_masked (d : DriveNo) (k : Head) (offset : Nat) (v : Byte) :
    (s.masked c h).writeByte d k offset v = (s.writeByte d k offset v).masked c h := rfl
@[simp] theorem updateDisk_masked (d : DriveNo) (f : DiskImage → DiskImage) :
    (s.masked c h).updateDisk d f = (s.updateDisk d f).masked c h := rfl
@[simp] theorem eventState_masked : (s.masked c h).eventState = (s.eventState).masked c h := rfl
@[simp] theorem latchGeometry_masked (g : Geometry) : latchGeometry g (s.masked c h) = (latchGeometry g s).masked c h := rfl

/-- A choice made on what the mask leaves visible commutes with it when both of its branches do. -/
theorem masked_of_ite {p q : Prop} [Decidable p] [Decidable q] {a b a' b' : State} (hpq : p ↔ q) (ha : a = a'.masked c h)
    (hb : b = b'.masked c h) : (if p then a else b) = (if q then a' else b').masked c h := by
  rw [ha, hb, apply_ite (State.masked c h)]
  exact if_congr hpq rfl rfl

@[simp] theorem lostDataCheck_masked : (s.masked c h).lostDataCheck = s.lostDataCheck.masked c h := by
  rw [State.lostDataCheck, State.lostDataCheck]
  exact masked_of_ite c h Iff.rfl rfl rfl

@[simp] theorem clearDrq_masked : (s.masked c h).clearDrq = s.clearDrq.masked c h := by
  rw [State.clearDrq, State.clearDrq]
  exact masked_of_ite c h Iff.rfl rfl rfl

@[simp] theorem toggleIndexBit_masked : (s.masked c h).toggleIndexBit = s.toggleIndexBit.masked c h := by
  rw [State.toggleIndexBit, State.toggleIndexBit]
  exact masked_of_ite c h Iff.rfl rfl rfl

@[simp] theorem complete_masked (raise : Bool) : (s.masked c h).complete raise = (s.complete raise).masked c h := by
  have hmotor := (((s.setPhase .completing).setStatusBit busyBit false).setClass .none).updateDrive_masked c h
    s.board.selDrive (g := fun D => { D with motorSpinDownRemaining := s.cfg.spinDownTime }) fun _ => rfl
  cases raise
  · exact congrArg (fun u => u.setPhase .idle) hmotor
  · exact congrArg (fun u => (u.setIntrq true).setPhase .idle) hmotor

@[simp] theorem abort_masked (bit : Nat) : (s.masked c h).abort bit = (s.abort bit).masked c h :=
  complete_masked c h (s.setError bit) true

@[simp] theorem readByte_masked (d : DriveNo) (k : Head) (offset : Nat) :
    (s.masked c h).readByte d k offset = ((s.readByte d k offset).1, (s.readByte d k offset).2.masked c h) := by
  cases hbyte : s.imageByte d k offset with
  | some b => rw [readByte_of_some hbyte, readByte_of_some (s := s.masked c h) hbyte]
  | none =>
    rw [readByte_of_none hbyte, readByte_of_none (s := s.masked c h) hbyte]
    rfl

/-! ### The expiries under the mask -/

@[simp] theorem seekExpiry_masked : seekExpiry (s.masked c h) = (seekExpiry s).masked c h := by
  cases hconf : s.seq.confusion <;> simp [seekExpiry, hconf]

@[simp] theorem endOfSector_masked (isWrite : Bool) :
    endOfSector isWrite (s.masked c h) = (endOfSector isWrite s).masked c h := by
  rw [endOfSector, endOfSector]
  exact masked_of_ite c h Iff.rfl (complete_masked c h s true)
    (masked_of_ite c h Iff.rfl (by simp) (by cases isWrite <;> rfl))

@[simp] theorem readSectorByte_masked : readSectorByte (s.masked c h) = (readSectorByte s).masked c h := by
  simp only [readSectorByte, lostDataCheck_masked, readByte_masked, State.masked_xfer]
  exact masked_of_ite c h Iff.rfl (by simp) rfl

@[simp] theorem writeSectorByte_masked : writeSectorByte (s.masked c h) = (writeSectorByte s).masked c h := by
  simp only [writeSectorByte, lostDataCheck_masked]
  exact masked_of_ite c h Iff.rfl (by simp) rfl

@[simp] theorem addressByte_masked (i : Nat) : addressByte (s.masked c h) i = addressByte s i := rfl

@[simp] theorem readAddressByte_masked : readAddressByte (s.masked c h) = (readAddressByte s).masked c h := by
  simp only [readAddressByte, lostDataCheck_masked]
  exact masked_of_ite c h Iff.rfl (by simp) rfl

@[simp] theorem scanByte_masked (b : Byte) : scanByte b (s.masked c h) = (scanByte b s).masked c h := by
  rw [scanByte, scanByte]
  exact masked_of_ite c h Iff.rfl rfl (masked_of_ite c h Iff.rfl rfl rfl)

@[simp] theorem idByte_masked (b : Byte) : idByte b (s.masked c h) = (idByte b s).masked c h := by
  rw [idByte, idByte]
  exact masked_of_ite c h Iff.rfl rfl rfl

@[simp] theorem dataByte_masked (b : Byte) : dataByte b (s.masked c h) = (dataByte b s).masked c h := by
  rw [dataByte, dataByte]
  exact masked_of_ite c h Iff.rfl (masked_of_ite c h Iff.rfl (by simp) rfl) rfl

@[simp] theorem streamed_masked : (s.masked c h).streamed = s.streamed.masked c h := by
  simp [State.streamed]

@[simp] theorem streamByte_masked : (s.masked c h).streamByte = s.streamByte.masked c h := by
  cases hst : s.wt.state <;> simp [State.streamByte, hst]

@[simp] theorem writeTrackByte_masked : writeTrackByte (s.masked c h) = (writeTrackByte s).masked c h := by
  rw [writeTrackByte_eq, writeTrackByte_eq, streamByte_masked]
  exact masked_of_ite c h Iff.rfl rfl rfl

/-! ### The entry of a phase, the checks and the polls under the mask -/

/-- A rule that commutes with the mask and stops in the same way. -/
def MasksRule (f : State → Result) : Prop := ∀ s, f (s.masked c h) = mapNext (State.masked c h) (f s)

theorem mapNext_of_ite {p q : Prop} [Decidable p] [Decidable q] {a b a' b' : Result} (hpq : p ↔ q)
    (ha : a = mapNext (State.masked c h) a') (hb : b = mapNext (State.masked c h) b') :
    (if p then a else b) = mapNext (State.masked c h) (if q then a' else b') := by
  rw [ha, hb, apply_ite (mapNext (State.masked c h))]
  exact if_congr hpq rfl rfl

/-- A move, its state masked. -/
def Move.masked (m : Move) : Move := { m with state := m.state.masked c h }

theorem seekMove_masked : seekMove (s.masked c h) = (seekMove s).masked c h := by
  have hmoved : (seekMove (s.masked c h)).state = (seekMove s).state.masked c h :=
    masked_of_ite c h Iff.rfl (State.driveOperation_masked c h s (stepMany_masks h _ _))
      (masked_of_ite c h Iff.rfl (State.driveOperation_masked c h s (stepMany_masks h _ _)) rfl)
  rw [Move.masked, ← hmoved]
  rfl

theorem latchedMove_masked : latchedMove (s.masked c h) = (latchedMove s).map (Move.masked c h) := by
  have hrestore := State.driveOperation_masked c h s (restoreHead_masks h)
  have hin := State.driveOperation_masked c h s (stepIn_masks h)
  have hout := State.driveOperation_masked c h s (stepOut_masks h)
  cases hk : s.latch.cmdKind
  case step => cases hd : s.stepDirection <;> simp [latchedMove, hk, stepMove, hd, hin, hout, Move.masked]
  all_goals simp [latchedMove, hk, restoreMove, stepInMove, stepOutMove, seekMove_masked, hrestore, hin, hout, Move.masked]

theorem enterSeeking_masked : MasksRule c h enterSeeking := by
  intro s
  have hentry : (s.masked c h).atSeekEntry = s.atSeekEntry.masked c h := rfl
  rw [enterSeeking_eq, enterSeeking_eq, hentry, latchedMove_masked, State.masked_seekConfused]
  cases seekConfused s
  · cases latchedMove s.atSeekEntry <;> rfl
  · rfl

theorem beginCommandPhase_masked : MasksRule c h beginCommandPhase := by
  intro s
  have hload := State.driveOperation_masked c h s (loadHead_masks h)
  cases hc : s.seq.activeCommandClass
  case typeI =>
    rw [beginCommandPhase_typeI _ hc, beginCommandPhase_typeI (s.masked c h) hc, hload]
    exact enterSeeking_masked c h _
  case none | forceInterrupt => simp [beginCommandPhase, hc, mapNext]
  all_goals
    rw [beginCommandPhase_transfer s (by rw [hc]; rfl),
      beginCommandPhase_transfer (s.masked c h) (by simp [hc, isTransferClass]), hload]
    rfl

theorem startCommand_masked (k : CommandClass) : MasksRule c h (startCommand k) := by
  intro s
  rw [startCommand, startCommand]
  exact mapNext_of_ite c h Iff.rfl
    (beginCommandPhase_masked c h (((s.setClass k).setStatusBit busyBit true).setStatusBit motorBit true)) rfl

theorem prepareWriteTrack_masked : prepareWriteTrack (s.masked c h) = (prepareWriteTrack s).masked c h := by
  rw [prepareWriteTrack, prepareWriteTrack]
  exact masked_of_ite c h Iff.rfl (complete_masked c h s true) rfl

theorem prepareTransfer_masked : MasksRule c h prepareTransfer := by
  intro s
  cases hc : s.seq.activeCommandClass
  case writeTrack =>
    simp only [prepareTransfer, hc, State.masked_seq, prepareWriteTrack_masked]
    rfl
  all_goals
    simp only [prepareTransfer, hc, State.masked_seq]
    rfl

theorem transferChecks_masked : transferChecks (s.masked c h) = transferChecks s := rfl

theorem doTransferPrepare_masked : MasksRule c h doTransferPrepare := by
  intro s
  simp only [doTransferPrepare, setStatusBit_masked, transferChecks_masked]
  cases transferChecks (s.setStatusBit recordTypeBit false)
  · exact congrArg Host.Outcome.next (abort_masked c h _ _)
  · exact prepareTransfer_masked c h (latchGeometry _ _)

theorem doTransferByte_masked : MasksRule c h doTransferByte := by
  intro s
  cases hc : s.seq.activeCommandClass <;> simp [doTransferByte, hc, mapNext]

theorem phaseExpiry_masked : MasksRule c h phaseExpiry := by
  intro s
  cases hp : s.seq.phase
  case spinUp =>
    simp only [phaseExpiry, State.masked_seq, hp]
    exact beginCommandPhase_masked c h (s.setStatusBit spinUpBit true)
  case transferPrepare =>
    simp only [phaseExpiry, State.masked_seq, hp]
    exact doTransferPrepare_masked c h s
  case transferByte =>
    simp only [phaseExpiry, State.masked_seq, hp]
    exact doTransferByte_masked c h s
  all_goals simp [phaseExpiry, hp, mapNext, settlingExpiry]

theorem spinDownTick_masked (n : Nat) : spinDownTick n (s.masked c h) = (spinDownTick n s).masked c h := by
  have hcount := State.updateDrive_masked c h s s.board.selDrive (g := fun D => D.spinDown n) fun _ => rfl
  have hunload := State.updateDrive_masked c h
    ((s.updateDrive s.board.selDrive fun D => D.spinDown n).setStatusBit motorBit false) s.board.selDrive
    (g := DriveUnit.unloadHead) fun D => by simp [DriveUnit.unloadHead, DriveUnit.masked]
  have hremaining : (s.masked c h).selected.motorSpinDownRemaining = s.selected.motorSpinDownRemaining := by simp
  rcases Nat.eq_zero_or_pos s.selected.motorSpinDownRemaining with hzero | hpos
  · rw [spinDownTick_stopped n hzero, spinDownTick_stopped n (hremaining.trans hzero)]
  rcases Nat.lt_or_ge n s.selected.motorSpinDownRemaining with hcounts | hstops
  · rw [spinDownTick_counts hcounts, spinDownTick_counts (hremaining.symm ▸ hcounts)]
    exact hcount
  · rw [spinDownTick_stops hpos hstops, spinDownTick_stops (hremaining.symm ▸ hpos) (hremaining.symm ▸ hstops), ← hunload,
      ← setStatusBit_masked, ← hcount]
    rfl

theorem poll_masked (n : Nat) : MasksRule c h (poll n) := by
  intro s
  rw [poll, poll]
  exact mapNext_of_ite c h Iff.rfl rfl (mapNext_of_ite c h Iff.rfl (congrArg _ (spinDownTick_masked c h s n))
    (mapNext_of_ite c h Iff.rfl rfl (phaseExpiry_masked c h (s.setCycles (s.seq.cyclesRemaining - n)))))

/-! ### Events under the mask -/

/-- The mask of an outcome does not see whether the mask was put on before the event. -/
def HiddenFrom (f : State → Result) : Prop :=
  ∀ s, mapNext (State.masked c h) (f (s.masked c h)) = mapNext (State.masked c h) (f s)

theorem MasksRule.hiddenFrom {f : State → Result} (hf : MasksRule c h f) : HiddenFrom c h f :=
  fun s => (congrArg _ (hf s)).trans (mapNext_masked_masked c h (f s))

/-- An event that always completes, in two states the mask does not tell apart. -/
theorem hiddenFrom_next {f : State → State} (hf : ∀ s, (f (s.masked c h)).masked c h = (f s).masked c h) :
    HiddenFrom c h fun s => .next (f s) := fun s => congrArg Host.Outcome.next (hf s)

/-- A rule that commutes with the mask, after an update of which the mask hides what it hides of the state. -/
theorem MasksRule.hiddenFrom_comp {f : State → Result} {g : State → State} (hf : MasksRule c h f)
    (hg : ∀ s, (g (s.masked c h)).masked c h = (g s).masked c h) : HiddenFrom c h fun s => f (g s) := fun s => by
  rw [← hf, ← hf, hg]

theorem hiddenFrom_whenIdle {f : State → Result} (hf : HiddenFrom c h f) : HiddenFrom c h fun s => whenIdle s f := fun s => by
  by_cases hp : s.seq.phase = .idle
  · have hrun : ∀ u : State, u.seq.phase = .idle → whenIdle u f = f u := fun u hu => if_pos hu
    simpa only [hrun s hp, hrun (s.masked c h) hp] using hf s
  · have hstop : ∀ u : State, u.seq.phase ≠ .idle → whenIdle u f = .fault .commandWriteWhileBusy := fun u hu => if_neg hu
    simp only [hstop s hp, hstop (s.masked c h) hp]

theorem masked_acceptCommand (i : Instr) (l : LatchedFields) :
    (acceptCommand i l (s.masked c h)).masked c h = (acceptCommand i l s).masked c h := by
  cases c <;> cases h <;> rfl

theorem masked_acceptCommand_setDirection (i : Instr) (l : LatchedFields) (dir : StepDirection) :
    ((acceptCommand i l (s.masked c h)).setDirection dir).masked c h = ((acceptCommand i l s).setDirection dir).masked c h := by
  cases c <;> cases h <;> rfl

theorem exec_hidden (i : Instr) : HiddenFrom c h (exec i) := by
  have hstart : ∀ k l, HiddenFrom c h fun s => startCommand k (acceptCommand i l s) := fun k l =>
    (startCommand_masked c h k).hiddenFrom_comp c h fun s => masked_acceptCommand c h s i l
  have hturned : ∀ k l dir, HiddenFrom c h fun s => startCommand k ((acceptCommand i l s).setDirection dir) := fun k l dir =>
    (startCommand_masked c h k).hiddenFrom_comp c h fun s => masked_acceptCommand_setDirection c h s i l dir
  cases i
  case stepin | stepout => exact hiddenFrom_whenIdle c h (hturned _ _ _)
  case rdtrk =>
    refine hiddenFrom_whenIdle c h (hiddenFrom_next c h fun s => ?_)
    rw [readTrackNoOp, readTrackNoOp, ← abort_masked, ← abort_masked, masked_acceptCommand]
  case forceint i3 i2 x =>
    intro s
    have haccepted : ((s.masked c h).interrupted (.forceint i3 i2 x)).masked c h
        = (s.interrupted (.forceint i3 i2 x)).masked c h := by cases c <;> cases h <;> rfl
    rw [execForceint_eq, execForceint_eq, mapNext_next, mapNext_next, ← setClass_masked, ← setClass_masked, ← complete_masked,
      ← complete_masked, haccepted]
  all_goals exact hiddenFrom_whenIdle c h (hstart _ _)

theorem writeTrackRegister_masked (v : Byte) : MasksRule c h (writeTrackRegister v) := by
  intro s
  rw [writeTrackRegister, writeTrackRegister]
  exact mapNext_of_ite c h Iff.rfl rfl rfl

theorem writeSectorRegister_masked (v : Byte) : MasksRule c h (writeSectorRegister v) := by
  intro s
  rw [writeSectorRegister, writeSectorRegister]
  exact mapNext_of_ite c h Iff.rfl rfl rfl

theorem indexPulse_masked : MasksRule c h indexPulse := by
  intro s
  rw [indexPulse, indexPulse]
  exact mapNext_of_ite c h Iff.rfl (mapNext_of_ite c h Iff.rfl rfl rfl) rfl

theorem hostRead_masked (reg : HostRegister) : hostRead reg (s.masked c h) = (hostRead reg s).masked c h := by
  cases reg
  case command => simp [hostRead, readStatus]
  case data => simp [hostRead, readData]
  all_goals rfl

theorem changeTracksPerDisk_hidden (d : DriveNo) (tracks : TracksPerDisk) (position : Nat) :
    HiddenFrom c h (changeTracksPerDisk d tracks position) := by
  intro s
  have hkept : ∀ t p,
      ((s.masked c h).updateDrive d fun _ => { (s.masked c h).drive d with tracksPerDisk := t, trackPosition := p })
        = (s.updateDrive d fun _ => { s.drive d with tracksPerDisk := t, trackPosition := p }).masked c h := by
    intro t p
    cases d <;> rfl
  have hrule : changeTracksPerDisk d tracks position (s.masked c h)
      = mapNext (State.masked c h) (changeTracksPerDisk d tracks position s) := by
    rw [changeTracksPerDisk, changeTracksPerDisk]
    exact mapNext_of_ite c h (by simp [DriveUnit.lastTrack]) (congrArg _ (by simpa using hkept tracks (s.drive d).trackPosition))
      (mapNext_of_ite c h (by simp [DriveUnit.lastTrack]) (congrArg _ (by simpa using hkept tracks position)) rfl)
  rw [hrule, mapNext_masked_masked]

theorem environmentChange_hidden (change : EnvChange) : HiddenFrom c h (environmentChange change) := by
  cases change
  case setTracksPerDisk d tracks position => exact changeTracksPerDisk_hidden c h d tracks position
  case setDoor d on | setDriveWriteProtect d on | setAvailable d on =>
    exact hiddenFrom_next c h fun s => s.masked_updateDrive_masked c h d fun D => by cases h <;> rfl
  case selectDrive d => exact hiddenFrom_next c h fun s => State.masked_masked c h { s with board.selDrive := d }
  case selectHead k => exact hiddenFrom_next c h fun s => State.masked_masked c h { s with board.selHead := k }
  case selectDensity density => exact hiddenFrom_next c h fun s => State.masked_masked c h { s with board.selDensity := density }
  all_goals exact hiddenFrom_next c h fun s => by rw [updateDisk_masked, State.masked_masked]

theorem resetEvent_hidden : (resetEvent (s.masked c h)).masked c h = (resetEvent s).masked c h := by
  cases c <;> cases h <;> rfl

theorem runEvent_hidden (e : Event) : HiddenFrom c h (runEvent e) := by
  cases e with
  | hostRead reg => exact hiddenFrom_next c h fun s => by rw [hostRead_masked, State.masked_masked]
  | hostWrite reg v =>
    cases reg with
    | command => exact exec_hidden c h (decode v)
    | track => exact (writeTrackRegister_masked c h v).hiddenFrom
    | sector => exact (writeSectorRegister_masked c h v).hiddenFrom
    | data => exact hiddenFrom_next c h fun s => by simp [writeDataRegister]
  | poll n => exact (poll_masked c h n).hiddenFrom
  | indexPulse => exact (indexPulse_masked c h).hiddenFrom
  | environment change => exact environmentChange_hidden c h change
  | reset => exact hiddenFrom_next c h fun s => resetEvent_hidden c h s

theorem step_hidden : HiddenFrom c h step := by
  intro s
  cases hin : s.io.inputs with
  | nil =>
    rw [step_of_nil hin, step_of_nil (s := s.masked c h) hin]
    exact congrArg Host.Outcome.next (State.masked_masked c h s)
  | cons e rest =>
    rw [step_of_cons hin, step_of_cons (s := s.masked c h) hin]
    exact runEvent_hidden c h e s.eventState

end Mask

/-! ### The command register and the ignored bits (R21, R100) -/

/-- Two commands that latch the same fields and start the same class have the same effect but on CMD. -/
theorem exec_ignores {i i' : Instr} (s : State) (hc : startedClass i ≠ .none) (hclass : startedClass i' = startedClass i)
    (hfields : latchedFields i' = latchedFields i) (hdir : directionAfter i' s.stepDirection = directionAfter i s.stepDirection) :
    mapNext (fun u => u.setCommand 0) (exec i s) = mapNext (fun u => u.setCommand 0) (exec i' s) := by
  have hkind : ∀ j, startedClass j ≠ .none → commandKind j ≠ .forceInterrupt := fun j hj hk => by
    cases j <;> first | exact hj rfl | cases hk
  have hc' : startedClass i' ≠ .none := hclass ▸ hc
  by_cases hp : s.seq.phase = .idle
  · have hbegun : (s.begun i).masked false true = (s.begun i').masked false true := by
      rw [State.begun, State.begun, hclass, hfields, hdir]
      rfl
    have hbegins : ∀ j, mapNext (State.masked false true) (beginCommandPhase (s.begun j))
        = beginCommandPhase ((s.begun j).masked false true) := fun j => (beginCommandPhase_masked false true _).symm
    have hskips : skipsSpinUp s i' = skipsSpinUp s i := by rw [skipsSpinUp, skipsSpinUp, hclass, hfields]
    cases hskip : skipsSpinUp s i
    · rw [exec_spinUp hc hp hskip, exec_spinUp hc' hp (hskips.trans hskip)]
      exact congrArg (fun u => Host.Outcome.next (u.enterPhase .spinUp (s.cfg.spinUpTime : Int))) hbegun
    · rw [exec_begins hc hp hskip, exec_begins hc' hp (hskips.trans hskip)]
      exact (hbegins i).trans ((congrArg beginCommandPhase hbegun).trans (hbegins i').symm)
  · rw [busyWritesFault.1 i s (hkind i hc) hp, busyWritesFault.1 i' s (hkind i' hc') hp]

/-- Settles O14: the encoding goes to CMD alone, and every rule commutes with hiding CMD. -/
theorem ignoredBitsInert : Obligations.IgnoredBitsInert := by
  refine fun s => ⟨fun u u' h v r => ?_, fun u u' h v r => ?_, fun u u' h v r => ?_, fun m e x x' => ?_, fun m e x x' => ?_,
    fun x x' => ?_, fun i3 i2 x x' => ?forceint, fun x x' => ?rdtrk, fun x x' => ?_, fun w => ?step⟩
  case forceint =>
    have hmasked : ∀ y, (s.interrupted (.forceint i3 i2 y)).masked false true =
        (s.interrupted (.forceint i3 i2 0)).masked false true :=
      fun _ => rfl
    have hforce : ∀ y, mapNext (State.masked false true) (exec (.forceint i3 i2 y) s)
        = .next ((((s.interrupted (.forceint i3 i2 0)).masked false true).complete i3).setClass
            (if i2 then .forceInterrupt else .none)) := fun y => by
      rw [execForceint_eq, mapNext_next, ← setClass_masked, ← complete_masked, hmasked]
    exact (hforce x).trans (hforce x').symm
  case rdtrk =>
    by_cases hp : s.seq.phase = .idle
    · have hread : ∀ y, mapNext (State.masked false true) (exec (.rdtrk y) s)
          = .next (((acceptCommand (.rdtrk 0) (latchTypeIII .readTrack) s).masked false true).abort errorBit) := fun y => by
        rw [execRdtrk_idle hp, mapNext_next, ← abort_masked]
        rfl
      exact (hread x).trans (hread x').symm
    · rw [busyWritesFault.1 (.rdtrk x) s nofun hp, busyWritesFault.1 (.rdtrk x') s nofun hp]
  case step =>
    calc mapNext (State.masked false true) (step (s.setCommand w))
      _ = mapNext (State.masked false true) (step ((s.setCommand w).masked false true)) := (step_hidden false true _).symm
      _ = mapNext (State.masked false true) (step (s.masked false true)) := rfl
      _ = mapNext (State.masked false true) (step s) := step_hidden false true s
  all_goals exact exec_ignores s nofun rfl rfl rfl

/-! ### The head-load flag (R43, R121) -/

/-- Settles O15: loading is a closed form, and every rule commutes with hiding the flag, the door and `available`. -/
theorem loadHeadRule : Obligations.LoadHeadRule := by
  refine ⟨fun D => ⟨?loaded, ?feedback, ?again⟩, step_hidden true false⟩
  case loaded => rw [DriveUnit.loadHead_eq]; rfl
  case feedback => rw [DriveUnit.loadHead_eq]
  case again => simp [DriveUnit.loadHead_eq, DriveUnit.loaded]

end Sys2Proof.Machine
end

section
/-! Whole Type I commands under unit polls (spec/42_type1_commands.md R180 to R186; spec/70_reset_and_hazards.md R300, R321). -/

namespace Sys2Proof.Machine

/-! ### A wait of any length under unit polls (R145, R321) -/

/-- A wait of `c` cycles takes `c` unit polls, and one if `c` is 0: all before the last one only count. -/
theorem unitPolls_waiting {s : State} {c k : Nat} (hp : s.seq.phase ≠ .idle) (hc : s.seq.cyclesRemaining = (c : Int))
    (hk : k < max c 1) : ∃ u, runScript (unitPolls k) s = some (u, []) ∧ u.regs = s.regs := by
  rcases Nat.eq_zero_or_pos k with rfl | hpos
  · exact ⟨s, rfl, rfl⟩
  · exact ⟨countedDown s (c - k), by rw [runScript_unitPolls_from hc hpos, unitPolls_count hp k c (by omega)], rfl⟩

/-- The last one runs the phase's expiry. -/
theorem unitPolls_last {s t : State} {c : Nat} (hp : s.seq.phase ≠ .idle) (hc : s.seq.cyclesRemaining = (c : Int))
    (ht : poll 1 (countedDown s (min c 1)) = .next t) :
    runScript (unitPolls (max c 1)) s = some (t, t.io.readData.toList) := by
  have hlast : runScript (unitPolls 1) (countedDown s (min c 1)) = some (t, t.io.readData.toList) := runScript_single ht
  rcases Nat.eq_zero_or_pos c with rfl | hpos
  · rw [← hlast, runScript_unitPolls_from hc (Nat.le_max_right _ _)]
    rfl
  · obtain ⟨k, rfl⟩ := Nat.exists_eq_add_of_le' hpos
    have hcount := unitPolls_count hp k (k + 1) (by omega)
    rw [Nat.add_sub_cancel_left] at hcount
    rw [Nat.min_eq_right hpos] at hlast
    rw [Nat.max_eq_left hpos, runScript_unitPolls_from hc hpos, unitPolls_add, runScript_append_silent hcount]
    exact hlast

theorem countedDown_expires (s : State) (c : Nat) : Expires 1 (countedDown s (min c 1)) := by
  refine ⟨le_rfl, ?_⟩
  simp only [countedDown]
  omega

/-! ### The wait of Seeking -/

/-- STATUS at the end of a seek without confusion: 0xA1 with busy cleared, and the two sensors. -/
theorem typeIEndStatus_eq (c : Config) (D : DriveUnit) :
    typeIEndStatus c D = (0xA1 &&& 0xBA) ||| 0 ||| (if xor (decide (D.trackPosition = 0)) c.track00Invert then 0x04 else 0)
      ||| (if D.writeProtected then 0x40 else 0) := by
  rw [typeIEndStatus]
  cases D.writeProtected <;> cases xor (decide (D.trackPosition = 0)) c.track00Invert <;> rfl

/-- A seek in progress, without confusion, that waits `c` cycles. -/
structure SeekWaiting (c : Nat) (u : State) : Prop where
  phase : u.seq.phase = .seeking
  confusion : u.seq.confusion = false
  cycles : u.seq.cyclesRemaining = (c : Int)
  status : u.regs.status = 0xA1

/-- How it ends (R186). -/
structure SeekDone (u t : State) : Prop where
  regs : t.regs = { u.regs with status := typeIEndStatus u.cfg u.selected, intrq := true }
  phase : t.seq.phase = .idle
  cls : t.seq.activeCommandClass = .none
  direction : t.stepDirection = u.stepDirection
  drives : t.drives = drivesAfterComplete u
  rest : RestUnchanged u.quiet t

theorem SeekWaiting.runs {c : Nat} {u : State} (h : SeekWaiting c u) :
    ∃ t, runScript (unitPolls (max c 1)) u = some (t, []) ∧ SeekDone u t := by
  obtain ⟨e, hpoll⟩ : ∃ e, poll 1 (countedDown u (min c 1)) = .next (seekExpiry (u.quiet.setCycles e)) :=
    ⟨_, poll_seeking (s := countedDown u (min c 1)) h.phase (countedDown_expires u c)⟩
  refine ⟨seekExpiry (u.quiet.setCycles e), ?run, ?regs, by rw [seekExpiry_seq], by rw [seekExpiry_seq],
    seekExpiry_stepDirection _, seekExpiry_drives _, (u.quiet.setCycles_rest e).trans (seekExpiry_rest _)⟩
  case run =>
    have hanswer : (seekExpiry (u.quiet.setCycles e)).io.readData = none := by
      rw [seekExpiry_io]
      rfl
    rw [unitPolls_last (by simp [h.phase]) h.cycles hpoll, hanswer]
    rfl
  case regs =>
    have hconf : (u.quiet.setCycles e).seq.confusion = false := h.confusion
    rw [seekExpiry_regs, typeIEndStatus_eq, ← h.status, hconf]
    rfl

/-! ### A Type I command (R180 to R186) -/

theorem EnteredSeeking.waiting {i : Instr} {latch : LatchedFields} {target : Byte} {passed position : Nat}
    {direction : StepDirection} {s t : State} (h : EnteredSeeking i latch target passed position direction s t) :
    SeekWaiting (passed * stepRateCycles s.cfg latch.stepRateSel + (if latch.verifyFlag then s.cfg.verifyTime else 0)) t :=
  ⟨by rw [h.seq], by rw [h.seq], by rw [h.seq], by rw [h.regs]⟩

/-- The selected drive after the move. -/
theorem selected_of_drivesWithHeadAt {s t : State} {position : Nat} (hdrives : t.drives = drivesWithHeadAt s position)
    (hboard : t.board = s.board) :
    t.selected = { s.selected with headLoaded := s.selected.headLoaded || s.selected.doorClosed, trackPosition := position } := by
  rw [State.selected, State.drive, hdrives, hboard, drivesWithHeadAt, PerDrive.get_set, if_pos rfl]

/-- Settles O53: the command has moved when its write is over; it waits, and the end of the wait reports the sensors. -/
theorem typeICommandRuns : Obligations.TypeICommandRuns := by
  intro v s N hc hp hskip hconf hN
  obtain ⟨u, hu, hentered⟩ := exec_enters_seeking (s := s.quiet) hc hp hskip hconf
  have hwaiting := hentered.waiting
  have hcycles : movePassed s.quiet (commandKind (decode v)) * stepRateCycles s.quiet.cfg (latchedFields (decode v)).stepRateSel
      + (if (latchedFields (decode v)).verifyFlag then s.quiet.cfg.verifyTime else 0) = N := hN.symm
  rw [hcycles] at hwaiting
  have hscript : ∀ es, runScript (.hostWrite .command v :: es) s = runScript es u := fun es =>
    runScript_cons_silent (e := .hostWrite .command v) hu hentered.rest.answer es
  have hregs := hentered.regs
  refine ⟨fun k hk => ?busy, ?ends⟩
  case busy =>
    obtain ⟨w, hw, hkept⟩ := unitPolls_waiting (by simp [hwaiting.phase]) hwaiting.cycles hk
    exact ⟨w, (hscript _).trans hw, by rw [State.statusBit, hkept, hwaiting.status]; rfl, by rw [hkept, hregs]⟩
  case ends =>
    obtain ⟨t, ht, hdone⟩ := hwaiting.runs
    have hselected := selected_of_drivesWithHeadAt hentered.drives hentered.rest.board
    refine ⟨t, (hscript _).trans ht, ?regs, hdone.phase, hdone.cls, hdone.direction.trans hentered.direction, ?drives,
      ?images⟩
    case regs =>
      rw [hdone.regs, hselected, hregs, hentered.rest.cfg, encode_decode]
      rfl
    case drives =>
      rw [hdone.drives, drivesAfterComplete, hselected, hentered.drives, hentered.rest.board, hentered.rest.cfg,
        drivesWithHeadAt, PerDrive.set_set]
      rfl
    case images => exact fun d k o => (hdone.rest.images d k o).trans (hentered.rest.images d k o)

/-! ### Reset and then RESTORE (R181, R300) -/

/-- The end of a RESTORE in progress, as O54 asks for it. -/
theorem SeekWaiting.restored {c : Nat} {s u : State} (h : SeekWaiting c u) (htrack : u.regs.track = 0)
    (hdrives : u.drives = drivesWithHeadAt s 0) (hboard : u.board = s.board) (hcfg : u.cfg = s.cfg) :
    ∃ n t, runScript (unitPolls n) u = some (t, []) ∧
      t.seq.phase = .idle ∧ t.regs.track = 0 ∧ t.selected.trackPosition = 0 ∧ t.regs.intrq = true ∧
      t.regs.status = typeIEndStatus s.cfg { s.selected with trackPosition := 0 } := by
  obtain ⟨t, ht, hdone⟩ := h.runs
  have hselected := selected_of_drivesWithHeadAt hdrives hboard
  have htdrive : t.selected = { u.selected with motorSpinDownRemaining := u.cfg.spinDownTime } := by
    rw [State.selected, State.drive, hdone.drives, drivesAfterComplete, hdone.rest.board, PerDrive.get_set]
    exact if_pos rfl
  refine ⟨_, t, ht, hdone.phase, by rw [hdone.regs]; exact htrack, by rw [htdrive, hselected], by rw [hdone.regs], ?status⟩
  case status =>
    rw [hdone.regs, hselected, hcfg]
    rfl

/-- How a RESTORE that was begun in `s` ends, some unit polls later. -/
def Restores (s u : State) : Prop :=
  ∃ n t, runScript (unitPolls n) u = some (t, []) ∧
    t.seq.phase = .idle ∧ t.regs.track = 0 ∧ t.selected.trackPosition = 0 ∧ t.regs.intrq = true ∧
    t.regs.status = typeIEndStatus s.cfg { s.selected with trackPosition := 0 }

/-- RESTORE in SpinUp: the move at its end, then the wait of Seeking. -/
theorem spinUp_restores {s w : State} {c : Nat} (hp : w.seq.phase = .spinUp) (hcls : w.seq.activeCommandClass = .typeI)
    (hk : w.latch.cmdKind = .restore) (hnotyet : w.seq.confusion = false) (hc : w.seq.cyclesRemaining = (c : Int))
    (hstatus : w.regs.status = 0x81) (hconf : seekConfused w = false) (hcfg : w.cfg = s.cfg)
    (hselected : w.selected = s.selected) : Restores s w := by
  have hk' : (countedDown w (min c 1)).latch.cmdKind = .restore := hk
  obtain ⟨u, hu, hregs, hseq, -, -, hdrives, hrest⟩ := poll_spinUp_moves (s := countedDown w (min c 1)) hp
    (countedDown_expires w c) hcls (by rw [hk']; rfl) hconf
  rw [hk'] at hregs hseq hdrives
  have hspinUp : runScript (unitPolls (max c 1)) w = some (u, []) := by
    rw [unitPolls_last (by simp [hp]) hc hu, hrest.answer]
    rfl
  obtain ⟨k, hwait⟩ : ∃ k : Nat, u.seq.cyclesRemaining = (k : Int) := ⟨_, by rw [hseq]⟩
  have hwaiting : SeekWaiting k u := by
    refine ⟨by rw [hseq], by rw [hseq]; exact hnotyet, hwait, ?_⟩
    have hw : (countedDown w (min c 1)).regs.status = 0x81 := hstatus
    rw [hregs, hw]
    rfl
  obtain ⟨n, t, ht, hend⟩ := hwaiting.restored (s := w) (by rw [hregs]; rfl) hdrives hrest.board hrest.cfg
  rw [hcfg, hselected] at hend
  exact ⟨max c 1 + n, t, by rw [unitPolls_add, runScript_append_silent hspinUp]; exact ht, hend⟩

/-- RESTORE from a state with the motor off: at once, or after SpinUp. -/
theorem restore_restores (h v : Bool) (r : Nat) {s : State} (hp : s.seq.phase = .idle) (hstatus : s.regs.status = 0)
    (hconf : seekConfused s = false) :
    ∃ t, exec (.restore h v r) s = .next t ∧ t.io.readData = s.io.readData ∧ Restores s t := by
  have hskip : skipsSpinUp s (.restore h v r) = h := by
    rw [skipsSpinUp, State.statusBit, hstatus]
    rfl
  cases h
  case true =>
    obtain ⟨t, ht, hentered⟩ := exec_enters_seeking rfl hp hskip hconf
    exact ⟨t, ht, hentered.rest.answer, hentered.waiting.restored (by rw [hentered.regs]; rfl) hentered.drives
      hentered.rest.board hentered.rest.cfg⟩
  case false =>
    obtain ⟨t, ht, -, hregs, hseq, hlatch, -, hdrives, hrest⟩ := commandsSpinUp (.restore false v r) s nofun hp hskip
    have hconf' : seekConfused t = false := by
      rw [← hconf, seekConfused, seekConfused, densityMismatch, densityMismatch, State.disk, State.disk, hrest.board, hrest.disks]
    refine ⟨t, ht, hrest.answer, spinUp_restores (by rw [hseq]) (by rw [hseq]; rfl) (by rw [hlatch]; rfl) (by rw [hseq])
      (by rw [hseq]) (by rw [hregs]) hconf' hrest.cfg ?_⟩
    rw [State.selected, State.drive, hdrives, hrest.board]
    rfl

/-- Settles O54: Reset leaves the motor off and the head where it is; RESTORE ends at 0 whatever was drawn for TRACK. -/
theorem restoreAfterReset : Obligations.RestoreAfterReset := by
  intro h v r s hr hconf
  have hready : seekConfused (resetEvent s.quiet).quiet = false := hconf
  obtain ⟨t, ht, hanswer, n, u, hu, hphase, htrack, hhead, hintrq, hstatus⟩ :=
    restore_restores h v r (s := (resetEvent s.quiet).quiet) rfl rfl hready
  refine ⟨n, u, ?run, hphase, htrack, hhead, hintrq, hstatus.trans ?status⟩
  case run =>
    have hcommand : runEvent (.hostWrite .command (encode (.restore h v r))) (resetEvent s.quiet).quiet = .next t := by
      rw [runEvent, decode_encode_restore r hr h v, ht]
    rw [runScript_cons_silent (e := .reset) rfl rfl, runScript_cons_silent hcommand hanswer, hu]
  case status =>
    have hselected : (resetEvent s.quiet).quiet.selected = s.selected.afterReset := resetEvent_drive s s.board.selDrive
    rw [hselected]
    rfl

end Sys2Proof.Machine
end

section
/-! Whole Read Sector commands (spec/43_type2_commands.md R201, R203, R205): where a sector transfer stands between two bytes,
what a byte expiry does to it, and the host that collects each byte. -/

namespace Sys2Proof.Machine

/-! ### Where a sector transfer stands -/

/-- A transfer on a sector of the track, `left` bytes before its last: those of the sector, and with m those of the sectors
that follow on the track (R205). -/
structure SectorPlace (multi : Bool) (x : Transfer) (sector : Byte) (left : Nat) : Prop where
  onTrack : sector.toNat < x.sectorCount
  countFits : x.sectorCount ≤ 255
  sized : 1 ≤ x.sectorSize
  offset : x.offset + x.byteCountRemaining = sectorOffset x.base (sector.toNat + 1) x.sectorSize
  left : left = x.byteCountRemaining + if multi then (x.sectorCount - (sector.toNat + 1)) * x.sectorSize else 0

/-- The state's transfer stands so. -/
def State.PlacedWith (s : State) (left : Nat) : Prop := SectorPlace s.latch.multiSectorFlag s.xfer s.regs.sector left

/-- A byte moved is a byte less to move. -/
theorem SectorPlace.advance {multi : Bool} {x : Transfer} {sector : Byte} {left : Nat}
    (h : SectorPlace multi x sector (left + 1)) (hpending : 1 ≤ x.byteCountRemaining) :
    SectorPlace multi { x with offset := x.offset + 1, byteCountRemaining := x.byteCountRemaining - 1 } sector left := by
  obtain ⟨honTrack, hcount, hsized, hoffset, hleft⟩ := h
  refine ⟨honTrack, hcount, hsized, ?_, ?_⟩
  · rw [← hoffset]
    simp only
    omega
  · simp only
    omega

/-- Where a transfer begins: at the first byte of the sector SECTOR names. -/
theorem SectorPlace.start {multi : Bool} {x : Transfer} {sector : Byte} (hon : sector.toNat < x.sectorCount)
    (hcount : x.sectorCount ≤ 255) (hsized : 1 ≤ x.sectorSize) (hbytes : x.byteCountRemaining = x.sectorSize)
    (hoffset : x.offset = sectorOffset x.base sector.toNat x.sectorSize) :
    SectorPlace multi x sector ((if multi then x.sectorCount - sector.toNat else 1) * x.sectorSize) := by
  refine ⟨hon, hcount, hsized, ?_, ?_⟩
  · rw [hoffset, hbytes, sectorOffset, sectorOffset, Nat.succ_mul, Nat.add_assoc]
  · cases multi
    · simp [hbytes]
    · obtain ⟨k, hk⟩ := Nat.exists_eq_add_of_lt hon
      have hall : x.sectorCount - sector.toNat = k + 1 := by omega
      have hnext : x.sectorCount - (sector.toNat + 1) = k := by omega
      simp only [if_true, hall, hnext, hbytes]
      ring

theorem toNat_succ_of_lt {sector : Byte} {n : Nat} (h : sector.toNat < n) (hn : n ≤ 255) :
    (sector + 1).toNat = sector.toNat + 1 := by
  rw [BitVec.toNat_add]
  simp
  omega

theorem sector_bytes_pos (m : Bool) {sector count size : Nat} (hon : sector < count) (hsized : 1 ≤ size) :
    0 < (if m then count - sector else 1) * size := by
  refine Nat.mul_pos ?_ hsized
  split <;> omega

/-! ### The end of a byte expiry (R203 to R205) -/

/-- What a byte expiry of a sector transfer does once the byte is moved. -/
def afterByte (isWrite : Bool) (u : State) : State :=
  if u.xfer.byteCountRemaining = 0 then endOfSector isWrite u else (if isWrite then u.setDrq else u).awaitByte

theorem readSectorByte_afterByte (s : State) : readSectorByte s = afterByte false s.byteRead := by
  rw [readSectorByte_eq, afterByte, State.byteRead_xfer]
  rfl

theorem writeSectorByte_afterByte (s : State) : writeSectorByte s = afterByte true s.byteWritten := by
  rw [writeSectorByte_eq, afterByte, State.byteWritten_xfer]
  rfl

theorem afterByte_io (isWrite : Bool) (u : State) : (afterByte isWrite u).io = u.io := by
  simp only [afterByte, endOfSector]
  split_ifs <;> simp [State.aimAtSector]

theorem afterByte_disks (isWrite : Bool) (u : State) : (afterByte isWrite u).disks = u.disks := by
  rw [afterByte]
  split
  · exact endOfSector_disks isWrite u
  · cases isWrite <;> rfl

theorem afterByte_data (isWrite : Bool) (u : State) : (afterByte isWrite u).regs.data = u.regs.data := by
  simp only [afterByte, endOfSector]
  split_ifs <;> simp [State.aimAtSector]

/-- The sector register when the command has moved its last byte. -/
def State.lastSector (s : State) : Byte :=
  if s.latch.multiSectorFlag then BitVec.ofNat 8 s.xfer.sectorCount else s.regs.sector

/-- With no byte left the command completes. -/
theorem afterByte_ends {u : State} (isWrite : Bool) (h : u.PlacedWith 0) :
    afterByte isWrite u = (u.setSector u.lastSector).complete true := by
  obtain ⟨honTrack, hcount, hsized, -, hleft⟩ := h
  rw [afterByte, if_pos (by omega)]
  cases hm : u.latch.multiSectorFlag
  · rw [endOfSector_single isWrite hm, State.lastSector, hm]
    rfl
  · have hnone : u.xfer.sectorCount = u.regs.sector.toNat + 1 := by
      simp only [hm, if_true] at hleft
      have hrest : (u.xfer.sectorCount - (u.regs.sector.toNat + 1)) * u.xfer.sectorSize = 0 := by omega
      obtain h0 | h0 := Nat.mul_eq_zero.1 hrest <;> omega
    have hsucc := toNat_succ_of_lt honTrack hcount
    have hlast : u.lastSector = u.regs.sector + 1 := by
      rw [State.lastSector, hm, if_pos rfl, hnone, ← hsucc, BitVec.ofNat_toNat, BitVec.setWidth_eq]
    rw [endOfSector_past isWrite hm (by omega), hlast]

/-- A transfer moved to another sector, with `count` bytes of it still to move. -/
def State.atPlace (s : State) (sector : Byte) (count : Nat) : State :=
  { s with regs.sector := sector, xfer.byteCountRemaining := count }

/-- With bytes left the transfer waits for the next one, on this sector or at the head of the next. -/
theorem afterByte_goes_on {u : State} {left : Nat} (isWrite : Bool) (h : u.PlacedWith (left + 1)) :
    ∃ sector count, 1 ≤ count ∧ (u.atPlace sector count).PlacedWith (left + 1) ∧
      (u.latch.multiSectorFlag = false → sector = u.regs.sector) ∧
      afterByte isWrite u = (if isWrite then (u.atPlace sector count).setDrq else u.atPlace sector count).awaitByte := by
  rcases Nat.eq_zero_or_pos u.xfer.byteCountRemaining with hzero | hpos
  · obtain ⟨honTrack, hcount, hsized, hoffset, hleft⟩ := h
    have hm : u.latch.multiSectorFlag = true := by
      by_contra hm
      rw [if_neg hm] at hleft
      omega
    have hsucc := toNat_succ_of_lt honTrack hcount
    rw [hzero, hm, if_pos rfl, Nat.zero_add] at hleft
    have hmore : u.regs.sector.toNat + 1 < u.xfer.sectorCount := by
      by_contra hno
      rw [Nat.sub_eq_zero_of_le (by omega), Nat.zero_mul] at hleft
      omega
    have haim : sectorOffset u.xfer.base (u.regs.sector + 1).toNat u.xfer.sectorSize = u.xfer.offset := by
      rw [hsucc, ← hoffset, hzero, Nat.add_zero]
    have hnext : (u.setSector (u.regs.sector + 1)).aimAtSector = u.atPlace (u.regs.sector + 1) u.xfer.sectorSize := by
      simp only [State.aimAtSector, State.aimAt, State.setSector_xfer, State.setSector_sector, haim]
      rfl
    refine ⟨u.regs.sector + 1, u.xfer.sectorSize, hsized, ?_, fun hno => absurd (hm.symm.trans hno) (by decide), ?_⟩
    · have hstart := SectorPlace.start (multi := true) (x := (u.atPlace (u.regs.sector + 1) u.xfer.sectorSize).xfer)
        (sector := u.regs.sector + 1) (hsucc.symm ▸ hmore) hcount hsized rfl haim.symm
      have hmulti : (u.atPlace (u.regs.sector + 1) u.xfer.sectorSize).latch.multiSectorFlag = true := hm
      rw [if_pos rfl, hsucc] at hstart
      rw [State.PlacedWith, hmulti, hleft]
      exact hstart
    · rw [afterByte, if_pos hzero, endOfSector_next isWrite hm (by omega), hnext]
  · exact ⟨u.regs.sector, u.xfer.byteCountRemaining, hpos, h, fun _ => rfl, if_neg (by omega)⟩

/-- A byte expiry of a sector transfer that waits for the next byte. -/
structure GoesOn (isWrite : Bool) (left : Nat) (u v : State) : Prop where
  regs : v.regs = { (if isWrite then u.setDrq else u).regs with sector := v.regs.sector }
  xfer : v.xfer = { u.xfer with byteCountRemaining := v.xfer.byteCountRemaining }
  seq : v.seq = { u.seq with cyclesRemaining := (u.cfg.byteTime : Int) }
  frame : TransferFrame u v
  disks : v.disks = u.disks
  place : v.PlacedWith (left + 1)
  pending : 1 ≤ v.xfer.byteCountRemaining
  single : u.latch.multiSectorFlag = false → v.regs.sector = u.regs.sector

theorem afterByte_goesOn {u : State} {left : Nat} (isWrite : Bool) (h : u.PlacedWith (left + 1)) :
    GoesOn isWrite left u (afterByte isWrite u) := by
  obtain ⟨sector, count, hpending, hplace, hsingle, hafter⟩ := afterByte_goes_on isWrite h
  rw [hafter]
  cases isWrite
  · exact ⟨rfl, rfl, rfl, ⟨rfl, rfl, rfl, rfl, rfl, rfl, rfl, rfl, rfl⟩, rfl, hplace, hpending, hsingle⟩
  · exact ⟨rfl, rfl, rfl, ⟨rfl, rfl, rfl, rfl, rfl, rfl, rfl, rfl, rfl⟩, rfl, hplace, hpending, hsingle⟩

/-! ### One byte time (R156) -/

theorem byteTime_pos {c : Config} (h : c.wellFormed = true) : 1 ≤ c.byteTime := by
  simp only [Config.wellFormed, Bool.and_eq_true, decide_eq_true_eq] at h
  exact h.1

/-- The state in which a byte expiry runs. -/
def State.byteDue (s : State) : State := s.quiet.setCycles (s.seq.cyclesRemaining - s.cfg.byteTime)

theorem poll_byteTime {s : State} (hp : s.seq.phase = .transferByte) (hc : s.seq.cyclesRemaining ≤ (s.cfg.byteTime : Int))
    (hpos : 1 ≤ s.cfg.byteTime) : poll s.cfg.byteTime s.quiet = doTransferByte s.byteDue :=
  poll_transferByte (s := s.quiet) hp ⟨hpos, hc⟩

/-! ### The bytes an image holds -/

theorem HoldsBytes.tail {s : State} {d : DriveNo} {k : Head} {offset : Nat} {b : Byte} {bs : List Byte}
    (h : HoldsBytes s d k offset (b :: bs)) : HoldsBytes s d k (offset + 1) bs := by
  intro i hi
  have hnext := h (i + 1) (Nat.succ_lt_succ hi)
  rwa [List.getElem?_cons_succ, Nat.add_comm i 1, ← Nat.add_assoc] at hnext

theorem HoldsBytes.of_images {s t : State} {d : DriveNo} {k : Head} {offset : Nat} {bs : List Byte}
    (h : HoldsBytes s d k offset bs) (hst : imagesUnchanged s t) : HoldsBytes t d k offset bs :=
  fun i hi => (hst d k (offset + i)).trans (h i hi)

/-! ### A host that collects (R201, R203) -/

/-- A Read Sector between two bytes, the last one collected, with the bytes `bs` still to come. -/
structure Collecting (bs : List Byte) (s : State) : Prop where
  phase : s.seq.phase = .transferByte
  cls : s.seq.activeCommandClass = .typeIIRead
  cycles : s.seq.cyclesRemaining = (s.cfg.byteTime : Int)
  timed : 1 ≤ s.cfg.byteTime
  status : s.regs.status = 0x81
  drq : s.regs.drq = false
  place : s.PlacedWith bs.length
  pending : 1 ≤ s.xfer.byteCountRemaining
  holds : HoldsBytes s s.xfer.drive s.xfer.head s.xfer.offset bs

/-- The host has read DATA: the request is over and the byte is answered. -/
def State.collected (s : State) : State := hostRead .data s.quiet

theorem State.collected_regs {s : State} (h : s.regs.drq = true) :
    s.collected.regs = { s.regs with drq := false, status := s.regs.status &&& 0xFD } := by
  rw [State.collected, hostRead, readData, State.clearDrq_of_drq (s := s.quiet) h]
  rfl

@[simp] theorem State.collected_answer (s : State) : s.collected.io.readData = some s.regs.data := by
  simp [State.collected, hostRead, readData, State.quiet]

@[simp] theorem State.collected_cfg (s : State) : s.collected.cfg = s.cfg := by
  simp [State.collected, hostRead, readData, State.quiet]
@[simp] theorem State.collected_seq (s : State) : s.collected.seq = s.seq := by
  simp [State.collected, hostRead, readData, State.quiet]
@[simp] theorem State.collected_latch (s : State) : s.collected.latch = s.latch := by
  simp [State.collected, hostRead, readData, State.quiet]
@[simp] theorem State.collected_xfer (s : State) : s.collected.xfer = s.xfer := by
  simp [State.collected, hostRead, readData, State.quiet]
@[simp] theorem State.collected_disks (s : State) : s.collected.disks = s.disks := by
  simp [State.collected, hostRead, readData, State.quiet]

/-- A byte delivered from an image that holds it, the last one collected. -/
theorem byteRead_regs_held {s : State} {b : Byte} (h : s.imageByte s.xfer.drive s.xfer.head s.xfer.offset = some b)
    (hdrq : s.regs.drq = false) :
    s.byteRead.regs = { s.regs with data := b, drq := true, status := s.regs.status ||| 0x02 } := by
  obtain ⟨hdata, -⟩ := State.byteRead_held h
  rw [State.byteRead_regs] at hdata ⊢
  simp only at hdata
  rw [hdata, lostDataStatus, hdrq]
  rfl

/-- What a sector transfer keeps from byte to byte, and to the end of the command. -/
structure CommandKept (s t : State) : Prop where
  cfg : t.cfg = s.cfg
  latch : t.latch = s.latch
  count : t.xfer.sectorCount = s.xfer.sectorCount
  track : t.regs.track = s.regs.track
  sector : s.latch.multiSectorFlag = false → t.regs.sector = s.regs.sector

theorem CommandKept.trans {s t u : State} (h : CommandKept s t) (k : CommandKept t u) : CommandKept s u :=
  ⟨k.cfg.trans h.cfg, k.latch.trans h.latch, k.count.trans h.count, k.track.trans h.track,
    fun hm => (k.sector (h.latch ▸ hm)).trans (h.sector hm)⟩

/-- How a sector transfer ends when no byte of it came late (R205). -/
structure SectorDone (s t : State) : Prop where
  kept : CommandKept s t
  phase : t.seq.phase = .idle
  cls : t.seq.activeCommandClass = .none
  status : t.regs.status = 0x80
  intrq : t.regs.intrq = true
  drq : t.regs.drq = false
  sector : t.regs.sector = (if s.latch.multiSectorFlag then BitVec.ofNat 8 s.xfer.sectorCount else s.regs.sector)

theorem SectorDone.of_kept {s t u : State} (h : SectorDone t u) (hkept : CommandKept s t) : SectorDone s u := by
  refine ⟨hkept.trans h.kept, h.phase, h.cls, h.status, h.intrq, h.drq, h.sector.trans ?_⟩
  rw [hkept.latch, hkept.count]
  split
  · rfl
  · next hm => exact hkept.sector (by simpa using hm)

section Collect

variable {b : Byte} {bs : List Byte} {s : State} (h : Collecting (b :: bs) s)
include h

theorem Collecting.byteRead_regs :
    s.byteDue.byteRead.regs = { s.regs with data := b, drq := true, status := 0x83 } := by
  have hheld : s.byteDue.imageByte s.byteDue.xfer.drive s.byteDue.xfer.head s.byteDue.xfer.offset = some b :=
    h.holds 0 (Nat.succ_pos _)
  rw [byteRead_regs_held hheld h.drq]
  have hstatus : s.byteDue.regs.status ||| 0x02 = 0x83 := by
    rw [show s.byteDue.regs.status = 0x81 from h.status]
    rfl
  rw [hstatus]
  rfl

theorem Collecting.byteRead_place : s.byteDue.byteRead.PlacedWith bs.length := by
  rw [State.PlacedWith, State.byteRead_xfer, s.byteDue.byteRead_frame.latch, h.byteRead_regs]
  exact h.place.advance h.pending

/-- The expiry of a byte time: the byte is in DATA and the request is up. -/
theorem Collecting.poll : poll s.cfg.byteTime s.quiet = .next (afterByte false s.byteDue.byteRead) := by
  rw [poll_byteTime h.phase h.cycles.le h.timed, doTransferByte_readSector (s := s.byteDue) h.cls, readSectorByte_afterByte]

end Collect

theorem State.setSector_registers (s : State) (v : Byte) : (s.setSector v).regs = { s.regs with sector := v } := rfl

/-- The last byte: when it is collected the command is over. -/
theorem Collecting.last {b : Byte} {s : State} (h : Collecting [b] s) :
    SectorDone s (afterByte false s.byteDue.byteRead).collected ∧
      (afterByte false s.byteDue.byteRead).collected.regs.data = b ∧
      (afterByte false s.byteDue.byteRead).collected.disks = s.disks := by
  have hend := afterByte_ends false (show s.byteDue.byteRead.PlacedWith 0 from h.byteRead_place)
  have hbusy : (0x83 : Byte) &&& 0xFE &&& 0xFD = 0x80 := by decide
  have hregs : (afterByte false s.byteDue.byteRead).regs = { s.regs with
      data := b, drq := true, intrq := true, status := 0x83 &&& 0xFE, sector := s.byteDue.byteRead.lastSector } := by
    rw [hend, State.complete_regs_eq, putBit_busy_clear, State.setSector_registers, h.byteRead_regs, Bool.or_true]
  have hlast : s.byteDue.byteRead.lastSector
      = if s.latch.multiSectorFlag then BitVec.ofNat 8 s.xfer.sectorCount else s.regs.sector := by
    rw [State.lastSector, s.byteDue.byteRead_frame.latch, State.byteRead_xfer, h.byteRead_regs]
    rfl
  have hcollected := State.collected_regs (s := afterByte false s.byteDue.byteRead) (by rw [hregs])
  rw [hregs] at hcollected
  simp only [hbusy] at hcollected
  refine ⟨⟨⟨?cfg, ?latch, ?count, by rw [hcollected], fun hm => ?single⟩, by simp [hend], by simp [hend],
    by rw [hcollected], by rw [hcollected], by rw [hcollected], by rw [hcollected]; exact hlast⟩, by rw [hcollected], ?disks⟩
  case cfg =>
    rw [State.collected_cfg, hend, State.complete_cfg, State.setSector_cfg, s.byteDue.byteRead_frame.cfg]
    rfl
  case latch =>
    rw [State.collected_latch, hend, State.complete_latch, State.setSector_latch, s.byteDue.byteRead_frame.latch]
    rfl
  case count =>
    rw [State.collected_xfer, hend, State.complete_xfer, State.setSector_xfer, State.byteRead_xfer]
    rfl
  case single =>
    rw [hcollected]
    exact hlast.trans (by rw [hm]; rfl)
  case disks =>
    rw [State.collected_disks, hend, State.complete_disks, State.setSector_disks, State.byteRead_disks]
    rfl

/-- A byte before the last: when it is collected the command waits for the next one. -/
theorem Collecting.next {b c : Byte} {bs : List Byte} {s : State} (h : Collecting (b :: c :: bs) s) :
    Collecting (c :: bs) (afterByte false s.byteDue.byteRead).collected ∧
      CommandKept s (afterByte false s.byteDue.byteRead).collected ∧
      (afterByte false s.byteDue.byteRead).collected.disks = s.disks := by
  have hmoved := s.byteDue.byteRead_frame
  obtain ⟨hregs, hxfer, hseq, hframe, hdisks, hplace, hpending, hsingle⟩ :=
    afterByte_goesOn false (show s.byteDue.byteRead.PlacedWith (bs.length + 1) from h.byteRead_place)
  have hstatus : (0x83 : Byte) &&& 0xFD = 0x81 := by decide
  rw [if_neg Bool.false_ne_true, h.byteRead_regs] at hregs
  rw [State.byteRead_xfer] at hxfer
  rw [State.byteRead_seq, hmoved.cfg] at hseq
  rw [State.byteRead_disks] at hdisks
  generalize afterByte false s.byteDue.byteRead = v at *
  have hcollected := State.collected_regs (s := v) (by rw [hregs])
  have hsector : v.collected.regs.sector = v.regs.sector := by rw [hcollected]
  rw [hregs] at hcollected
  simp only [hstatus] at hcollected
  have hcfg : v.collected.cfg = s.cfg := v.collected_cfg.trans (hframe.cfg.trans hmoved.cfg)
  have hlatch : v.collected.latch = s.latch := v.collected_latch.trans (hframe.latch.trans hmoved.latch)
  have himages : imagesUnchanged s v.collected := imagesUnchanged_of_disks (v.collected_disks.trans hdisks)
  refine ⟨⟨by rw [State.collected_seq, hseq]; exact h.phase, by rw [State.collected_seq, hseq]; exact h.cls,
    by rw [State.collected_seq, hseq, hcfg]; rfl, by rw [hcfg]; exact h.timed, by rw [hcollected], by rw [hcollected],
    ?place, by rw [State.collected_xfer]; exact hpending, ?holds⟩, ⟨hcfg, hlatch, ?count, by rw [hcollected],
    fun hm => ?single⟩, ?disks⟩
  case place =>
    rw [State.PlacedWith, State.collected_latch, State.collected_xfer, hsector]
    exact hplace
  case holds =>
    rw [State.collected_xfer, hxfer]
    exact h.holds.tail.of_images himages
  case count =>
    rw [State.collected_xfer, hxfer]
    rfl
  case single =>
    rw [hsector, hsingle (by rw [hmoved.latch]; exact hm), h.byteRead_regs]
  case disks => exact v.collected_disks.trans hdisks

/-- One byte's part of the script: a byte time, then the read of DATA. -/
theorem Collecting.script {b : Byte} {bs : List Byte} {s : State} (h : Collecting (b :: bs) s) {es : List Event}
    {cs : List Byte} {t : State} (hes : runScript es (afterByte false s.byteDue.byteRead).collected = some (t, cs)) :
    runScript (.poll s.cfg.byteTime :: .hostRead .data :: es) s = some (t, b :: cs) := by
  have hanswer : (afterByte false s.byteDue.byteRead).io.readData = none := by
    rw [afterByte_io, s.byteDue.byteRead_frame.answer]
    rfl
  have hdata : (afterByte false s.byteDue.byteRead).regs.data = b := by rw [afterByte_data, h.byteRead_regs]
  rw [runScript_cons_silent (e := .poll s.cfg.byteTime) h.poll hanswer]
  exact runScript_cons_answer (e := .hostRead .data) rfl (by rw [← hdata]; exact State.collected_answer _) hes

/-- The collecting host gets every byte, and the command is over when it has the last one. -/
theorem Collecting.run {bs : List Byte} : ∀ {b : Byte} {s : State}, Collecting (b :: bs) s →
    ∃ t, runScript (collectScript s.cfg.byteTime (bs.length + 1)) s = some (t, b :: bs) ∧ SectorDone s t ∧
      t.regs.data = (b :: bs).getLast (List.cons_ne_nil b bs) ∧ t.disks = s.disks := by
  induction bs with
  | nil => exact fun h => ⟨_, h.script rfl, h.last⟩
  | cons c bs ih =>
    intro b s h
    obtain ⟨hnext, hkept, hdisks⟩ := h.next
    obtain ⟨t, ht, hdone, hdata, hdisks'⟩ := ih hnext
    rw [hkept.cfg] at ht
    exact ⟨t, h.script ht, hdone.of_kept hkept, hdata, hdisks'.trans hdisks⟩

/-! ### From the command write to the first byte time (R140, R154, R201, R202) -/

/-- The sector SECTOR names is on the media under the selected head, and nothing stops a transfer of class `c` on it. -/
structure SectorFound (c : CommandClass) (g : Geometry) (s : State) : Prop where
  opened : (s.disk s.board.selDrive).isOpen = true
  writable : ¬(isWriteClass c = true ∧ (s.disk s.board.selDrive).isWriteProtected = true)
  unchecked : s.cfg.densityCheckOnTransfer = false
  mapped : s.geometry s.board.selDrive s.board.selHead s.regs.track.toNat = some g
  onTrack : s.regs.sector.toNat < g.sectorCount.val
  sized : 1 ≤ g.sectorSize

theorem SectorFound.checks {g : Geometry} {s : State} (h : SectorFound s.seq.activeCommandClass g s) :
    transferChecks s = .ok g := by
  obtain ⟨hopened, hwritable, hunchecked, hmapped, honTrack, hsized⟩ := h
  rw [transferChecks_mapped hwritable hopened hmapped, if_neg (by omega), if_neg (by simp [hunchecked]),
    if_neg (by simp [honTrack])]

/-- A Type II command has been accepted in `s` and has passed its checks in `u`; its first byte time begins in `v`. -/
structure SectorBegun (m : Bool) (c : CommandClass) (g : Geometry) (s v : State) : Prop where
  seq : v.seq = { phase := .transferByte, activeCommandClass := c, cyclesRemaining := (s.cfg.byteTime : Int), confusion := false }
  cfg : v.cfg = s.cfg
  multi : v.latch.multiSectorFlag = m
  xfer : v.xfer = { drive := s.board.selDrive, head := s.board.selHead, sectorCount := g.sectorCount.val,
                    sectorSize := g.sectorSize, base := g.baseOffset,
                    offset := sectorOffset g.baseOffset s.regs.sector.toNat g.sectorSize, byteCountRemaining := g.sectorSize }
  track : v.regs.track = s.regs.track
  sector : v.regs.sector = s.regs.sector
  status : v.regs.status = if isWriteClass c then 0x83 else 0x81
  drq : v.regs.drq = isWriteClass c
  disks : v.disks = s.disks
  answer : v.io.readData = none

theorem SectorBegun.place {m : Bool} {c : CommandClass} {g : Geometry} {s v : State} (h : SectorBegun m c g s v)
    (hfound : SectorFound c g s) :
    v.PlacedWith ((if m then g.sectorCount.val - s.regs.sector.toNat else 1) * g.sectorSize) := by
  have hcount : g.sectorCount.val ≤ 255 := by omega
  rw [State.PlacedWith, h.multi, h.xfer, h.sector]
  exact SectorPlace.start hfound.onTrack hcount hfound.sized rfl rfl

theorem SectorFound.of_begun {c : CommandClass} {g : Geometry} {s u : State} (h : SectorFound c g s) (hcfg : u.cfg = s.cfg)
    (hboard : u.board = s.board) (hdisks : u.disks = s.disks) (htrack : u.regs.track = s.regs.track)
    (hsector : u.regs.sector = s.regs.sector) : SectorFound c g u := by
  have hdisk : ∀ d, u.disk d = s.disk d := fun d => by rw [State.disk, hdisks]; rfl
  have hgeometry : ∀ d k t, u.geometry d k t = s.geometry d k t := fun d k t => by rw [State.geometry, hdisk]; rfl
  obtain ⟨hopened, hwritable, hunchecked, hmapped, honTrack, hsized⟩ := h
  exact ⟨by rw [hboard, hdisk]; exact hopened, by rw [hboard, hdisk]; exact hwritable, by rw [hcfg]; exact hunchecked,
    by rw [hboard, htrack, hgeometry]; exact hmapped, by rw [hsector]; exact honTrack, hsized⟩

theorem SectorBegun.of_begun {m : Bool} {c : CommandClass} {g : Geometry} {s u v : State} (h : SectorBegun m c g u v)
    (hcfg : u.cfg = s.cfg) (hboard : u.board = s.board) (hdisks : u.disks = s.disks) (htrack : u.regs.track = s.regs.track)
    (hsector : u.regs.sector = s.regs.sector) : SectorBegun m c g s v :=
  ⟨by rw [h.seq, hcfg], h.cfg.trans hcfg, h.multi, by rw [h.xfer, hboard, hsector], h.track.trans htrack,
    h.sector.trans hsector, h.status, h.drq, h.disks.trans hdisks, h.answer⟩

/-- The end of TransferPrepare of a Type II command whose checks pass (R201, R202). -/
theorem sector_prepare_begins {s : State} {g : Geometry} (hp : s.seq.phase = .transferPrepare)
    (hclass : isSectorClass s.seq.activeCommandClass = true) (hconf : s.seq.confusion = false)
    (hcycles : s.seq.cyclesRemaining = 0) (hstatus : s.regs.status = 0x81) (hdrq : s.regs.drq = false)
    (hanswer : s.io.readData = none) (hfound : SectorFound s.seq.activeCommandClass g s) :
    ∃ v, poll 1 s = .next v ∧ SectorBegun s.latch.multiSectorFlag s.seq.activeCommandClass g s v := by
  have hexpires : Expires 1 s := ⟨le_rfl, by rw [hcycles]; decide⟩
  have hprepare := poll_prepare_ok hp hexpires hfound.checks
  have hlatched := s.latched_status 1 g
  rw [hstatus] at hlatched
  have hread : isSectorClass s.seq.activeCommandClass = true → s.seq.activeCommandClass = .typeIIRead ∨
      s.seq.activeCommandClass = .typeIIWrite := by simp [isSectorClass]
  obtain hc | hc := hread hclass
  · refine ⟨_, hprepare.trans (prepareTransfer_readSector 1 g hc), ?_, rfl, rfl, rfl, rfl, rfl, ?_, ?_, rfl, hanswer⟩
    · rw [← hconf]
      rfl
    · rw [hc]
      exact hlatched
    · rw [hc]
      exact hdrq
  · refine ⟨_, hprepare.trans (prepareTransfer_writeSector 1 g hc), ?_, rfl, rfl, rfl, rfl, rfl, ?_, ?_, rfl, hanswer⟩
    · rw [← hconf]
      rfl
    · rw [hc]
      exact (putBit_request_set_latched s 1 g).trans (by rw [hstatus]; decide)
    · rw [hc]
      rfl

/-- A Type II command without the settle flag, with the motor on, in its two first events. -/
theorem sector_command_begins {i : Instr} {s : State} {g : Geometry} (hclass : isSectorClass (startedClass i) = true)
    (hsettle : (latchedFields i).settleFlag = false) (hp : s.seq.phase = .idle) (hmotor : s.statusBit motorBit = true)
    (hfound : SectorFound (startedClass i) g s) :
    ∃ u v, exec i s.quiet = .next u ∧ u.io.readData = none ∧ poll 1 u.quiet = .next v ∧
      SectorBegun (latchedFields i).multiSectorFlag (startedClass i) g s v := by
  have hentry : isTransferClass (startedClass i) = true ∧
      classEntry (startedClass i) (latchedFields i).settleFlag = .transferPrepare := by
    rw [hsettle]
    cases i <;> first | exact ⟨rfl, rfl⟩ | cases hclass
  obtain ⟨u, hu, hregs, hseq, hlatch, -, -, hrest⟩ := transfersStart i s.quiet hentry.1 hp hmotor
  rw [hentry.2] at hseq
  have htrack : u.regs.track = s.regs.track := by rw [hregs]; rfl
  have hsector : u.regs.sector = s.regs.sector := by rw [hregs]; rfl
  have hfound' : SectorFound u.seq.activeCommandClass g u.quiet := by
    rw [hseq]
    exact hfound.of_begun hrest.cfg hrest.board hrest.disks htrack hsector
  obtain ⟨v, hv, hbegun⟩ := sector_prepare_begins (s := u.quiet) (congrArg Sequencer.phase hseq)
    ((congrArg (fun q => isSectorClass q.activeCommandClass) hseq).trans hclass) (congrArg Sequencer.confusion hseq)
    (congrArg Sequencer.cyclesRemaining hseq) (congrArg Registers.status hregs) (congrArg Registers.drq hregs) rfl hfound'
  have hstarted : u.quiet.seq.activeCommandClass = startedClass i := congrArg Sequencer.activeCommandClass hseq
  rw [hstarted, show u.quiet.latch = latchedFields i from hlatch] at hbegun
  exact ⟨u, v, hu, hrest.answer, hv, hbegun.of_begun hrest.cfg hrest.board hrest.disks htrack hsector⟩

/-- Settles O55: the command's first byte time begins, and the host collects to the end. -/
theorem readSectorDelivers : Obligations.ReadSectorDelivers := by
  intro v m x s g bs hdecode hp hmotor hwf hopened hunchecked hmapped hon hsized hlength hholds
  have hfound : SectorFound .typeIIRead g s := ⟨hopened, nofun, hunchecked, hmapped, hon, hsized⟩
  obtain ⟨u, w, hu, hanswer, hw, hbegun⟩ := sector_command_begins (i := .rdsec m false x) rfl rfl hp hmotor hfound
  have hcommand : runEvent (.hostWrite .command v) s.quiet = .next u := by rw [runEvent, hdecode, hu]
  replace hbegun : SectorBegun m .typeIIRead g s w := hbegun
  have hplace := hbegun.place hfound
  rw [← hlength] at hplace
  have hcollecting : Collecting bs w := by
    refine ⟨by rw [hbegun.seq], by rw [hbegun.seq], by rw [hbegun.seq, hbegun.cfg], ?timed, hbegun.status, hbegun.drq, hplace,
      by rw [hbegun.xfer]; exact hsized, ?holds⟩
    case timed =>
      rw [hbegun.cfg]
      exact byteTime_pos hwf
    case holds =>
      rw [hbegun.xfer]
      exact hholds.of_images (imagesUnchanged_of_disks hbegun.disks)
  have hpos : 0 < bs.length := hlength ▸ sector_bytes_pos m hon hsized
  obtain ⟨b, bs, rfl⟩ := List.exists_cons_of_length_pos hpos
  obtain ⟨t, ht, ⟨hkept, hphase, hcls, hstatus, hintrq, hdrq, hsector⟩, hdata, hdisks⟩ := hcollecting.run
  rw [hbegun.cfg] at ht
  refine ⟨t, ?run, hphase, hcls, hstatus, hintrq, hdrq, hkept.track.trans hbegun.track, ?sector, ?data,
    imagesUnchanged_of_disks (hdisks.trans hbegun.disks)⟩
  case run =>
    rw [runScript_cons_silent hcommand hanswer, runScript_cons_silent (e := .poll 1) hw hbegun.answer]
    exact ht
  case sector => rw [hsector, hbegun.multi, hbegun.xfer, hbegun.sector]
  case data => rw [hdata, List.getLast?_eq_getLast_of_ne_nil (List.cons_ne_nil b bs)]

end Sys2Proof.Machine
end

section
/-! Whole Write Sector commands (spec/43_type2_commands.md R202, R204, R205): the host that supplies each byte, and the bytes
stored. -/

namespace Sys2Proof.Machine

/-! ### Bytes stored one after the other (R66) -/

/-- One byte of one side of one drive has been stored, and no other byte has changed. -/
def ByteStored (b : Byte) (s t : State) (d : DriveNo) (k : Head) (offset : Nat) : Prop :=
  ∀ d' k' o, t.imageByte d' k' o = if d = d' ∧ k = k' ∧ offset = o then some b else s.imageByte d' k' o

/-- The bytes of a list have been stored from an offset on, and no other byte has changed. -/
structure Stores (bs : List Byte) (s t : State) (d : DriveNo) (k : Head) (offset : Nat) : Prop where
  holds : HoldsBytes t d k offset bs
  only : OnlyRangeWritten s t d k offset bs.length

theorem ByteStored.stores {b : Byte} {s t : State} {d : DriveNo} {k : Head} {offset : Nat} (h : ByteStored b s t d k offset) :
    Stores [b] s t d k offset := by
  refine ⟨fun i hi => ?_, fun d' k' o hout => ?_⟩
  · obtain rfl : i = 0 := by simpa using hi
    rw [h, if_pos ⟨rfl, rfl, rfl⟩]
    rfl
  · rw [h, if_neg]
    rintro ⟨rfl, rfl, rfl⟩
    exact hout ⟨rfl, rfl, le_rfl, by simp⟩

theorem Stores.cons {b : Byte} {bs : List Byte} {s t u : State} {d : DriveNo} {k : Head} {offset : Nat}
    (h : ByteStored b s t d k offset) (hs : Stores bs t u d k (offset + 1)) : Stores (b :: bs) s u d k offset := by
  refine ⟨fun i hi => ?_, fun d' k' o hout => ?_⟩
  · rcases i with _ | i
    · rw [hs.only d k (offset + 0) (by omega), h, if_pos ⟨rfl, rfl, rfl⟩]
      rfl
    · rw [List.getElem?_cons_succ, ← hs.holds i (by simpa using hi), Nat.add_assoc, Nat.add_comm 1 i]
  · rw [List.length_cons] at hout
    rw [hs.only d' k' o (fun hin => hout ⟨hin.1, hin.2.1, by omega, by omega⟩), h, if_neg]
    rintro ⟨rfl, rfl, rfl⟩
    exact hout ⟨rfl, rfl, le_rfl, by omega⟩

theorem Stores.of_unchanged {bs : List Byte} {s t u : State} {d : DriveNo} {k : Head} {offset : Nat}
    (h : Stores bs t u d k offset) (hst : imagesUnchanged s t) : Stores bs s u d k offset :=
  ⟨h.holds, fun d' k' o hout => (h.only d' k' o hout).trans (hst d' k' o)⟩

/-! ### A host that supplies (R202, R204) -/

/-- The host has written DATA. -/
def State.supplied (s : State) (b : Byte) : State := writeDataRegister b s.quiet

@[simp] theorem State.supplied_cfg (s : State) (b : Byte) : (s.supplied b).cfg = s.cfg := by
  simp [State.supplied, writeDataRegister, State.quiet]
@[simp] theorem State.supplied_seq (s : State) (b : Byte) : (s.supplied b).seq = s.seq := by
  simp [State.supplied, writeDataRegister, State.quiet]
@[simp] theorem State.supplied_latch (s : State) (b : Byte) : (s.supplied b).latch = s.latch := by
  simp [State.supplied, writeDataRegister, State.quiet]
@[simp] theorem State.supplied_xfer (s : State) (b : Byte) : (s.supplied b).xfer = s.xfer := by
  simp [State.supplied, writeDataRegister, State.quiet]
@[simp] theorem State.supplied_wt (s : State) (b : Byte) : (s.supplied b).wt = s.wt := by
  simp [State.supplied, writeDataRegister, State.quiet]
@[simp] theorem State.supplied_disks (s : State) (b : Byte) : (s.supplied b).disks = s.disks := by
  simp [State.supplied, writeDataRegister, State.quiet]
@[simp] theorem State.supplied_answer (s : State) (b : Byte) : (s.supplied b).io.readData = none := by
  simp [State.supplied, writeDataRegister, State.quiet]
@[simp] theorem State.supplied_drq (s : State) (b : Byte) : (s.supplied b).regs.drq = false := by
  simp [State.supplied, writeDataRegister]

theorem State.supplied_regs {s : State} (b : Byte) (h : s.regs.drq = true) :
    (s.supplied b).regs = { s.regs with data := b, drq := false, status := s.regs.status &&& 0xFD } := by
  rw [State.supplied, writeDataRegister, State.clearDrq_of_drq (s := s.quiet.setData b) h]
  rfl

/-- The state in which the expiry takes the byte the host has supplied. -/
def State.suppliedDue (s : State) (b : Byte) : State := (s.supplied b).byteDue

theorem imageByte_suppliedDue (s : State) (b : Byte) : imagesUnchanged s (s.suppliedDue b) :=
  imagesUnchanged_of_disks (s.supplied_disks b)

theorem suppliedDue_byteWritten_xfer (s : State) (b : Byte) :
    (s.suppliedDue b).byteWritten.xfer
      = { s.xfer with offset := s.xfer.offset + 1, byteCountRemaining := s.xfer.byteCountRemaining - 1 } := by
  have hxfer : (s.suppliedDue b).xfer = s.xfer := s.supplied_xfer b
  rw [State.byteWritten_xfer, hxfer]

/-- One byte's part of the script: the write of DATA, then a byte time. -/
theorem runScript_supply {s t : State} {b : Byte} {es : List Event} (hp : s.seq.phase = .transferByte)
    (hc : s.seq.cyclesRemaining ≤ (s.cfg.byteTime : Int)) (htimed : 1 ≤ s.cfg.byteTime)
    (ht : doTransferByte (s.suppliedDue b) = .next t) (hanswer : t.io.readData = none) :
    runScript (.hostWrite .data b :: .poll s.cfg.byteTime :: es) s = runScript es t := by
  have hpoll : poll s.cfg.byteTime (s.supplied b).quiet = .next t := by
    have hbyte := poll_byteTime (s := s.supplied b) (by rw [State.supplied_seq]; exact hp)
      (by rw [State.supplied_seq, State.supplied_cfg]; exact hc) (by rw [State.supplied_cfg]; exact htimed)
    rw [State.supplied_cfg] at hbyte
    exact hbyte.trans ht
  exact (runScript_cons_silent (e := .hostWrite .data b) rfl (s.supplied_answer b) _).trans
    (runScript_cons_silent (e := .poll s.cfg.byteTime) hpoll hanswer es)

/-- A Write Sector that asks for a byte, with `n` bytes still to come. -/
structure Supplying (n : Nat) (s : State) : Prop where
  phase : s.seq.phase = .transferByte
  cls : s.seq.activeCommandClass = .typeIIWrite
  cycles : s.seq.cyclesRemaining = (s.cfg.byteTime : Int)
  timed : 1 ≤ s.cfg.byteTime
  status : s.regs.status = 0x83
  drq : s.regs.drq = true
  place : s.PlacedWith n
  pending : 1 ≤ s.xfer.byteCountRemaining

section Supply

variable {n : Nat} {s : State} (h : Supplying (n + 1) s) (b : Byte)
include h

theorem Supplying.byteWritten_regs :
    (s.suppliedDue b).byteWritten.regs = { s.regs with data := b, drq := false, status := 0x81 } := by
  have hstatus : (0x83 : Byte) &&& 0xFD &&& 0xFD = 0x81 := by decide
  have hregs : (s.suppliedDue b).regs = { s.regs with data := b, drq := false, status := s.regs.status &&& 0xFD } :=
    State.supplied_regs b h.drq
  rw [State.byteWritten_regs, lostDataStatus, hregs, if_neg Bool.false_ne_true, h.status, hstatus]

theorem Supplying.byteWritten_place : (s.suppliedDue b).byteWritten.PlacedWith n := by
  have hlatch : (s.suppliedDue b).byteWritten.latch = s.latch :=
    (s.suppliedDue b).byteWritten_frame.latch.trans (s.supplied_latch b)
  rw [State.PlacedWith, hlatch, suppliedDue_byteWritten_xfer, h.byteWritten_regs]
  exact h.place.advance h.pending

theorem Supplying.byteStored :
    ByteStored b s (afterByte true (s.suppliedDue b).byteWritten) s.xfer.drive s.xfer.head s.xfer.offset := by
  have hplace : (s.suppliedDue b).xfer = s.xfer := s.supplied_xfer b
  have hdata : (s.suppliedDue b).regs.data = b := congrArg Registers.data (State.supplied_regs b h.drq)
  intro d k o
  rw [imagesUnchanged_of_disks (afterByte_disks true _), State.byteWritten_imageByte, hplace, hdata, imageByte_suppliedDue]

theorem Supplying.script {es : List Event} :
    runScript (.hostWrite .data b :: .poll s.cfg.byteTime :: es) s
      = runScript es (afterByte true (s.suppliedDue b).byteWritten) := by
  have hcls : (s.suppliedDue b).seq.activeCommandClass = .typeIIWrite :=
    (congrArg Sequencer.activeCommandClass (s.supplied_seq b)).trans h.cls
  refine runScript_supply h.phase h.cycles.le h.timed ?_ ?_
  · rw [doTransferByte_writeSector hcls, writeSectorByte_afterByte]
  · rw [afterByte_io, State.byteWritten_io]
    rfl

end Supply

/-- The last byte ends the command. -/
theorem Supplying.last {s : State} (h : Supplying 1 s) (b : Byte) :
    SectorDone s (afterByte true (s.suppliedDue b).byteWritten) := by
  have hmoved := (s.suppliedDue b).byteWritten_frame
  have hend := afterByte_ends true (h.byteWritten_place b)
  have hbusy : (0x81 : Byte) &&& 0xFE = 0x80 := by decide
  have hregs : (afterByte true (s.suppliedDue b).byteWritten).regs = { s.regs with
      data := b, drq := false, intrq := true, status := 0x80, sector := (s.suppliedDue b).byteWritten.lastSector } := by
    rw [hend, State.complete_regs_eq, putBit_busy_clear, State.setSector_registers, h.byteWritten_regs, Bool.or_true]
    simp only [hbusy]
  have hlast : (s.suppliedDue b).byteWritten.lastSector
      = if s.latch.multiSectorFlag then BitVec.ofNat 8 s.xfer.sectorCount else s.regs.sector := by
    rw [State.lastSector, hmoved.latch, suppliedDue_byteWritten_xfer, h.byteWritten_regs,
      show (s.suppliedDue b).latch = s.latch from s.supplied_latch b]
  refine ⟨⟨?cfg, ?latch, ?count, by rw [hregs], fun hm => ?single⟩, by simp [hend], by simp [hend], by rw [hregs],
    by rw [hregs], by rw [hregs], by rw [hregs]; exact hlast⟩
  case cfg =>
    rw [hend, State.complete_cfg, State.setSector_cfg, hmoved.cfg]
    exact s.supplied_cfg b
  case latch =>
    rw [hend, State.complete_latch, State.setSector_latch, hmoved.latch]
    exact s.supplied_latch b
  case count => rw [hend, State.complete_xfer, State.setSector_xfer, suppliedDue_byteWritten_xfer]
  case single =>
    rw [hregs]
    exact hlast.trans (by rw [hm]; rfl)

/-- After a byte before the last the command asks for the next one. -/
theorem Supplying.next {n : Nat} {s : State} (h : Supplying (n + 2) s) (b : Byte) :
    Supplying (n + 1) (afterByte true (s.suppliedDue b).byteWritten) ∧
      CommandKept s (afterByte true (s.suppliedDue b).byteWritten) ∧
      (afterByte true (s.suppliedDue b).byteWritten).xfer = { s.xfer with
        offset := s.xfer.offset + 1
        byteCountRemaining := (afterByte true (s.suppliedDue b).byteWritten).xfer.byteCountRemaining } := by
  have hmoved := (s.suppliedDue b).byteWritten_frame
  obtain ⟨hregs, hxfer, hseq, hframe, hdisks, hplace, hpending, hsingle⟩ := afterByte_goesOn true (h.byteWritten_place b)
  have hstatus : putBit 0x81 requestBit true = 0x83 := by decide
  have hrequest : ∀ u : State, u.setDrq.regs = { u.regs with drq := true, status := putBit u.regs.status requestBit true } :=
    fun _ => rfl
  rw [if_pos rfl, hrequest, h.byteWritten_regs, hstatus] at hregs
  rw [suppliedDue_byteWritten_xfer] at hxfer
  rw [State.byteWritten_seq, hmoved.cfg, show (s.suppliedDue b).cfg = s.cfg from s.supplied_cfg b] at hseq
  rw [h.byteWritten_regs, hmoved.latch, show (s.suppliedDue b).latch = s.latch from s.supplied_latch b] at hsingle
  have hcfg := hframe.cfg.trans (hmoved.cfg.trans (s.supplied_cfg b))
  have hlatch := hframe.latch.trans (hmoved.latch.trans (s.supplied_latch b))
  have hwas : (s.suppliedDue b).seq.phase = .transferByte ∧ (s.suppliedDue b).seq.activeCommandClass = .typeIIWrite :=
    ⟨(congrArg Sequencer.phase (s.supplied_seq b)).trans h.phase,
      (congrArg Sequencer.activeCommandClass (s.supplied_seq b)).trans h.cls⟩
  generalize afterByte true (s.suppliedDue b).byteWritten = v at *
  exact ⟨⟨by rw [hseq]; exact hwas.1, by rw [hseq]; exact hwas.2, by rw [hseq, hcfg], by rw [hcfg]; exact h.timed,
    by rw [hregs], by rw [hregs], hplace, hpending⟩, ⟨hcfg, hlatch, by rw [hxfer], by rw [hregs], hsingle⟩, hxfer⟩

/-- The supplying host's bytes are stored one after the other, and the command is over with the last one. -/
theorem Supplying.run : ∀ {bs : List Byte} {b : Byte} {s : State}, Supplying (bs.length + 1) s →
    ∃ t, runScript (supplyScript s.cfg.byteTime (b :: bs)) s = some (t, []) ∧ SectorDone s t ∧
      Stores (b :: bs) s t s.xfer.drive s.xfer.head s.xfer.offset := by
  intro bs
  induction bs with
  | nil => exact fun {b s} h => ⟨_, h.script b, h.last b, (h.byteStored b).stores⟩
  | cons c bs ih =>
    intro b s h
    obtain ⟨hnext, hkept, hxfer⟩ := h.next b
    obtain ⟨t, ht, hdone, hstores⟩ := ih (b := c) hnext
    rw [hkept.cfg] at ht
    rw [hxfer] at hstores
    exact ⟨t, (h.script b).trans ht, hdone.of_kept hkept, .cons (h.byteStored b) hstores⟩

/-- Settles O56: the command's first byte time begins, and the host supplies to the end. -/
theorem writeSectorStores : Obligations.WriteSectorStores := by
  intro v m x s g bs hdecode hp hmotor hwf hopened hwritable hunchecked hmapped hon hsized hlength
  have hfound : SectorFound .typeIIWrite g s :=
    ⟨hopened, fun h => absurd (hwritable.symm.trans h.2) (by decide), hunchecked, hmapped, hon, hsized⟩
  obtain ⟨u, w, hu, hanswer, hw, hbegun⟩ := sector_command_begins (i := .wrsec m false x) rfl rfl hp hmotor hfound
  have hcommand : runEvent (.hostWrite .command v) s.quiet = .next u := by rw [runEvent, hdecode, hu]
  replace hbegun : SectorBegun m .typeIIWrite g s w := hbegun
  have hplace := hbegun.place hfound
  rw [← hlength] at hplace
  have hpos : 0 < bs.length := hlength ▸ sector_bytes_pos m hon hsized
  obtain ⟨b, bs, rfl⟩ := List.exists_cons_of_length_pos hpos
  have hsupplying : Supplying (bs.length + 1) w :=
    ⟨by rw [hbegun.seq], by rw [hbegun.seq], by rw [hbegun.seq, hbegun.cfg], by rw [hbegun.cfg]; exact byteTime_pos hwf,
      hbegun.status, hbegun.drq, hplace, by rw [hbegun.xfer]; exact hsized⟩
  obtain ⟨t, ht, ⟨hkept, hphase, hcls, hstatus, hintrq, hdrq, hsector⟩, hstores⟩ := hsupplying.run (b := b)
  rw [hbegun.cfg] at ht
  rw [hbegun.xfer] at hstores
  obtain ⟨hholds, honly⟩ := hstores.of_unchanged (imagesUnchanged_of_disks hbegun.disks)
  refine ⟨t, ?run, hphase, hcls, hstatus, hintrq, hdrq, hkept.track.trans hbegun.track, ?sector, hholds, honly⟩
  case run =>
    rw [runScript_cons_silent hcommand hanswer, runScript_cons_silent (e := .poll 1) hw hbegun.answer]
    exact ht
  case sector => rw [hsector, hbegun.multi, hbegun.xfer, hbegun.sector]

end Sys2Proof.Machine
end

section
/-! One sector of a Write Track stream (spec/44_type3_commands.md R241 to R244): the ID field, the data mark and the data, each
byte supplied within its byte time. -/

namespace Sys2Proof.Machine

/-! ### Bytes fed to the command one by one -/

/-- Feeding the bytes in time takes the machine from `s` to `t`, whatever the script does then. -/
def Feeds (bs : List Byte) (s t : State) : Prop :=
  ∀ es, runScript (supplyScript s.cfg.byteTime bs ++ es) s = runScript es t

theorem Feeds.cons {b : Byte} {bs : List Byte} {s t u : State} (h : Feeds [b] s t) (hcfg : t.cfg = s.cfg) (k : Feeds bs t u) :
    Feeds (b :: bs) s u := by
  intro es
  rw [← k es, hcfg]
  exact h (supplyScript s.cfg.byteTime bs ++ es)

theorem Feeds.append {bs cs : List Byte} {s t u : State} (h : Feeds bs s t) (hcfg : t.cfg = s.cfg) (k : Feeds cs t u) :
    Feeds (bs ++ cs) s u := by
  have hsplit : ∀ n as, supplyScript n (as ++ cs) = supplyScript n as ++ supplyScript n cs := fun n as => by
    induction as with
    | nil => rfl
    | cons a as ih => simp only [List.cons_append, supplyScript, ih]
  intro es
  rw [hsplit, List.append_assoc, h, ← hcfg, k]

/-- A Write Track that takes stream bytes: its sub-state and its transfer, and what is still as it was in `origin`. -/
structure Streaming (origin : State) (w : WriteTrackScan) (x : Transfer) (s : State) : Prop where
  phase : s.seq.phase = .transferByte
  cls : s.seq.activeCommandClass = .writeTrack
  cycles : s.seq.cyclesRemaining ≤ (s.cfg.byteTime : Int)
  timed : 1 ≤ s.cfg.byteTime
  wt : s.wt = w
  xfer : s.xfer = x
  cfg : s.cfg = origin.cfg
  sector : s.regs.sector = origin.regs.sector
  intrq : s.regs.intrq = origin.regs.intrq
  lostData : s.statusBit lostDataBit = origin.statusBit lostDataBit

section Stream

variable {origin : State} {w : WriteTrackScan} {x : Transfer} {s : State} (h : Streaming origin w x s) (b : Byte)

/-- The state in which a supplied stream byte is taken: the byte is in DATA and no request is pending, so none is lost. -/
theorem suppliedDue_data : (s.suppliedDue b).regs.data = b ∧ (s.suppliedDue b).regs.drq = false := by
  have hdata : (s.supplied b).regs.data = b := by simp [State.supplied, writeDataRegister]
  exact ⟨hdata, s.supplied_drq b⟩

theorem suppliedDue_sector : (s.suppliedDue b).regs.sector = s.regs.sector := by
  have hsector : (s.supplied b).regs.sector = s.regs.sector := by simp [State.supplied, writeDataRegister, State.quiet]
  exact hsector

theorem suppliedDue_intrq : (s.suppliedDue b).regs.intrq = s.regs.intrq := by
  have hintrq : (s.supplied b).regs.intrq = s.regs.intrq := by simp [State.supplied, writeDataRegister, State.quiet]
  exact hintrq

theorem suppliedDue_lostData : (s.suppliedDue b).statusBit lostDataBit = s.statusBit lostDataBit := by
  have hbit : (s.supplied b).statusBit lostDataBit = s.statusBit lostDataBit :=
    (s.quiet.setData b).clearDrq_errorBit (.inr (.inl rfl))
  exact hbit

theorem suppliedDue_lostDataStatus : lostDataStatus (s.suppliedDue b) = (s.suppliedDue b).regs.status := by
  rw [lostDataStatus, (suppliedDue_data b).2, if_neg Bool.false_ne_true]

/-- Taking a byte that came in time loses no data. -/
theorem lostData_of_taken {u : State} (hstatus : u.regs.status = lostDataStatus (s.suppliedDue b) &&& 0xFD) :
    u.statusBit lostDataBit = s.statusBit lostDataBit := by
  rw [← suppliedDue_lostData (s := s) b, State.statusBit, hstatus, suppliedDue_lostDataStatus, ← putBit_request_clear,
    putBit_getLsbD _ _ _ _ (by decide), if_neg (by decide)]
  rfl

include h

/-- The machine goes on to the state the byte expiry leaves. -/
theorem Streaming.feeds {t : State} (ht : writeTrackByte (s.suppliedDue b) = t) (hanswer : t.io.readData = none) :
    Feeds [b] s t := by
  have hcls : (s.suppliedDue b).seq.activeCommandClass = .writeTrack :=
    (congrArg Sequencer.activeCommandClass (s.supplied_seq b)).trans h.cls
  intro es
  exact runScript_supply h.phase h.cycles h.timed (by rw [doTransferByte_writeTrack hcls, ht]) hanswer

/-- A state reached by taking a byte and asking for the next one, with other sub-state and transfer. -/
theorem Streaming.of_request {u : State} (hseq : u.seq = (s.suppliedDue b).seq) (hcfg : u.cfg = (s.suppliedDue b).cfg)
    (hregs : u.regs = { (s.suppliedDue b).regs with drq := false, status := lostDataStatus (s.suppliedDue b) &&& 0xFD }) :
    Streaming origin u.wt u.xfer u.setDrq.awaitByte := by
  have hcfg' : u.cfg = s.cfg := hcfg.trans (s.supplied_cfg b)
  have hlost := lostData_of_taken (s := s) b (u := u) (by rw [hregs])
  refine ⟨?_, ?_, le_of_eq rfl, ?_, rfl, rfl, hcfg'.trans h.cfg, ?_, ?_, ?_⟩
  · exact (congrArg Sequencer.phase (hseq.trans rfl)).trans ((congrArg Sequencer.phase (s.supplied_seq b)).trans h.phase)
  · exact (congrArg Sequencer.activeCommandClass hseq).trans
      ((congrArg Sequencer.activeCommandClass (s.supplied_seq b)).trans h.cls)
  · exact hcfg' ▸ h.timed
  · exact (congrArg Registers.sector hregs).trans ((suppliedDue_sector b).trans h.sector)
  · exact (congrArg Registers.intrq hregs).trans ((suppliedDue_intrq b).trans h.intrq)
  · exact (State.statusBit_setDrq u lostDataBit).trans ((if_neg (by decide)).trans (hlost.trans h.lostData))

/-- A byte taken while the command scans. -/
theorem Streaming.scans {w' : WriteTrackScan} {x' : Transfer}
    (hform : (s.suppliedDue b).streamByte = { (s.suppliedDue b).streamed with wt := w', xfer := x' }) :
    ∃ t, Feeds [b] s t ∧ Streaming origin w' x' t ∧ imagesUnchanged s t := by
  rw [State.streamed_eq] at hform
  have hphase : (s.suppliedDue b).streamByte.seq.phase = .transferByte := by
    rw [hform]
    exact (congrArg Sequencer.phase (s.supplied_seq b)).trans h.phase
  refine ⟨_, h.feeds b (writeTrackByte_goes_on hphase) (by rw [hform]; rfl), ?_, ?_⟩
  · have hnext := h.of_request b (u := (s.suppliedDue b).streamByte) (by rw [hform]) (by rw [hform]) (by rw [hform])
    have hwt : (s.suppliedDue b).streamByte.wt = w' := by rw [hform]
    have hxfer : (s.suppliedDue b).streamByte.xfer = x' := by rw [hform]
    rwa [hwt, hxfer] at hnext
  · rw [hform]
    exact imageByte_suppliedDue s b

/-! ### The ID field and the data mark (R242, R243) -/

omit h in
theorem suppliedDue_place : (s.suppliedDue b).wt = s.wt ∧ (s.suppliedDue b).xfer = s.xfer :=
  ⟨s.supplied_wt b, s.supplied_xfer b⟩

theorem Streaming.idMark (hscan : w.state = .scan) :
    ∃ t, Feeds [0xFE] s t ∧ Streaming origin { w with state := .id, idIndex := 0 } x t ∧ imagesUnchanged s t := by
  obtain ⟨hwt, hxfer⟩ := suppliedDue_place (s := s) 0xFE
  refine h.scans 0xFE ?_
  rw [streamByte_idMark (by rw [hwt, h.wt, hscan]) (suppliedDue_data _).1, hwt, h.wt, ← h.xfer, ← hxfer, State.streamed_eq]
  rfl

theorem Streaming.idField (hid : w.state = .id) (hindex : w.idIndex < 3) :
    ∃ t, Feeds [b] s t ∧ Streaming origin { w with idIndex := w.idIndex + 1 } x t ∧ imagesUnchanged s t := by
  obtain ⟨hwt, hxfer⟩ := suppliedDue_place (s := s) b
  refine h.scans b ?_
  rw [streamByte_idField (by rw [hwt, h.wt, hid]) (by rw [hwt, h.wt]; exact hindex), hwt, h.wt, ← h.xfer, ← hxfer,
    State.streamed_eq]
  rfl

theorem Streaming.idSize (hid : w.state = .id) (hindex : 3 ≤ w.idIndex) :
    ∃ t, Feeds [b] s t ∧ Streaming origin { w with sectorSize := sizeOfCode b, idSeen := true, state := .scan } x t ∧
      imagesUnchanged s t := by
  obtain ⟨hwt, hxfer⟩ := suppliedDue_place (s := s) b
  refine h.scans b ?_
  rw [streamByte_idSize (by rw [hwt, h.wt, hid]) (by rw [hwt, h.wt]; exact hindex), hwt, h.wt, ← h.xfer, ← hxfer,
    State.streamed_eq, (suppliedDue_data _).1]
  rfl

theorem Streaming.dataMark (hscan : w.state = .scan) (hseen : w.idSeen = true) :
    ∃ t, Feeds [0xFB] s t ∧
      Streaming origin { w with state := .data } { x with
        byteCountRemaining := w.sectorSize, offset := sectorOffset x.base origin.regs.sector.toNat w.sectorSize } t ∧
      imagesUnchanged s t := by
  obtain ⟨hwt, hxfer⟩ := suppliedDue_place (s := s) 0xFB
  refine h.scans 0xFB ?_
  rw [streamByte_dataMark (by rw [hwt, h.wt, hscan]) (suppliedDue_data _).1 (by rw [hwt, h.wt, hseen]), hwt, h.wt, ← h.xfer,
    ← hxfer, ← h.sector, ← suppliedDue_sector (s := s) 0xFB, State.streamed_eq]
  rfl

/-- An ID field with size code `c` and the data mark: the data block is opened at SECTOR. -/
theorem Streaming.header (a k l c : Byte) (hscan : w.state = .scan) :
    ∃ t, Feeds [0xFE, a, k, l, c, 0xFB] s t ∧
      Streaming origin { state := .data, idIndex := 3, idSeen := true, sectorSize := sizeOfCode c } { x with
        byteCountRemaining := sizeOfCode c, offset := sectorOffset x.base origin.regs.sector.toNat (sizeOfCode c) } t ∧
      imagesUnchanged s t := by
  obtain ⟨s1, hfeeds1, h1, himages1⟩ := h.idMark hscan
  obtain ⟨s2, hfeeds2, h2, himages2⟩ := h1.idField a rfl (Nat.succ_pos 2)
  obtain ⟨s3, hfeeds3, h3, himages3⟩ := h2.idField k rfl (by simp)
  obtain ⟨s4, hfeeds4, h4, himages4⟩ := h3.idField l rfl (by simp)
  obtain ⟨s5, hfeeds5, h5, himages5⟩ := h4.idSize c rfl (by simp)
  obtain ⟨s6, hfeeds6, h6, himages6⟩ := h5.dataMark rfl rfl
  have hcfg : ∀ {w w' x x' u v}, Streaming origin w x u → Streaming origin w' x' v → v.cfg = u.cfg := fun hu hv =>
    hv.cfg.trans hu.cfg.symm
  refine ⟨s6, ?feeds, h6, ?images⟩
  case feeds =>
    exact hfeeds1.cons (hcfg h h1) (hfeeds2.cons (hcfg h1 h2) (hfeeds3.cons (hcfg h2 h3) (hfeeds4.cons (hcfg h3 h4)
      (hfeeds5.cons (hcfg h4 h5) hfeeds6))))
  case images =>
    intro d j o
    rw [himages6, himages5, himages4, himages3, himages2, himages1]

/-! ### The data block (R244) -/

/-- How the data block of a sector ends: SECTOR has gone on by one, and the command with it or not. -/
structure BlockDone (origin : State) (count : Nat) (t : State) : Prop where
  sector : t.regs.sector = origin.regs.sector + 1
  lostData : t.statusBit lostDataBit = origin.statusBit lostDataBit
  more : origin.regs.sector.toNat + 1 < count →
    t.seq.phase = .transferByte ∧ t.seq.activeCommandClass = .writeTrack ∧ t.wt.state = .scan ∧ t.wt.idSeen = false ∧
      t.regs.drq = true ∧ t.regs.intrq = origin.regs.intrq
  done : origin.regs.sector.toNat + 1 = count → t.seq.phase = .idle ∧ t.regs.drq = false ∧ t.regs.intrq = true

theorem Streaming.byteStored (hdata : w.state = .data) :
    ByteStored b s (writeTrackByte (s.suppliedDue b)) x.drive x.head x.offset := by
  obtain ⟨hwt, hxfer⟩ := suppliedDue_place (s := s) b
  have hplace := (writeTrackByte_data_place (s := s.suppliedDue b) (by rw [hwt, h.wt, hdata])).1
  intro d k o
  rw [imagesUnchanged_of_disks hplace, State.byteWritten_imageByte, hxfer, h.xfer, (suppliedDue_data b).1,
    imageByte_suppliedDue]

/-- A data byte before the block's last. -/
theorem Streaming.dataByte (hdata : w.state = .data) (hmore : 1 < x.byteCountRemaining) :
    Feeds [b] s (writeTrackByte (s.suppliedDue b)) ∧
      Streaming origin w { x with offset := x.offset + 1, byteCountRemaining := x.byteCountRemaining - 1 }
        (writeTrackByte (s.suppliedDue b)) := by
  obtain ⟨hwt, hxfer⟩ := suppliedDue_place (s := s) b
  have hphase : (s.suppliedDue b).seq.phase = .transferByte := (congrArg Sequencer.phase (s.supplied_seq b)).trans h.phase
  have hbyte := writeTrackByte_more (s := s.suppliedDue b) (by rw [hwt, h.wt, hdata]) hphase (by rw [hxfer, h.xfer]; exact hmore)
  have hnext := h.of_request b (u := (s.suppliedDue b).byteWritten) (State.byteWritten_seq _)
    (s.suppliedDue b).byteWritten_frame.cfg (State.byteWritten_regs _)
  rw [State.byteWritten_wt, State.byteWritten_xfer, hwt, hxfer, h.wt, h.xfer, ← hbyte] at hnext
  refine ⟨h.feeds b rfl ?_, hnext⟩
  rw [hbyte]
  exact congrArg Bench.readData (State.byteWritten_io _)

/-- The last byte of the block. -/
theorem Streaming.lastDataByte (hdata : w.state = .data) (hlast : x.byteCountRemaining = 1)
    (hon : origin.regs.sector.toNat < x.sectorCount) (hcount : x.sectorCount ≤ 255) :
    Feeds [b] s (writeTrackByte (s.suppliedDue b)) ∧ BlockDone origin x.sectorCount (writeTrackByte (s.suppliedDue b)) := by
  obtain ⟨hwt, hxfer⟩ := suppliedDue_place (s := s) b
  have hphase : (s.suppliedDue b).seq.phase = .transferByte := (congrArg Sequencer.phase (s.supplied_seq b)).trans h.phase
  have hst : (s.suppliedDue b).wt.state = .data := by rw [hwt, h.wt, hdata]
  have hone : (s.suppliedDue b).xfer.byteCountRemaining = 1 := by rw [hxfer, h.xfer, hlast]
  have hsector : (s.suppliedDue b).regs.sector = origin.regs.sector := (suppliedDue_sector b).trans h.sector
  have hsucc : ((s.suppliedDue b).regs.sector + 1).toNat = origin.regs.sector.toNat + 1 := by
    rw [hsector, toNat_succ_of_lt hon hcount]
  have hbudget : (s.suppliedDue b).xfer.sectorCount = x.sectorCount := by rw [hxfer, h.xfer]
  have hregs := (s.suppliedDue b).blockEnded_regs
  have hlost : (s.suppliedDue b).blockEnded.statusBit lostDataBit = origin.statusBit lostDataBit :=
    (lostData_of_taken b (by rw [hregs])).trans h.lostData
  have hnext : (s.suppliedDue b).blockEnded.regs.sector = origin.regs.sector + 1 := by rw [hregs, hsector]
  have hanswer : (s.suppliedDue b).blockEnded.io.readData = none := congrArg Bench.readData (State.byteWritten_io _)
  rcases Nat.lt_or_ge (origin.regs.sector.toNat + 1) x.sectorCount with hmore | hdone
  · have hbyte := writeTrackByte_blockEnded hst hphase hone (by rw [hsucc, hbudget]; exact hmore)
    refine ⟨h.feeds b rfl (by rw [hbyte]; exact hanswer), ?_⟩
    rw [hbyte]
    refine ⟨hnext, ?_, fun _ => ⟨?_, ?_, rfl, rfl, rfl, ?_⟩, fun hend => absurd hend hmore.ne⟩
    · exact (State.statusBit_setDrq _ lostDataBit).trans ((if_neg (by decide)).trans hlost)
    · exact (congrArg Sequencer.phase (State.blockEnded_seq _)).trans hphase
    · exact (congrArg Sequencer.activeCommandClass ((State.blockEnded_seq _).trans rfl)).trans
        ((congrArg Sequencer.activeCommandClass (s.supplied_seq b)).trans h.cls)
    · exact (congrArg Registers.intrq hregs).trans ((suppliedDue_intrq b).trans h.intrq)
  · have hbyte := writeTrackByte_trackDone hst hone (by rw [hsucc, hbudget]; exact hdone)
    refine ⟨h.feeds b rfl (by rw [hbyte, State.complete_io]; exact hanswer), ?_⟩
    rw [hbyte]
    refine ⟨by rw [State.complete_sector, hnext], ?_, fun hno => absurd hdone hno.not_ge, fun _ => ⟨by simp, ?_, by simp⟩⟩
    · rw [State.statusBit_complete, if_neg (by decide), hlost]
    · rw [State.complete_drq, hregs]

end Stream

/-- The data of a block is stored byte after byte from the transfer's offset on. -/
theorem Streaming.block {origin : State} {w : WriteTrackScan} (hdata : w.state = .data) :
    ∀ {data : List Byte} {b : Byte} {x : Transfer} {s : State}, Streaming origin w x s →
      x.byteCountRemaining = data.length + 1 → origin.regs.sector.toNat < x.sectorCount → x.sectorCount ≤ 255 →
      ∃ t, Feeds (b :: data) s t ∧ BlockDone origin x.sectorCount t ∧ Stores (b :: data) s t x.drive x.head x.offset := by
  intro data
  induction data with
  | nil =>
    intro b x s h hbytes hon hcount
    obtain ⟨hfeeds, hdone⟩ := h.lastDataByte b hdata hbytes hon hcount
    exact ⟨_, hfeeds, hdone, (h.byteStored b hdata).stores⟩
  | cons c data ih =>
    intro b x s h hbytes hon hcount
    rw [List.length_cons] at hbytes
    obtain ⟨hfeeds, hnext⟩ := h.dataByte b hdata (by omega)
    obtain ⟨t, ht, hdone, hstores⟩ := ih (b := c) hnext (by simp only; omega) hon hcount
    exact ⟨t, hfeeds.cons (hnext.cfg.trans h.cfg.symm) ht, hdone, .cons (h.byteStored b hdata) hstores⟩

/-- Settles O57: the header opens the data block at SECTOR's place, and the block stores the data. -/
theorem formatsOneSector : Obligations.FormatsOneSector := by
  intro a b k c data s hp hc hscan hwf hcycles hon hcount hlength
  have hstart : Streaming s s.wt s.xfer s := ⟨hp, hc, hcycles, byteTime_pos hwf, rfl, rfl, rfl, rfl, rfl, rfl⟩
  obtain ⟨u, hu, hblock, himages⟩ := hstart.header a b k c hscan
  have hsize : sizeOfCode c = data.length := hlength.symm
  rw [hsize] at hblock
  have hpos : 0 < data.length := by
    rw [hlength]
    positivity
  obtain ⟨d, ds, rfl⟩ := List.exists_cons_of_length_pos hpos
  obtain ⟨t, ht, hdone, hstores⟩ := Streaming.block rfl (data := ds) (b := d) hblock rfl hon hcount
  obtain ⟨hholds, honly⟩ := hstores.of_unchanged himages
  refine ⟨t, ?run, hholds, honly, hdone.sector, hdone.lostData, hdone.more, hdone.done⟩
  case run =>
    have hfed := hu.append hblock.cfg ht []
    rw [List.append_nil] at hfed
    exact hfed

end Sys2Proof.Machine
end

section
/-! Every command but Write Track ends (spec/41_sequencer.md R157): each expiry ends the command, leads to a phase nearer to
its end, or leaves fewer bytes to move. -/

namespace Sys2Proof.Machine

/-! ### How far a command is from its end -/

/-- An upper bound of the phases a command still passes through. -/
def phasesLeft : Phase → Nat
  | .idle | .completing => 0
  | .seeking | .transferByte => 1
  | .transferPrepare => 2
  | .settling => 3
  | .spinUp => 4

/-- The bytes a transfer still moves: those of its sector, and with m = 1 those of the sectors behind it. -/
def State.bytesLeft (s : State) : Nat :=
  s.xfer.byteCountRemaining
    + if s.latch.multiSectorFlag then (s.xfer.sectorCount - (s.regs.sector.toNat + 1)) * s.xfer.sectorSize else 0

/-- The same command, nearer to its end. -/
structure Nearer (s t : State) : Prop where
  cls : t.seq.activeCommandClass = s.seq.activeCommandClass
  closer : phasesLeft t.seq.phase < phasesLeft s.seq.phase ∨ t.seq.phase = s.seq.phase ∧ t.bytesLeft < s.bytesLeft

/-- What an expiry does: it answers no read, and it ends the command or brings it nearer to its end. -/
structure Advances (s t : State) : Prop where
  answer : t.io.readData = s.io.readData
  nearer : t.seq.phase = .idle ∨ Nearer s t

theorem Nearer.of_phase {s t : State} {p q : Phase} (hs : s.seq.phase = p) (ht : t.seq.phase = q)
    (hcls : t.seq.activeCommandClass = s.seq.activeCommandClass) (h : phasesLeft q < phasesLeft p) : Nearer s t :=
  ⟨hcls, .inl (by rw [hs, ht]; exact h)⟩

/-! ### The end of SpinUp -/

theorem enterSeeking_class {s t : State} (h : enterSeeking s = .next t) :
    t.seq.activeCommandClass = s.seq.activeCommandClass ∧ t.io.readData = s.io.readData := by
  obtain ⟨-, rfl⟩ | ⟨-, m, -, hmoved, rfl⟩ := enterSeeking_cases s t h
  · exact ⟨rfl, rfl⟩
  · exact ⟨congrArg (fun u => u.seq.activeCommandClass) hmoved.eq, congrArg (fun u => u.io.readData) hmoved.eq⟩

theorem beginCommandPhase_class {s t : State} (h : beginCommandPhase s = .next t) :
    t.seq.activeCommandClass = s.seq.activeCommandClass ∧ t.io.readData = s.io.readData := by
  cases hc : s.seq.activeCommandClass
  case typeI =>
    rw [beginCommandPhase_typeI s hc] at h
    rw [← hc]
    exact enterSeeking_class (s := s.driveOperation DriveUnit.loadHead) h
  case none | forceInterrupt =>
    simp only [beginCommandPhase, State.driveOperation_seq, hc] at h
    cases h
  all_goals
    rw [beginCommandPhase_transfer s (by rw [hc]; rfl)] at h
    cases h
    exact ⟨hc, rfl⟩

theorem phasesLeft_classEntry (cls : CommandClass) (settle : Bool) :
    phasesLeft (classEntry cls settle) < phasesLeft .spinUp := by
  cases cls <;> cases settle <;> decide

theorem spinUpExpiry_advances {s t : State} (hp : s.seq.phase = .spinUp) (h : spinUpExpiry s = .next t) : Advances s t :=
  have ⟨hcls, hanswer⟩ := beginCommandPhase_class h
  ⟨hanswer, .inr (.of_phase hp (beginCommandPhase_classEntry h) hcls (phasesLeft_classEntry _ _))⟩

/-! ### The end of TransferPrepare -/

/-- A transfer begins, or, for a Write Track without budget, the command ends. -/
theorem prepareTransfer_begins {s t : State} (h : prepareTransfer s = .next t) :
    t.io.readData = s.io.readData ∧ (t.seq.phase = .idle ∨
      t.seq.phase = .transferByte ∧ t.seq.activeCommandClass = s.seq.activeCommandClass) := by
  unfold prepareTransfer at h
  split at h <;> cases h
  case h_4 =>
    rw [prepareWriteTrack]
    split
    · exact ⟨rfl, .inl rfl⟩
    · exact ⟨rfl, .inr ⟨rfl, rfl⟩⟩
  all_goals exact ⟨rfl, .inr ⟨rfl, rfl⟩⟩

theorem doTransferPrepare_advances {s t : State} (hp : s.seq.phase = .transferPrepare) (h : doTransferPrepare s = .next t) :
    Advances s t := by
  simp only [doTransferPrepare] at h
  split at h
  · cases h
    exact ⟨rfl, .inl rfl⟩
  · obtain ⟨hanswer, hnext⟩ := prepareTransfer_begins h
    exact ⟨hanswer, hnext.imp id fun ⟨hphase, hcls⟩ => .of_phase hp hphase hcls (by decide)⟩

/-! ### A byte expiry -/

/-- At the head of the next sector, the bytes left are those that were left behind the sector that ended. -/
theorem bytesLeft_nextSector {u : State} (hm : u.latch.multiSectorFlag = true) (hcount : u.xfer.sectorCount ≤ 255)
    (hnext : (u.regs.sector + 1).toNat < u.xfer.sectorCount) (hon : u.regs.sector.toNat < u.xfer.sectorCount) :
    (u.setSector (u.regs.sector + 1)).aimAtSector.bytesLeft ≤ u.bytesLeft := by
  have hsucc := toNat_succ_of_lt hon hcount
  obtain ⟨k, hk⟩ := Nat.exists_eq_add_of_lt hnext
  have hhere : u.xfer.sectorCount - (u.regs.sector.toNat + 1) = k + 1 := by omega
  have hthere : u.xfer.sectorCount - ((u.regs.sector + 1).toNat + 1) = k := by omega
  calc (u.setSector (u.regs.sector + 1)).aimAtSector.bytesLeft
      = u.xfer.sectorSize + (u.xfer.sectorCount - ((u.regs.sector + 1).toNat + 1)) * u.xfer.sectorSize :=
        congrArg (u.xfer.sectorSize + ·) (if_pos hm)
    _ = (u.xfer.sectorCount - (u.regs.sector.toNat + 1)) * u.xfer.sectorSize := by rw [hhere, hthere]; ring
    _ ≤ u.bytesLeft := by rw [State.bytesLeft, hm]; exact Nat.le_add_left _ _

/-- Once the byte is moved the command ends, or the transfer goes on and no byte has come back. -/
theorem afterByte_bytesLeft (isWrite : Bool) {u : State} (hcount : u.xfer.sectorCount ≤ 255)
    (hon : u.regs.sector.toNat < u.xfer.sectorCount) :
    (afterByte isWrite u).seq.phase = .idle ∨
      (afterByte isWrite u).seq.phase = u.seq.phase ∧
        (afterByte isWrite u).seq.activeCommandClass = u.seq.activeCommandClass ∧
        (afterByte isWrite u).bytesLeft ≤ u.bytesLeft := by
  rw [afterByte]
  split
  · cases hm : u.latch.multiSectorFlag
    · rw [endOfSector_single isWrite hm]
      exact .inl (State.complete_phase _ _)
    rcases le_or_gt u.xfer.sectorCount (u.regs.sector + 1).toNat with hpast | hnext
    · rw [endOfSector_past isWrite hm hpast]
      exact .inl (State.complete_phase _ _)
    · rw [endOfSector_next isWrite hm hnext]
      have hbytes := bytesLeft_nextSector hm hcount hnext hon
      cases isWrite <;> exact .inr ⟨rfl, rfl, hbytes⟩
  · cases isWrite <;> exact .inr ⟨rfl, rfl, le_rfl⟩

/-- A state in which one byte of the transfer has been moved. -/
structure TransferAdvanced (s u : State) : Prop where
  frame : TransferFrame s u
  seq : u.seq = s.seq
  sector : u.regs.sector = s.regs.sector
  count : u.xfer.sectorCount = s.xfer.sectorCount
  size : u.xfer.sectorSize = s.xfer.sectorSize
  left : u.xfer.byteCountRemaining = s.xfer.byteCountRemaining - 1

theorem State.byteRead_transferAdvanced (s : State) : TransferAdvanced s s.byteRead :=
  ⟨s.byteRead_frame, s.byteRead_seq, by rw [s.byteRead_regs], by rw [s.byteRead_xfer], by rw [s.byteRead_xfer],
    by rw [s.byteRead_xfer]⟩

theorem State.byteWritten_transferAdvanced (s : State) : TransferAdvanced s s.byteWritten :=
  ⟨s.byteWritten_frame, s.byteWritten_seq, by rw [s.byteWritten_regs], by rw [s.byteWritten_xfer],
    by rw [s.byteWritten_xfer], by rw [s.byteWritten_xfer]⟩

theorem State.headerByte_transferAdvanced (s : State) : TransferAdvanced s s.headerByte :=
  ⟨s.headerByte_frame, s.headerByte_seq, by rw [s.headerByte_regs], by rw [s.headerByte_xfer], by rw [s.headerByte_xfer],
    by rw [s.headerByte_xfer]⟩

theorem TransferAdvanced.bytesLeft_lt {s u : State} (h : TransferAdvanced s u) (hpos : 1 ≤ s.xfer.byteCountRemaining) :
    u.bytesLeft < s.bytesLeft := by
  rw [State.bytesLeft, State.bytesLeft, h.frame.latch, h.sector, h.count, h.size, h.left]
  omega

theorem TransferAdvanced.afterByte_advances {s u : State} (h : TransferAdvanced s u) (isWrite : Bool) (hok : TransferContextOk s)
    (hpos : 1 ≤ s.xfer.byteCountRemaining) (hon : s.regs.sector.toNat < s.xfer.sectorCount) :
    Advances s (afterByte isWrite u) := by
  refine ⟨(congrArg Bench.readData (afterByte_io isWrite u)).trans h.frame.answer, ?_⟩
  refine (afterByte_bytesLeft isWrite (by rw [h.count]; exact hok.count_le) (by rw [h.sector, h.count]; exact hon)).imp id ?_
  rintro ⟨hphase, hcls, hbytes⟩
  rw [h.seq] at hphase hcls
  exact ⟨hcls, .inr ⟨hphase, hbytes.trans_lt (h.bytesLeft_lt hpos)⟩⟩

theorem readAddressByte_advances {s : State} (hpos : 1 ≤ s.xfer.byteCountRemaining) : Advances s (readAddressByte s) := by
  have hmoved := s.headerByte_transferAdvanced
  rcases hpos.eq_or_lt with hlast | hmore
  · rw [readAddressByte_last hlast.symm]
    exact ⟨(congrArg Bench.readData (State.complete_io _ _)).trans hmoved.frame.answer, .inl (State.complete_phase _ _)⟩
  · rw [readAddressByte_more hmore]
    have hcls := congrArg Sequencer.activeCommandClass hmoved.seq
    have hphase := congrArg Sequencer.phase hmoved.seq
    exact ⟨hmoved.frame.answer, .inr ⟨hcls, .inr ⟨hphase, hmoved.bytesLeft_lt hpos⟩⟩⟩

theorem doTransferByte_advances {s t : State} (hok : TransferContextOk s) (hclass : s.seq.activeCommandClass ≠ .writeTrack)
    (h : doTransferByte s = .next t) : Advances s t := by
  have hpos := hok.bytes_left (.inl hclass)
  cases hc : s.seq.activeCommandClass
  case typeIIRead =>
    cases (doTransferByte_readSector hc).symm.trans h
    rw [readSectorByte_afterByte]
    exact s.byteRead_transferAdvanced.afterByte_advances false hok hpos (hok.sector_on_track (by simp [hc]))
  case typeIIWrite =>
    cases (doTransferByte_writeSector hc).symm.trans h
    rw [writeSectorByte_afterByte]
    exact s.byteWritten_transferAdvanced.afterByte_advances true hok hpos (hok.sector_on_track (by simp [hc]))
  case readAddress =>
    cases (doTransferByte_readAddress hc).symm.trans h
    exact readAddressByte_advances hpos
  case writeTrack => exact absurd hc hclass
  all_goals
    rw [doTransferByte, hc] at h
    cases h

/-! ### Every expiry, and the whole command -/

theorem phaseExpiry_advances {s t : State} (hok : s.seq.phase = .transferByte → TransferContextOk s)
    (hclass : s.seq.activeCommandClass ≠ .writeTrack) (h : phaseExpiry s = .next t) : Advances s t := by
  unfold phaseExpiry at h
  split at h
  · next hp => exact spinUpExpiry_advances hp h
  · next hp =>
    cases h
    exact ⟨rfl, .inr (.of_phase (q := .transferPrepare) hp rfl rfl (by decide))⟩
  · cases h
    exact ⟨congrArg Bench.readData (seekExpiry_io s), .inl (State.complete_phase _ _)⟩
  · next hp => exact doTransferPrepare_advances hp h
  · next hp => exact doTransferByte_advances (hok hp) hclass h
  all_goals cases h

/-- Some number of unit polls, with no answer of a read among them, ends the command. -/
def Ends (s : State) : Prop :=
  ∃ n t, runScript (unitPolls n) s = some (t, []) ∧ t.seq.phase = .idle ∧ t.statusBit busyBit = false ∧ t.regs.intrq = true

theorem Ends.of_unitPolls {s t : State} {n : Nat} (h : runScript (unitPolls n) s = some (t, [])) (ht : Ends t) : Ends s := by
  obtain ⟨m, u, hu, hend⟩ := ht
  exact ⟨n + m, u, by rw [unitPolls_add, runScript_append_silent h, hu], hend⟩

/-- Unit polls lead a busy state to the expiry of its phase, and its state keeps the invariant. -/
theorem unitPolls_to_expiry {s : State} (hs : Invariant s) (hclass : s.seq.activeCommandClass ≠ .writeTrack)
    (hp : s.seq.phase ≠ .idle) :
    ∃ n t, runScript (unitPolls n) s = some (t, []) ∧ Invariant t ∧ t.RaisedIfIdle ∧ (t.seq.phase = .idle ∨ Nearer s t) := by
  obtain ⟨c, hc⟩ := Int.eq_ofNat_of_zero_le (hs.cycles_nonneg hp)
  have hquiet : Invariant s.quiet := hs.withIo _
  have hexpiry := poll_expires 1 (countedDown s (min c 1)) (countedDown_expires s c) hp
  obtain ⟨t, ht⟩ := phaseExpiry_completes hquiet hp ((countedDown s (min c 1)).seq.cyclesRemaining - (1 : Nat))
  have hnext : Advances (s.quiet.setCycles ((countedDown s (min c 1)).seq.cyclesRemaining - (1 : Nat))) t :=
    phaseExpiry_advances (fun htransfer => (hquiet.movingByte htransfer _).context) hclass ht
  have hrun := unitPolls_last hp hc (hexpiry.trans ht)
  rw [hnext.answer] at hrun
  exact ⟨_, t, hrun, phaseExpiry_invariant hquiet _ ht, phaseExpiry_raisedIfIdle ht,
    hnext.nearer.imp id fun h => ⟨h.cls, h.closer⟩⟩

/-- Settles O58, by induction on the phases and then on the bytes a command has left. -/
theorem commandsEnd : Obligations.CommandsEnd := by
  intro s hs hclass hp
  generalize hphases : phasesLeft s.seq.phase = p
  generalize hbytes : s.bytesLeft = b
  induction p using Nat.strong_induction_on generalizing s b with
  | _ p ihphase =>
  induction b using Nat.strong_induction_on generalizing s with
  | _ b ihbytes =>
  obtain ⟨n, t, hrun, ht, hraised, hnext⟩ := unitPolls_to_expiry hs hclass hp
  by_cases hidle : t.seq.phase = .idle
  · have hbusy : t.statusBit busyBit = false := Bool.eq_false_iff.2 fun hb => ht.busy_iff.1 hb hidle
    exact ⟨n, t, hrun, hidle, hbusy, hraised hidle⟩
  · obtain ⟨hcls, hcloser⟩ := hnext.resolve_left hidle
    rw [← hcls] at hclass
    refine Ends.of_unitPolls hrun ?_
    obtain hphase | ⟨hsame, hfewer⟩ := hcloser
    · exact ihphase _ (hphases ▸ hphase) t ht hclass hidle rfl _ rfl
    · exact ihbytes _ (hbytes ▸ hfewer) t ht hclass hidle (by rw [hsame, hphases]) rfl

end Sys2Proof.Machine
end
